-- ==== Sys2Proof/Word.lean ====
section
/-! DEFINITION. The words of the host command port (spec/30_encoding.md R66) and the two bus symbols (R7, R56). -/

namespace Sys2Proof

/-- A word of the host command port: 32 bits (R66). -/
abbrev Word := BitVec 32

/-- A payload byte (R58). -/
abbrev Byte := BitVec 8

/-- A bus bit: one of two symbols, and no third one (R7, R56). -/
inductive Bit where
  /-- `Dominant = 0`. -/
  | dominant
  /-- `Recessive = 1`. -/
  | recessive
deriving DecidableEq, Repr, Inhabited

/-- The wired-AND of two symbols: Dominant wins (R7). -/
def Bit.and : Bit → Bit → Bit
  | .recessive, .recessive => .recessive
  | _, _ => .dominant

/-- `not b`, the opposite symbol (R7). -/
def Bit.flip : Bit → Bit
  | .dominant => .recessive
  | .recessive => .dominant

/-- The symbol's code, as a Bool: Dominant 0, Recessive 1 (R65). -/
def Bit.toBool : Bit → Bool
  | .dominant => false
  | .recessive => true

/-- The symbol with a given code (R65). -/
def Bit.ofBool : Bool → Bit
  | false => .dominant
  | true => .recessive

end Sys2Proof
end

