-- ==== Sys2Proof/Syntax.lean ====
section
/-! DEFINITION. The operations of the block: one constructor of `Instr` for each row of spec/opcode_table.json.
The operands of a host command are those of its words (spec/30_encoding.md R66). The operands of the other rows are
those their rules name; the words that carry them are the model's own (log 1). -/

namespace Sys2Proof

/-- A Data Frame: an 11-bit identifier and 0 to 8 bytes (spec/41_frame_queue.md R84).
Both invariants of R84 hold of every value: the identifier fits in 11 bits, and the DLC, which is the payload's length,
is at most 8. -/
structure Frame where
  id : BitVec 11
  data : List Byte
  short : data.length ≤ 8
deriving DecidableEq, Repr

/-- An entry of a raw participant's script: `R` or `W(b)` (spec/10_state.md R36). -/
inductive RawOp where
  | read
  | write (b : Bit)
deriving DecidableEq, Repr

/-- What `bus.attach` registers: a new node or a new raw participant (spec/40_bus.md R72). -/
inductive Attached where
  | node (id : Word)
  | raw (script : List RawOp)
deriving DecidableEq, Repr

/-- The 46 operations. -/
inductive Instr where
  -- host commands (spec/45_host_interface.md)
  | attach (id : BitVec 16)
  | attachRaw (script : List RawOp)
  | setBehavior (uid : BitVec 8) (handle : BitVec 16)
  | setBusOffFunc (uid : BitVec 8) (handle : BitVec 16)
  | enqueue (uid : BitVec 8) (data : List Byte)
  | seed (uid : BitVec 8) (t r : Word)
  | activate
  | status (uid : BitVec 8)
  | halt
  | reserved0 (low : BitVec 28)
  | reservedAB (low : BitVec 29)
  | reservedCF (low : BitVec 30)
  -- the bus (spec/40_bus.md)
  | busAttach (p : Attached)
  | busWrite (uid : Word) (b : Bit)
  | busRead (uid : Word)
  | busPeriod
  -- data frames (spec/41_frame_queue.md)
  | frameNew (id : Word) (data : List Byte)
  | frameSize (f : Frame)
  | frameBit (f : Frame) (i : Word)
  | frameString (f : Frame)
  -- the transmit queue (spec/41_frame_queue.md)
  | queuePushBack (uid : Word) (f : Frame)
  | queuePopFront (uid : Word)
  | queuePushFront (uid : Word) (f : Frame)
  -- bit stuffing (spec/42_bit_stuffing.md)
  | stuffWriteBit (uid : Word) (b : Bit)
  | stuffReadBit (uid : Word)
  | stuffMaybeWriteStuff (uid : Word)
  | stuffMaybeReadStuff (uid : Word)
  -- protocol states (spec/43_protocol_fsm.md)
  | fsmIntermission (uid : Word)
  | fsmSuspendTransmission (uid : Word)
  | fsmBusIdle (uid : Word)
  | fsmArbitration (uid : Word)
  | fsmDlc (uid : Word)
  | fsmData (uid : Word)
  | fsmEof (uid : Word)
  | fsmError (uid : Word)
  -- fault confinement (spec/44_fault_confinement.md)
  | fcUpdateState (uid : Word)
  | fcRecPlus1 (uid : Word)
  | fcRule2 (uid : Word)
  | fcTecPlus8 (uid : Word)
  | fcRule45 (uid : Word)
  | fcRule7 (uid : Word)
  | fcRule8 (uid : Word)
  | fcRule9 (uid : Word)
  | fcRule10 (uid : Word)
  | fcRule11 (uid : Word)
  | fcBusOff (uid : Word)
deriving DecidableEq, Repr

/-- What the host, or a bus-off callback, sends: the words of one command (R66). It has no other means (R143). -/
abbrev Command := List Word

/-- The words of one instruction: a host command's (R66), or, the model's own, an operation's (log 1). -/
inductive Packet where
  | command (ws : Command)
  | operation (ws : List Word)
deriving DecidableEq, Repr

/-- Why a packet is no instruction. -/
inductive DecodeError where
  /-- A header field that must be 0 is not (R66, R154). -/
  | reservedField
  /-- A script entry has the reserved code 01 (R64, R66). -/
  | reservedScriptCode
  /-- The packet has no word. -/
  | empty
  /-- The packet has fewer or more operand words than the command takes (log 8). -/
  | wordCount
  /-- No operation has this identifier (R70). -/
  | unknownOpid
  /-- An operand word of an operation packet holds no value of the operand's type (log 1). -/
  | badOperand
deriving DecidableEq, Repr

/-- What the decoder answers. -/
inductive Decoded where
  | instr (i : Instr)
  | rejected (e : DecodeError)
deriving DecidableEq, Repr

/-- The instruction a decoder's answer holds, if it holds one. -/
def Decoded.instr? : Decoded → Option Instr
  | .instr i => some i
  | .rejected _ => none

end Sys2Proof
end

