-- ==== Sys2Proof/Machine/Types.lean ====
section
/-! DEFINITION. The types of the registers of a node, a raw participant and the bus (spec/10_state.md), and of what the block
gives back to the host. -/

namespace Sys2Proof.Machine

/-- The fault-confinement state `st` (R22). -/
inductive FcState where
  | errorActive
  | errorPassive
  | busOff
deriving DecidableEq, Repr, Inhabited

/-- The role of a node in the current frame (R26). -/
inductive Role where
  | receiver
  | transmitter
deriving DecidableEq, Repr, Inhabited

/-- The deferred counter update (R29). -/
inductive ErrorUpdate where
  | none
  | recPlus1
  | tecPlus8
deriving DecidableEq, Repr, Inhabited

/-- The protocol state `ps` (R27, R102). -/
inductive Ps where
  | intermission
  | suspendTransmission
  | busIdle
  | arbitration
  | dlc
  | data
  | eof
  | error
deriving DecidableEq, Repr, Inhabited

/-- The part of the frame a Transmitter is sending: the identifier in Arbitration (R109), or the DLC or the data through
`sendVerify` (R112). -/
inductive Field where
  | identifier
  | dlc
  | data
deriving DecidableEq, Repr, Inhabited

/-- A blocking point (R123): the protocol state, the bus call the node waits at and the live locals of that point (R33).
The three blocks of Transmitter points of R123 (`ARB_TX_*`, `DLC_TX_*`, `DATA_TX_*`) are `tx…` with the field. -/
inductive Point where
  | intW (k : Nat)
  | intR (k : Nat)
  | susW (k : Nat)
  | susR (k : Nat)
  | idleR
  | idleSofW
  | idleSofR
  | txSW (f : Field) (i : Nat) (b : Bit)
  | txSR (f : Field) (i : Nat)
  | txW (f : Field) (i : Nat) (sent : Bit)
  | txR (f : Field) (i : Nat) (sent : Bit)
  | arbRxSR (i : Nat)
  | arbRxR (i : Nat)
  | dlcRxSR (k : Nat)
  | dlcRxR (k : Nat)
  | dataRxSR (j k : Nat) (acc : Byte)
  | dataRxR (j k : Nat) (acc : Byte)
  | eofTxW (k : Nat)
  | eofTxR (k : Nat)
  | eofRxR (k : Nat)
  | errAfW (k : Nat)
  | errAfR (k : Nat)
  | errPfW (k : Nat) (first : Bool)
  | errPfR (k : Nat) (first : Bool)
  | errD1W
  | errD1R
  | errD2W (k : Nat)
  | errD2R (k : Nat)
deriving DecidableEq, Repr, Inhabited

/-- A stuffing-tracker pair: the polarity of the last bit and how many bits of it have passed (R28, R93). -/
structure Tracker where
  last : Bit
  count : Nat
deriving DecidableEq, Repr, Inhabited

/-- The pair (Recessive, 0): the reset value of both pairs (R28) and what Intermission sets (R105). -/
def Tracker.reset : Tracker := { last := .recessive, count := 0 }

/-- The registers of a node (R19). -/
structure Node where
  uid : Nat
  id : Nat
  st : FcState
  tec : Nat
  /-- The receive error counter `rec` of R19. -/
  recCtr : Nat
  queue : List Frame
  /-- `lastBitRead` and `samePolarityReadCount`. -/
  readTrk : Tracker
  /-- `lastBitWrite` and `samePolarityWriteCount`. -/
  writeTrk : Tracker
  /-- The handle of the behaviour closure (R31, R66). -/
  behavior : Option (BitVec 16)
  /-- The handle of the bus-off callback (R31, R66). -/
  busOffFunc : Option (BitVec 16)
  cur : Option Frame
  role : Role
  prevRole : Role
  errorUpdate : ErrorUpdate
  rxId : BitVec 11
  rxDlc : BitVec 4
  rxData : List Byte
  /-- The position: `ps`, the blocked call and the live locals (R33, R35). `none` before activation (R172). -/
  pos : Option Point
deriving DecidableEq, Repr

/-- The registers of a new node (R19, R172). -/
def Node.reset (uid id : Nat) : Node where
  uid := uid
  id := id
  st := .errorActive
  tec := 0
  recCtr := 0
  queue := []
  readTrk := Tracker.reset
  writeTrk := Tracker.reset
  behavior := none
  busOffFunc := none
  cur := none
  role := .receiver
  prevRole := .receiver
  errorUpdate := .none
  rxId := 0
  rxDlc := 0
  rxData := []
  pos := none

/-- A raw participant (R36). -/
structure Raw where
  uid : Nat
  script : List RawOp
  index : Nat
  reads : List Bit
deriving DecidableEq, Repr

/-- A new raw participant: script index 0 and no reads (R172). -/
def Raw.reset (uid : Nat) (script : List RawOp) : Raw where
  uid := uid
  script := script
  index := 0
  reads := []

/-- Anything attached to the bus (R12, R16). -/
inductive Participant where
  | node (n : Node)
  | raw (r : Raw)
deriving DecidableEq, Repr

/-- What a blocked participant waits for: `W(b)` or `R` (R35). -/
inductive BusOp where
  | write (b : Bit)
  | read
deriving DecidableEq, Repr

/-- The phase of the bus loop (R14). -/
inductive Phase where
  | stopped
  | write
  | read
  | boundary
deriving DecidableEq, Repr

/-- A fault reason (spec/60_exceptions.md R160). -/
inductive FaultReason where
  | bitIndexOutOfRange
  | ioOnInactiveBus
  | counterOverflow
deriving DecidableEq, Repr

/-- The kind of a protocol error (R118, R159). No register holds it. -/
inductive ErrorKind where
  | stuff
  | bit
  | form
deriving DecidableEq, Repr

/-- An output event, less its stamp (R38). -/
inductive EventKind where
  | rxFrame (id : BitVec 11) (dlc : BitVec 4) (data : List Byte)
  | txDone (f : Frame)
  | stateChange (old new : FcState) (tec recCtr : Nat)
  | busOff
deriving DecidableEq, Repr

/-- An output event with its stamp: the period (`none` is "before activation", R150), the phase (D21) and the uid (R38). -/
structure Event where
  period : Option Nat
  phase : Phase
  uid : Nat
  kind : EventKind
deriving DecidableEq, Repr

/-- What a node's step gives the rest of the block: an event, or a call of a bus-off callback (R76). -/
inductive Effect where
  | event (e : EventKind)
  | call (handle : BitVec 16)
deriving DecidableEq, Repr

/-- A call of a bus-off callback (R138). -/
structure Call where
  period : Option Nat
  uid : Nat
  handle : BitVec 16
deriving DecidableEq, Repr

/-- A result code (spec/30_encoding.md R68). -/
inductive ResultCode where
  | ok
  | invalidId
  | payloadTooLarge
  | busAlreadyActive
  | nodeAttachError
  | noSuchNode
  | reservedCommand
deriving DecidableEq, Repr

/-- What the status record shows of a node beside the words of R69 and the queue (R173, D11, D22, D23; the form is log 33). -/
structure StatusRest where
  cur : Option Frame
  errorUpdate : ErrorUpdate
  rxId : BitVec 11
  rxDlc : BitVec 4
  rxData : List Byte
deriving DecidableEq, Repr

/-- What a command or an operation returns. -/
inductive Result where
  /-- A result code with nothing beside it (R68). -/
  | code (c : ResultCode)
  /-- `Ok` with the uid (R145, R146). -/
  | uid (u : Nat)
  /-- `Ok` with the status record: its three words, the queue (R69), and the registers R173 says it shows (log 33). -/
  | status (w0 w1 w2 : Word) (queue : List Frame) (rest : StatusRest)
  /-- A frame: `Frame.new` (R84), `popFront` (R89). -/
  | frame (f : Frame)
  /-- `popFront` of an empty queue (R89). -/
  | empty
  /-- `size()` (R85). -/
  | size (n : Nat)
  /-- A bit: `bit(i)` (R86), `busRead` (R74), `readBit` (R95). -/
  | bit (b : Bit)
  /-- A truth value: `maybeWriteStuff` (R96), `maybeReadStuff` (R97). -/
  | truth (b : Bool)
  /-- `toString()`, as its characters (R87). -/
  | text (cs : List Char)
deriving DecidableEq, Repr

/-- One line of the bus trace (R71, R156): for each participant, by uid, the bit it wrote and whether it read; and the bus
value of the period. -/
structure TraceLine where
  period : Nat
  written : List (Option Bit)
  read : List Bool
  bus : Bit
deriving DecidableEq, Repr

/-- What a callback does when it is invoked: the commands it issues (R155, log 7). -/
structure HostCode where
  handle : BitVec 16
  commands : List Command
deriving DecidableEq, Repr

end Sys2Proof.Machine
end

