-- ==== Sys2Proof/Config.lean ====
section
/-! DEFINITION. The parameters of spec/00_scope.md R6: the ones the source fixes, as constants; the ones a model takes as
arguments, as the structure `Config.Params` (a fixed field of State, log 17); and the free values (log 12, log 13). -/

namespace Sys2Proof.Config

/-- `ID_BITS` (R6). -/
abbrev idBits : Nat := 11
/-- `DLC_BITS` (R6). -/
abbrev dlcBits : Nat := 4
/-- `MAX_PAYLOAD` (R6). -/
abbrev maxPayload : Nat := 8
/-- `STUFF_RUN` (R6). -/
abbrev stuffRun : Nat := 5
/-- `EOF_BITS` (R6). -/
abbrev eofBits : Nat := 7
/-- `INTERMISSION_BITS` (R6). -/
abbrev intermissionBits : Nat := 3
/-- `SUSPEND_BITS` (R6). -/
abbrev suspendBits : Nat := 8
/-- `FLAG_BITS` (R6). -/
abbrev flagBits : Nat := 6
/-- `DELIM_BITS` (R6). -/
abbrev delimBits : Nat := 7
/-- `PASSIVE_LIMIT` (R6). -/
abbrev passiveLimit : Nat := 127
/-- `BUSOFF_LIMIT` (R6). -/
abbrev busOffLimit : Nat := 255

/-- The parameters a model takes as arguments (R6). -/
structure Params where
  /-- `ALLOW_MISSED_PHASES` (R80). -/
  missedPhases : Bool
  /-- `BUSOFF_INTERNALS = havoc` (R125). -/
  busOffHavoc : Bool
  /-- `RULE8_CLAMP` (R133). -/
  rule8Clamp : Nat
  /-- `CNT_W`; `none` is unbounded (R126). -/
  cntW : Option Nat
  /-- `QUEUE_CAP`; `none` is unbounded (R88). -/
  queueCap : Option Nat
deriving DecidableEq, Repr

/-- The defaults of R6. -/
def Params.default : Params where
  missedPhases := false
  busOffHavoc := false
  rule8Clamp := 126
  cntW := none
  queueCap := none

/-- A clamp value that conforms (spec/93_implementation_defined.md I1). -/
def Params.ok (p : Params) : Bool := decide (119 ≤ p.rule8Clamp ∧ p.rule8Clamp ≤ 127)

/-- `BITRATE` at reset: DESIGN CHOICE (log 16). No rule reads it (R82). -/
abbrev bitrate : Nat := 500

/-- An event a BusOff node may emit under `havoc`: any but `StateChange` and `BusOff` (R125). -/
inductive FreeEvent where
  | rxFrame (id : BitVec 11) (dlc : BitVec 4) (data : List Byte)
  | txDone (f : Frame)
deriving Inhabited

/-- The values a BusOff node's registers may take under `havoc`, and the events it may emit (R125). -/
structure Havoc where
  pos : Machine.Point
  readTrk : Machine.Tracker
  writeTrk : Machine.Tracker
  rxId : BitVec 11
  rxDlc : BitVec 4
  rxData : List Byte
  queue : List Frame
  cur : Option Frame
  role : Machine.Role
  prevRole : Machine.Role
  errorUpdate : Machine.ErrorUpdate
  tec : Nat
  recCtr : Nat
  /-- The events the node emits in the write phase of the period, in order. -/
  inWrite : List FreeEvent
  /-- The events the node emits in the read phase of the period, in order. -/
  inRead : List FreeEvent
deriving Inhabited

/-- Free value: whether participant `uid` misses the write phase (`false`) or the read phase (`true`) of a period, where missed
phases are allowed (R80, log 12). -/
opaque miss (period uid : Nat) (readPhase : Bool) : Bool

/-- Free value: the registers of BusOff node `uid` after a period, under `havoc` (R125, log 13). -/
opaque havoc (period uid : Nat) : Havoc

end Sys2Proof.Config
end

