-- ==== Sys2Proof/Machine/Frame.lean ====
section
/-! DEFINITION. The operations on Data Frames (spec/41_frame_queue.md §1), as functions of the frame alone. -/

namespace Sys2Proof.Machine

/-- What `Frame.new` answers (R84). -/
inductive Built where
  | frame (f : Frame)
  | invalidId
  | payloadTooLarge
deriving DecidableEq, Repr

/-- `Frame.new(id, data)`: the identifier is checked before the length (R84, D42). -/
def frameNew (id : Nat) (data : List Byte) : Built :=
  if id < 2 ^ Config.idBits then
    if h : data.length ≤ Config.maxPayload then .frame { id := BitVec.ofNat 11 id, data := data, short := h }
    else .payloadTooLarge
  else .invalidId

/-- The frame's DLC: the payload's length, in 4 bits (R57, R58). -/
def frameDlc (f : Frame) : BitVec 4 := BitVec.ofNat 4 f.data.length

/-- `size()` (R85). -/
def frameSize (f : Frame) : Nat := 11 + 4 + 8 * f.data.length

/-- Bit `k` of byte `j` of the payload, value numbering (R8b). -/
def frameDataBit (f : Frame) (j k : Nat) : Bit := .ofBool ((f.data.getD j 0).getLsbD k)

/-- `bit(i)`; `none` is the programmer error of an index outside `[0, size())` (R86). -/
def frameBit? (f : Frame) (i : Nat) : Option Bit :=
  if i < frameSize f then
    if i < 11 then some (.ofBool (f.id.getLsbD (10 - i)))
    else if i < 15 then some (.ofBool ((frameDlc f).getLsbD (14 - i)))
    else some (frameDataBit f ((i - 15) / 8) (7 - (i - 15) % 8))
  else none

/-- The frame's bits in wire order (R57). -/
def frameBits (f : Frame) : List Bit := (List.range (frameSize f)).filterMap (frameBit? f)

/-- The character of a bit (R71). -/
def bitChar : Bit → Char
  | .dominant => '0'
  | .recessive => '1'

/-- The `n` bits of a frame from wire index `i` on, as characters. -/
def frameChars (f : Frame) (i n : Nat) : List Char := (((List.range n).map (i + ·)).filterMap (frameBit? f)).map bitChar

/-- `toString()` (R87, D27): the identifier bits, a space, the DLC bits, then for each byte a space and its bits. -/
def frameText (f : Frame) : List Char :=
  frameChars f 0 11 ++ ' ' :: frameChars f 11 4 ++
    (List.range f.data.length).flatMap fun k => ' ' :: frameChars f (15 + 8 * k) 8

end Sys2Proof.Machine
end

