-- ==== Sys2Proof/WellFormed.lean ====
section
/-! DEFINITION. Which instructions have words: every operand fits the field or the length word that carries it
(spec/30_encoding.md R66). The operands whose types already bound them need no check. -/

namespace Sys2Proof

/-- A payload fits the 4-bit `LEN` field of ENQUEUE: 0 to 15 bytes (R66). More than 8 is a well-formed command, answered
`PayloadTooLarge` (R84). -/
def payloadFits (data : List Byte) : Bool := decide (data.length ≤ 15)

/-- A script's or a payload's length fits one 32-bit length word (R66: the word `S`). -/
def lengthFits {α : Type} (xs : List α) : Bool := decide (xs.length < 2 ^ 32)

/-- The instruction has words. -/
def Instr.wf : Instr → Bool
  | .enqueue _ data => payloadFits data
  | .attachRaw script => lengthFits script
  | .busAttach (.raw script) => lengthFits script
  | .frameNew _ data => lengthFits data
  | .attach _ | .setBehavior _ _ | .setBusOffFunc _ _ | .seed _ _ _ | .activate | .status _ | .halt | .reserved0 _
  | .reservedAB _ | .reservedCF _ | .busAttach (.node _) | .busWrite _ _ | .busRead _ | .busPeriod | .frameSize _
  | .frameBit _ _ | .frameString _ | .queuePushBack _ _ | .queuePopFront _ | .queuePushFront _ _ | .stuffWriteBit _ _
  | .stuffReadBit _ | .stuffMaybeWriteStuff _ | .stuffMaybeReadStuff _ | .fsmIntermission _ | .fsmSuspendTransmission _
  | .fsmBusIdle _ | .fsmArbitration _ | .fsmDlc _ | .fsmData _ | .fsmEof _ | .fsmError _ | .fcUpdateState _ | .fcRecPlus1 _
  | .fcRule2 _ | .fcTecPlus8 _ | .fcRule45 _ | .fcRule7 _ | .fcRule8 _ | .fcRule9 _ | .fcRule10 _ | .fcRule11 _
  | .fcBusOff _ => true

end Sys2Proof
end

