-- ==== Sys2Proof/Decode.lean ====
section
/-! DEFINITION. The decoder of packets, total and rejecting by name, and after it the encoder.
The words of a host command are those of spec/30_encoding.md R66 and R67. The words of an operation packet are the model's own
(log 1): the operation identifier of R70 in the first word, then the operands, a word each; a frame is its identifier, its
length and its payload packed as for ENQUEUE; a script is its length and its entries packed as for ATTACH_RAW. -/

namespace Sys2Proof

/-! ### Bytes and script entries in words (R66) -/

/-- The number of words that hold `n` items, `perWord` in each. -/
def wordsFor (n perWord : Nat) : Nat := (n + (perWord - 1)) / perWord

/-- The four bytes of a word: byte `j` is bits `31-8j : 24-8j` (R66). -/
def wordBytes (w : Word) : List Byte :=
  [w.extractLsb' 24 8, w.extractLsb' 16 8, w.extractLsb' 8 8, w.extractLsb' 0 8]

/-- The first `n` bytes of the words, in order (R66). What stands after them in the last word is not read (log 9). -/
def unpackBytes (n : Nat) (ws : List Word) : List Byte := (ws.flatMap wordBytes).take n

/-- Bytes packed four to a word, the last word filled up with zeros (R66). -/
def packBytes : List Byte → List Word
  | [] => []
  | [a] => [a ++ (0 : BitVec 24)]
  | [a, b] => [a ++ b ++ (0 : BitVec 16)]
  | [a, b, c] => [a ++ b ++ c ++ (0 : BitVec 8)]
  | a :: b :: c :: d :: rest => (a ++ b ++ c ++ d) :: packBytes rest

/-- The four 2-bit codes of a byte, most significant first (R66). -/
def byteCodes (b : Byte) : List (BitVec 2) :=
  [b.extractLsb' 6 2, b.extractLsb' 4 2, b.extractLsb' 2 2, b.extractLsb' 0 2]

/-- Codes packed four to a byte, the last byte filled up with zeros. -/
def packCodes : List (BitVec 2) → List Byte
  | [] => []
  | [a] => [a ++ (0 : BitVec 6)]
  | [a, b] => [a ++ b ++ (0 : BitVec 4)]
  | [a, b, c] => [a ++ b ++ c ++ (0 : BitVec 2)]
  | a :: b :: c :: d :: rest => (a ++ b ++ c ++ d) :: packCodes rest

/-- A script entry's code: `00` R, `10` W(Dominant), `11` W(Recessive) (R66). -/
def scriptCode : RawOp → BitVec 2
  | .read => 0b00
  | .write .dominant => 0b10
  | .write .recessive => 0b11

/-- The script entry with a given code; `01` is reserved (R64, R66). -/
def codeScript (c : BitVec 2) : Option RawOp :=
  if c = 0b00 then some .read
  else if c = 0b10 then some (.write .dominant)
  else if c = 0b11 then some (.write .recessive)
  else none

/-- The script a list of codes spells, if no code is reserved. -/
def scriptOfCodes : List (BitVec 2) → Option (List RawOp)
  | [] => some []
  | c :: cs =>
    match codeScript c with
    | none => none
    | some op => (scriptOfCodes cs).map (op :: ·)

/-- The script of `n` entries in the words, sixteen to a word (R66). -/
def unpackScript (n : Nat) (ws : List Word) : Option (List RawOp) :=
  scriptOfCodes (((ws.flatMap wordBytes).flatMap byteCodes).take n)

/-- A script's words (R66). -/
def packScript (script : List RawOp) : List Word := packBytes (packCodes (script.map scriptCode))

/-! ### Operands -/

/-- Exactly one operand word. -/
def oneWord (ws : List Word) (k : Word → Instr) : Decoded :=
  match ws with
  | [u] => .instr (k u)
  | _ => .rejected .wordCount

/-- A uid word, then a word that is the code of a bit (R65). -/
def wordAndBit (ws : List Word) (k : Word → Bit → Instr) : Decoded :=
  match ws with
  | [u, b] =>
    if b = 0 then .instr (k u .dominant)
    else if b = 1 then .instr (k u .recessive)
    else .rejected .badOperand
  | _ => .rejected .wordCount

/-- A word, then a length word and the payload it counts. -/
def wordAndBytes (ws : List Word) (k : Word → List Byte → Decoded) : Decoded :=
  match ws with
  | w :: n :: ds =>
    if ds.length = wordsFor n.toNat 4 then k w (unpackBytes n.toNat ds) else .rejected .wordCount
  | _ => .rejected .wordCount

/-- A frame's words: they must build a frame (R84). -/
def frameWords (ws : List Word) (k : Frame → Instr) : Decoded :=
  wordAndBytes ws fun id data =>
    match Machine.frameNew id.toNat data with
    | .frame f => .instr (k f)
    | .invalidId => .rejected .badOperand
    | .payloadTooLarge => .rejected .badOperand

/-- A word, then a frame's words. -/
def wordAndFrame (ws : List Word) (k : Word → Frame → Instr) : Decoded :=
  match ws with
  | w :: rest => frameWords rest (k w)
  | [] => .rejected .wordCount

/-- A script's words: its length `S`, then `ceil(S/16)` words (R66). -/
def scriptWords (ws : List Word) (k : List RawOp → Instr) : Decoded :=
  match ws with
  | n :: es =>
    if es.length = wordsFor n.toNat 16 then
      match unpackScript n.toNat es with
      | some script => .instr (k script)
      | none => .rejected .reservedScriptCode
    else .rejected .wordCount
  | [] => .rejected .wordCount

/-- A participant's words: 0 and a node's identifier, or 1 and a script. -/
def attachedWords (ws : List Word) (k : Attached → Instr) : Decoded :=
  match ws with
  | kind :: rest =>
    if kind = 0 then oneWord rest fun id => k (.node id)
    else if kind = 1 then scriptWords rest fun script => k (.raw script)
    else .rejected .badOperand
  | [] => .rejected .wordCount

/-! ### Host commands (R66, R67) -/

/-- `OP`, bits 31:28 of a header. -/
def headerOp (h : Word) : BitVec 4 := h.extractLsb' 28 4
/-- `UID`, bits 27:20 of a header. -/
def headerUid (h : Word) : BitVec 8 := h.extractLsb' 20 8
/-- `LEN`, bits 19:16 of a header. -/
def headerLen (h : Word) : BitVec 4 := h.extractLsb' 16 4
/-- `ARG`, bits 15:0 of a header. -/
def headerArg (h : Word) : BitVec 16 := h.extractLsb' 0 16

/-- Refuse a header with a non-zero field that must be 0 before anything else is looked at (R142, check 1). -/
def mustBeZero (zero : Bool) (d : Decoded) : Decoded := if zero then d else .rejected .reservedField

/-- A command without operand words. -/
def noWords (ws : List Word) (i : Instr) : Decoded := if ws.isEmpty then .instr i else .rejected .wordCount

/-- The command a header and its operand words spell (R66, R67). -/
def decodeHeader (h : Word) (ops : List Word) : Decoded :=
  match (headerOp h).toNat with
  | 0 => .instr (.reserved0 (h.extractLsb' 0 28))
  | 1 => mustBeZero (headerUid h == 0 && headerLen h == 0) (noWords ops (.attach (headerArg h)))
  | 2 => mustBeZero (headerUid h == 0 && headerLen h == 0 && headerArg h == 0) (scriptWords ops .attachRaw)
  | 3 => mustBeZero (headerLen h == 0) (noWords ops (.setBehavior (headerUid h) (headerArg h)))
  | 4 => mustBeZero (headerLen h == 0) (noWords ops (.setBusOffFunc (headerUid h) (headerArg h)))
  | 5 => mustBeZero (headerArg h == 0)
      (if ops.length = wordsFor (headerLen h).toNat 4 then
        .instr (.enqueue (headerUid h) (unpackBytes (headerLen h).toNat ops))
       else .rejected .wordCount)
  | 6 => mustBeZero (headerLen h == 0 && headerArg h == 0)
      (match ops with
       | [t, r] => .instr (.seed (headerUid h) t r)
       | _ => .rejected .wordCount)
  | 7 => mustBeZero (headerUid h == 0 && headerLen h == 0 && headerArg h == 0) (noWords ops .activate)
  | 8 => mustBeZero (headerLen h == 0 && headerArg h == 0) (noWords ops (.status (headerUid h)))
  | 9 => mustBeZero (headerUid h == 0 && headerLen h == 0 && headerArg h == 0) (noWords ops .halt)
  | 10 => .instr (.reservedAB (h.extractLsb' 0 29))
  | 11 => .instr (.reservedAB (h.extractLsb' 0 29))
  | _ => .instr (.reservedCF (h.extractLsb' 0 30))

/-- The command some words spell. -/
def decodeCommand : List Word → Decoded
  | [] => .rejected .empty
  | h :: ops => decodeHeader h ops

/-! ### Operations (R70; the operand words are log 1) -/

/-- The operation an identifier and its operand words spell. -/
def decodeOpid (opid : Nat) (ops : List Word) : Decoded :=
  match opid with
  | 0x20 => attachedWords ops .busAttach
  | 0x21 => wordAndBit ops .busWrite
  | 0x22 => oneWord ops .busRead
  | 0x80 => noWords ops .busPeriod
  | 0x30 => wordAndBytes ops fun id data => .instr (.frameNew id data)
  | 0x31 => frameWords ops .frameSize
  | 0x32 => wordAndFrame ops fun i f => .frameBit f i
  | 0x33 => frameWords ops .frameString
  | 0x40 => wordAndFrame ops .queuePushBack
  | 0x41 => oneWord ops .queuePopFront
  | 0x42 => wordAndFrame ops .queuePushFront
  | 0x50 => wordAndBit ops .stuffWriteBit
  | 0x51 => oneWord ops .stuffReadBit
  | 0x52 => oneWord ops .stuffMaybeWriteStuff
  | 0x53 => oneWord ops .stuffMaybeReadStuff
  | 0x60 => oneWord ops .fsmIntermission
  | 0x61 => oneWord ops .fsmSuspendTransmission
  | 0x62 => oneWord ops .fsmBusIdle
  | 0x63 => oneWord ops .fsmArbitration
  | 0x64 => oneWord ops .fsmDlc
  | 0x65 => oneWord ops .fsmData
  | 0x66 => oneWord ops .fsmEof
  | 0x67 => oneWord ops .fsmError
  | 0x70 => oneWord ops .fcUpdateState
  | 0x71 => oneWord ops .fcRecPlus1
  | 0x72 => oneWord ops .fcRule2
  | 0x73 => oneWord ops .fcTecPlus8
  | 0x74 => oneWord ops .fcRule45
  | 0x75 => oneWord ops .fcRule7
  | 0x76 => oneWord ops .fcRule8
  | 0x77 => oneWord ops .fcRule9
  | 0x78 => oneWord ops .fcRule10
  | 0x79 => oneWord ops .fcRule11
  | 0x7A => oneWord ops .fcBusOff
  | _ => .rejected .unknownOpid

/-- The operation some words spell. -/
def decodeOperation : List Word → Decoded
  | [] => .rejected .empty
  | o :: ops => decodeOpid o.toNat ops

/-- The instruction of a packet. -/
def decode : Packet → Decoded
  | .command ws => decodeCommand ws
  | .operation ws => decodeOperation ws

/-! ### The opcode table's words -/

/-- How many operand words a command takes when its operand words are zeros (R66). -/
def headerZeroWords (h : Word) : Nat :=
  match (headerOp h).toNat with
  | 2 => 1
  | 5 => wordsFor (headerLen h).toNat 4
  | 6 => 2
  | _ => 0

/-- How many operand words an operation takes when they are zeros (log 1). -/
def opidZeroWords (opid : Nat) : Nat :=
  match opid with
  | 0x80 => 0
  | 0x20 => 2
  | 0x21 => 2
  | 0x30 => 2
  | 0x31 => 2
  | 0x32 => 3
  | 0x33 => 2
  | 0x40 => 3
  | 0x42 => 3
  | 0x50 => 2
  | _ => 1

/-- `n` 32-bit words, from bit `lo` of `w` on. -/
def tableOperands (w lo n : Nat) : List Word := (List.range n).map fun k => BitVec.ofNat 32 (w >>> (lo + 32 * k))

/-- The packet of an instruction whose bits are `w`, numbered as spec/opcode_table.json numbers them: an operation
identifier has 8 bits, a command header 32, and the operand words count on from there. -/
def tablePacket (nbits w : Nat) : Packet :=
  if nbits ≤ 8 then .operation (BitVec.ofNat 32 (w % 256) :: tableOperands w 8 (opidZeroWords (w % 256)))
  else .command (BitVec.ofNat 32 w :: tableOperands w 32 (headerZeroWords (BitVec.ofNat 32 w)))

/-- The instruction the decoder reads from an instruction whose bits are `w`. -/
def decodeTableWord (nbits w : Nat) : Option Instr := (decode (tablePacket nbits w)).instr?

/-! ### The encoder -/

/-- A command header (R66). -/
def header (op : BitVec 4) (uid : BitVec 8) (len : BitVec 4) (arg : BitVec 16) : Word := op ++ uid ++ len ++ arg

/-- The words of a list of bytes with its length word. -/
def bytesWords (data : List Byte) : List Word := BitVec.ofNat 32 data.length :: packBytes data

/-- A frame's words. -/
def encodeFrame (f : Frame) : List Word := f.id.setWidth 32 :: bytesWords f.data

/-- A script's words (R66). -/
def encodeScript (script : List RawOp) : List Word := BitVec.ofNat 32 script.length :: packScript script

/-- A participant's words. -/
def encodeAttached : Attached → List Word
  | .node id => [0, id]
  | .raw script => 1 :: encodeScript script

/-- The code of a bit, as a word (R65). -/
def bitWord : Bit → Word
  | .dominant => 0
  | .recessive => 1

/-- The packet of an instruction (R66, R67, R70; the operand words of operations are log 1). -/
def encode : Instr → Packet
  | .attach id => .command [header 1 0 0 id]
  | .attachRaw script => .command (header 2 0 0 0 :: encodeScript script)
  | .setBehavior uid h => .command [header 3 uid 0 h]
  | .setBusOffFunc uid h => .command [header 4 uid 0 h]
  | .enqueue uid data => .command (header 5 uid (BitVec.ofNat 4 data.length) 0 :: packBytes data)
  | .seed uid t r => .command [header 6 uid 0 0, t, r]
  | .activate => .command [header 7 0 0 0]
  | .status uid => .command [header 8 uid 0 0]
  | .halt => .command [header 9 0 0 0]
  | .reserved0 low => .command [(0 : BitVec 4) ++ low]
  | .reservedAB low => .command [(0b101 : BitVec 3) ++ low]
  | .reservedCF low => .command [(0b11 : BitVec 2) ++ low]
  | .busAttach p => .operation (0x20 :: encodeAttached p)
  | .busWrite uid b => .operation [0x21, uid, bitWord b]
  | .busRead uid => .operation [0x22, uid]
  | .busPeriod => .operation [0x80]
  | .frameNew id data => .operation (0x30 :: id :: bytesWords data)
  | .frameSize f => .operation (0x31 :: encodeFrame f)
  | .frameBit f i => .operation (0x32 :: i :: encodeFrame f)
  | .frameString f => .operation (0x33 :: encodeFrame f)
  | .queuePushBack uid f => .operation (0x40 :: uid :: encodeFrame f)
  | .queuePopFront uid => .operation [0x41, uid]
  | .queuePushFront uid f => .operation (0x42 :: uid :: encodeFrame f)
  | .stuffWriteBit uid b => .operation [0x50, uid, bitWord b]
  | .stuffReadBit uid => .operation [0x51, uid]
  | .stuffMaybeWriteStuff uid => .operation [0x52, uid]
  | .stuffMaybeReadStuff uid => .operation [0x53, uid]
  | .fsmIntermission uid => .operation [0x60, uid]
  | .fsmSuspendTransmission uid => .operation [0x61, uid]
  | .fsmBusIdle uid => .operation [0x62, uid]
  | .fsmArbitration uid => .operation [0x63, uid]
  | .fsmDlc uid => .operation [0x64, uid]
  | .fsmData uid => .operation [0x65, uid]
  | .fsmEof uid => .operation [0x66, uid]
  | .fsmError uid => .operation [0x67, uid]
  | .fcUpdateState uid => .operation [0x70, uid]
  | .fcRecPlus1 uid => .operation [0x71, uid]
  | .fcRule2 uid => .operation [0x72, uid]
  | .fcTecPlus8 uid => .operation [0x73, uid]
  | .fcRule45 uid => .operation [0x74, uid]
  | .fcRule7 uid => .operation [0x75, uid]
  | .fcRule8 uid => .operation [0x76, uid]
  | .fcRule9 uid => .operation [0x77, uid]
  | .fcRule10 uid => .operation [0x78, uid]
  | .fcRule11 uid => .operation [0x79, uid]
  | .fcBusOff uid => .operation [0x7A, uid]

end Sys2Proof
end

