-- ==== Sys2Proof/Machine/Act.lean ====
section
/-! DEFINITION. A node running its own pseudocode in zero bus time (spec/40_bus.md R76): its registers, what it has given the rest
of the block so far, and the fault that stopped it, if one did. -/

namespace Sys2Proof.Machine

/-- A node in the middle of a step. -/
structure Act where
  node : Node
  /-- The events emitted and the callbacks invoked in this step, in program order (R165b). -/
  effects : List Effect
  /-- The fault raised in this step (R160). -/
  fault : Option FaultReason
deriving DecidableEq, Repr

/-- A node at the start of a step. -/
def actOf (n : Node) : Act := { node := n, effects := [], fault := none }

/-- `emit E` (R9). -/
def emit (e : EventKind) (a : Act) : Act := { a with effects := a.effects ++ [.event e] }

/-- `fault(reason)` inside a step (R9). -/
def failWith (r : FaultReason) (a : Act) : Act := { a with fault := some r }

/-- The next statement of the pseudocode, unless a fault has stopped the node (R160). -/
def andThen (a : Act) (f : Act → Act) : Act :=
  match a.fault with
  | none => f a
  | some _ => a

/-- Change the registers of the node. -/
def onRegs (f : Node → Node) (a : Act) : Act := { a with node := f a.node }

end Sys2Proof.Machine
end

