-- ==== Sys2Proof/Machine/Flags.lean ====
section
/-! DEFINITION. Fault confinement: the counters, the state `st` and the bus-off entry (spec/44_fault_confinement.md).
These are the block's only computed flags (spec/10_state.md R34). -/

namespace Sys2Proof.Machine

/-! ### State transitions -/

/-- Rule 9 (R135): from ErrorActive, if `tec > 127` or `rec > 127`, to ErrorPassive. -/
def rule9Target (n : Node) : FcState :=
  if n.st = .errorActive ∧ (Config.passiveLimit < n.tec ∨ Config.passiveLimit < n.recCtr) then .errorPassive else n.st

/-- Rule 10 (R136): from ErrorPassive, if `tec > 255`, to BusOff. -/
def rule10Target (n : Node) : FcState :=
  if n.st = .errorPassive ∧ Config.busOffLimit < n.tec then .busOff else n.st

/-- Rule 11 (R137): from ErrorPassive, if `tec < 128` and `rec < 128`, to ErrorActive. -/
def rule11Target (n : Node) : FcState :=
  if n.st = .errorPassive ∧ n.tec ≤ Config.passiveLimit ∧ n.recCtr ≤ Config.passiveLimit then .errorActive else n.st

/-- The state `updateState()` moves to: at most one transition, the first row that matches (R134, D18). BusOff is permanent
(R139). -/
def updateTarget (n : Node) : FcState :=
  match n.st with
  | .errorActive => rule9Target n
  | .errorPassive => if Config.busOffLimit < n.tec then rule10Target n else rule11Target n
  | .busOff => .busOff

/-- `enterBusOff()` (R138): emit `BusOff`, and invoke the callback if one is installed. -/
def enterBusOff (a : Act) : Act :=
  match a.node.busOffFunc with
  | none => emit .busOff a
  | some h => { emit .busOff a with effects := (emit .busOff a).effects ++ [.call h] }

/-- The tail of `updateState()` (R134): take the state `next`; if it is new, emit `StateChange`, and enter BusOff if it is that. -/
def moveTo (next : FcState) (a : Act) : Act :=
  if next = a.node.st then a
  else
    let b := emit (.stateChange a.node.st next a.node.tec a.node.recCtr) (onRegs (fun n => { n with st := next }) a)
    if next = .busOff then enterBusOff b else b

/-- `updateState()` (R134). -/
def updateState (a : Act) : Act := moveTo (updateTarget a.node) a

/-! ### Counter rules -/

/-- A counter of the configured width can hold `v` (R126). -/
def counterFits (cfg : Config.Params) (v : Nat) : Bool :=
  match cfg.cntW with
  | none => true
  | some w => decide (v < 2 ^ w)

/-- `tec <- tec + k; updateState()`, or the overflow fault of a finite width (R126, log 14). -/
def addTec (cfg : Config.Params) (k : Nat) (a : Act) : Act :=
  if counterFits cfg (a.node.tec + k) then updateState (onRegs (fun n => { n with tec := n.tec + k }) a)
  else failWith .counterOverflow a

/-- `rec <- rec + k; updateState()`, or the overflow fault of a finite width (R126, log 14). -/
def addRec (cfg : Config.Params) (k : Nat) (a : Act) : Act :=
  if counterFits cfg (a.node.recCtr + k) then updateState (onRegs (fun n => { n with recCtr := n.recCtr + k }) a)
  else failWith .counterOverflow a

/-- The receiver error increment (R128). -/
def recPlus1 (cfg : Config.Params) (a : Act) : Act := addRec cfg 1 a

/-- The transmitter error increment (R129). -/
def tecPlus8 (cfg : Config.Params) (a : Act) : Act := addTec cfg 8 a

/-- Rule 2 (R130). -/
def rule2 (cfg : Config.Params) (a : Act) : Act := addRec cfg 8 a

/-- Rules 4 and 5 (R131): the counter that matches the role. -/
def rule45 (cfg : Config.Params) (a : Act) : Act :=
  match a.node.role with
  | .transmitter => addTec cfg 8 a
  | .receiver => addRec cfg 8 a

/-- Rule 7 (R132): `updateState()` is called only if `tec` changed. -/
def rule7 (a : Act) : Act :=
  if 0 < a.node.tec then updateState (onRegs (fun n => { n with tec := n.tec - 1 }) a) else a

/-- The value `rec` takes under rule 8 (R133). -/
def rule8Value (cfg : Config.Params) (r : Nat) : Nat := if Config.passiveLimit < r then cfg.rule8Clamp else r - 1

/-- Rule 8 (R133): `updateState()` is called only if `rec` changed. -/
def rule8 (cfg : Config.Params) (a : Act) : Act :=
  if 0 < a.node.recCtr then updateState (onRegs (fun n => { n with recCtr := rule8Value cfg n.recCtr }) a) else a

/-- The deferred counter update (R122, R29). -/
def applyErrorUpdate (cfg : Config.Params) (a : Act) : Act :=
  match a.node.errorUpdate with
  | .none => a
  | .tecPlus8 => tecPlus8 cfg a
  | .recPlus1 => recPlus1 cfg a

end Sys2Proof.Machine
end

