-- ==== Sys2Proof/Machine/State.lean ====
section
/-! DEFINITION. The state of the block, as plain data, and its reset (spec/10_state.md, spec/70_reset_and_hazards.md R171).
The block has no addressed memory (spec/20_memory.md R39), so State holds none. -/

namespace Sys2Proof.Machine

/-- The whole state: the bus registers of R14 (with the participants, each with its own registers), what the block gives back to
the host (R38, R156), what the host sends (R141, R143; log 6, log 7), and the parameters (R6; log 17). -/
structure State where
  /-- The parameters of R6. No operation writes them. -/
  cfg : Config.Params
  /-- Bits per second; only paces time (R14, R82). -/
  bitrate : Nat
  active : Bool
  busState : Bit
  /-- In attach order; the index is the uid (R16). -/
  participants : List Participant
  period : Nat
  phase : Phase
  halted : Bool
  fault : Option FaultReason
  /-- The output events (R38). -/
  events : List Event
  /-- The bus-off callbacks invoked (R138). -/
  calls : List Call
  /-- The results of the commands and operations (R156). -/
  results : List Result
  /-- The bus trace (R156). -/
  trace : List TraceLine
  /-- The model's own: packets put into the machine from outside it, by no agent of the spec, to run next (log 1, log 6). -/
  placed : List Packet
  /-- The commands issued by callbacks that have not run yet (R155). -/
  issued : List Command
  /-- The host's own commands: one list a boundary, the current boundary first (R141). -/
  host : List (List Command)
  /-- What each callback issues when it is invoked (R155, log 7). -/
  hostCode : List HostCode
deriving DecidableEq, Repr

/-- Why a step stops the machine with a fault. -/
inductive Fault where
  /-- Raised by `step` when the block is stuck: the register `fault` is set and the bus loop has stopped, so no participant takes
  a step, no period runs and host commands have no step (R160). Safe: the spec gives such a state no step. -/
  | blockStuck (r : FaultReason)
deriving DecidableEq, Repr

/-- Why a step is refused. -/
inductive Refusal where
  /-- Raised by an arm of `exec` whose instruction has no meaning yet. Safe: the machine stops. -/
  | notModelled (mnemonic : String)
  /-- Raised by ENQUEUE on a full queue, with a finite QUEUE_CAP only: the spec refuses it (D38, I13). Safe: the machine stops. -/
  | queueFull
  /-- Raised by `step` on a packet that holds no command: no word, a wrong number of operand words, or an operation packet with
  an unknown identifier or operand (log 8). Safe: the machine stops. -/
  | malformedPacket (e : DecodeError)
deriving DecidableEq, Repr

/-- The block right after its creation, "Create bus" (R144, R171), with the default parameters (R6). -/
def State.reset : State where
  cfg := Config.Params.default
  bitrate := Config.bitrate
  active := false
  busState := .recessive
  participants := []
  period := 0
  phase := .stopped
  halted := false
  fault := none
  events := []
  calls := []
  results := []
  trace := []
  placed := []
  issued := []
  host := []
  hostCode := []

end Sys2Proof.Machine
end

