-- ==== Sys2Proof/Machine/Operands.lean ====
section
/-! DEFINITION. The codes of spec/30_encoding.md R65, R68 and R69, the packed status record, the views of a node's position
(spec/10_state.md R33, R35), and the operand of an operation on a node. -/

namespace Sys2Proof.Machine

/-! ### Codes -/

/-- The code of `ps` (R65). -/
def psCode : Ps → BitVec 3
  | .intermission => 0
  | .suspendTransmission => 1
  | .busIdle => 2
  | .arbitration => 3
  | .dlc => 4
  | .data => 5
  | .eof => 6
  | .error => 7

/-- The code of `st` (R65). -/
def stCode : FcState → BitVec 2
  | .errorActive => 0
  | .errorPassive => 1
  | .busOff => 2

/-- The code of `role` and `prevRole` (R65). -/
def roleCode : Role → BitVec 1
  | .receiver => 0
  | .transmitter => 1

/-- The code of `errorUpdate` (R65). -/
def errorUpdateCode : ErrorUpdate → BitVec 2
  | .none => 0
  | .recPlus1 => 1
  | .tecPlus8 => 2

/-- The number of a result code (R68). -/
def resultNumber : ResultCode → Nat
  | .ok => 0
  | .invalidId => 1
  | .payloadTooLarge => 2
  | .busAlreadyActive => 3
  | .nodeAttachError => 4
  | .noSuchNode => 5
  | .reservedCommand => 6

/-- The number of a fault reason (R160). -/
def faultNumber : FaultReason → Nat
  | .bitIndexOutOfRange => 1
  | .ioOnInactiveBus => 2
  | .counterOverflow => 3

/-- The number of a protocol error's kind (R159). -/
def errorKindNumber : ErrorKind → Nat
  | .stuff => 1
  | .bit => 2
  | .form => 3

/-! ### The position -/

/-- The protocol state a blocking point lies in (R123). -/
def pointPs : Point → Ps
  | .intW _ | .intR _ => .intermission
  | .susW _ | .susR _ => .suspendTransmission
  | .idleR | .idleSofW | .idleSofR => .busIdle
  | .txSW .identifier _ _ | .txSR .identifier _ | .txW .identifier _ _ | .txR .identifier _ _ => .arbitration
  | .arbRxSR _ | .arbRxR _ => .arbitration
  | .txSW .dlc _ _ | .txSR .dlc _ | .txW .dlc _ _ | .txR .dlc _ _ => .dlc
  | .dlcRxSR _ | .dlcRxR _ => .dlc
  | .txSW .data _ _ | .txSR .data _ | .txW .data _ _ | .txR .data _ _ => .data
  | .dataRxSR _ _ _ | .dataRxR _ _ _ => .data
  | .eofTxW _ | .eofTxR _ | .eofRxR _ => .eof
  | .errAfW _ | .errAfR _ | .errPfW _ _ | .errPfR _ _ | .errD1W | .errD1R | .errD2W _ | .errD2R _ => .error

/-- The bus call a node waits at (R123). -/
def pointOp : Point → BusOp
  | .intW _ | .susW _ | .eofTxW _ | .errPfW _ _ | .errD1W | .errD2W _ => .write .recessive
  | .idleSofW | .errAfW _ => .write .dominant
  | .txSW _ _ b => .write b
  | .txW _ _ sent => .write sent
  | .intR _ | .susR _ | .idleR | .idleSofR | .txSR _ _ | .txR _ _ _ | .arbRxSR _ | .arbRxR _ | .dlcRxSR _ | .dlcRxR _
  | .dataRxSR _ _ _ | .dataRxR _ _ _ | .eofTxR _ | .eofRxR _ | .errAfR _ | .errPfR _ _ | .errD1R | .errD2R _ => .read

/-- The register `ps` (R27): BusIdle before activation. -/
def nodePs (n : Node) : Ps :=
  match n.pos with
  | none => .busIdle
  | some p => pointPs p

/-- What a node is blocked on (R35); nothing before activation. -/
def nodeOp (n : Node) : Option BusOp := n.pos.map pointOp

/-- What a raw participant is blocked on: its script entry, or `R` when the script is used up (R36, R81). -/
def rawOp (r : Raw) : BusOp :=
  match r.script[r.index]? with
  | some (.write b) => .write b
  | some .read => .read
  | none => .read

/-- What a participant is blocked on (R35). -/
def participantOp : Participant → Option BusOp
  | .node n => nodeOp n
  | .raw r => some (rawOp r)

/-- The uid of a participant (R16). -/
def participantUid : Participant → Nat
  | .node n => n.uid
  | .raw r => r.uid

/-! ### The status record -/

/-- The three packed words of a node's status record (R69). -/
def statusWords (n : Node) : Word × Word × Word :=
  (BitVec.ofNat 8 n.uid ++ psCode (nodePs n) ++ stCode n.st ++ roleCode n.role ++ roleCode n.prevRole ++ (0 : BitVec 1) ++
      BitVec.ofNat 16 n.id,
    BitVec.ofNat 32 (min n.tec 0xFFFFFFFF), BitVec.ofNat 32 (min n.recCtr 0xFFFFFFFF))

/-- The registers of a node that R173 says its status record shows, and to which R69 gives no word: unpacked (log 33). -/
def statusRest (n : Node) : StatusRest where
  cur := n.cur
  errorUpdate := n.errorUpdate
  rxId := n.rxId
  rxDlc := n.rxDlc
  rxData := n.rxData

/-- The status record as a result: the three words, then the queue (R69), then the registers of R173. DESIGN CHOICE (log 30): no result carries the bus's
`active`, `period`, `halted` and `fault`, which R37 lets the host read but gives no command or word; they are read as fields of State.
DESIGN CHOICE (log 33): the registers of R173 follow the queue as they are, since R69 packs them nowhere. -/
def statusResult (n : Node) : Result :=
  .status (statusWords n).1 (statusWords n).2.1 (statusWords n).2.2 n.queue (statusRest n)

/-- A handle operand: 0 means none (R66). -/
def handleOf (h : BitVec 16) : Option (BitVec 16) := if h = 0 then none else some h

/-- The node a uid names, if it names one: not out of range, and not a raw participant (R142). -/
def nodeAt (s : State) (uid : Nat) : Option Node :=
  match s.participants[uid]? with
  | some (.node n) => some n
  | _ => none

end Sys2Proof.Machine
end

