-- ==== Sys2Proof/Machine/Ops.lean ====
section
/-! DEFINITION. The shared operations: on a node in a step (trackers, blocking, the queue, entering the Error state and leaving
it), and on the state (registers of participants, results, effects, faults, the bus word, the packets of a boundary). -/

namespace Sys2Proof.Machine

/-! ### Trackers (spec/42_bit_stuffing.md) -/

/-- One more bit of a direction: a longer run, or a new run of 1 (R94, R95). -/
def track (t : Tracker) (b : Bit) : Tracker :=
  if t.last = b then { t with count := t.count + 1 } else { last := b, count := 1 }

/-- A stuff bit is due: the run is 5 long (R93, R96, R97). -/
def stuffDue (t : Tracker) : Bool := t.count == Config.stuffRun

/-- The tracker update of `writeBit(b)`, made before the bus write and in every state (R94). -/
def trackWrite (b : Bit) (n : Node) : Node := { n with writeTrk := track n.writeTrk b }

/-- The tracker update of `readBit()` (R95). -/
def trackRead (b : Bit) (n : Node) : Node := { n with readTrk := track n.readTrk b }

/-! ### Blocking (spec/10_state.md R35) -/

/-- Block at a point: the node's step ends here (R76). -/
def blockAt (p : Point) (a : Act) : Act := onRegs (fun n => { n with pos := some p }) a

/-- `writeBit(b)`: the tracker update, then the bus write, which blocks at `p` unless the node is BusOff. A BusOff node goes on
at once to `next` (R73, R94, D7). -/
def writeBit (b : Bit) (p : Point) (next : Act → Act) (a : Act) : Act :=
  match a.node.st with
  | .busOff => next (onRegs (trackWrite b) a)
  | .errorActive => blockAt p (onRegs (trackWrite b) a)
  | .errorPassive => blockAt p (onRegs (trackWrite b) a)

/-- `writeBit(b)` at `w`, then `readBit()` at `r`. -/
def writeThenRead (b : Bit) (w r : Point) (a : Act) : Act := writeBit b w (blockAt r) a

/-! ### The queue and the current frame (spec/41_frame_queue.md, spec/43_protocol_fsm.md) -/

/-- `pushBack(queue, f)` (R88). -/
def pushBack (f : Frame) (n : Node) : Node := { n with queue := n.queue ++ [f] }

/-- `pushFront(queue, f)` (R90). -/
def pushFront (f : Frame) (n : Node) : Node := { n with queue := f :: n.queue }

/-- `popFront(queue)`: the head, if there is one, and the node with the rest of the queue (R89). -/
def popFront (n : Node) : Option Frame × Node :=
  match n.queue with
  | [] => (none, n)
  | f :: rest => (some f, { n with queue := rest })

/-- `pushback()`: the frame being sent goes back to the head of the queue (R120). -/
def pushback (n : Node) : Node :=
  match n.cur with
  | none => n
  | some f => { pushFront f n with cur := none }

/-- `rxInit()` (R104). -/
def rxInit (n : Node) : Node := { n with rxId := 0, rxDlc := 0, rxData := [] }

/-! ### The Error state: entry and return (spec/60_exceptions.md R161, R162) -/

/-- What entry into Error saves (R118, R161): the deferred update the role calls for, and, for a Transmitter, the frame. -/
def saveError (n : Node) : Node :=
  match n.role with
  | .transmitter => pushback { n with errorUpdate := .tecPlus8 }
  | .receiver => { n with errorUpdate := .recPlus1 }

/-- The active flag: write Dominant, read (R121). -/
def activeFlag (k : Nat) (a : Act) : Act := writeThenRead .dominant (.errAfW k) (.errAfR k) a

/-- The passive flag: write Recessive, read (R121). -/
def passiveFlag (k : Nat) (first : Bool) (a : Act) : Act := writeThenRead .recessive (.errPfW k first) (.errPfR k first) a

/-- The first line of Error: the flag is chosen by `st` as it stands now (R121, D39). -/
def enterError (a : Act) : Act :=
  match a.node.st with
  | .errorActive => activeFlag 0 a
  | .errorPassive => passiveFlag 0 true a
  | .busOff => passiveFlag 0 true a

/-- `detect(kind)`, the only way into Error (R118). No register holds the kind (R159). -/
def detect (_kind : ErrorKind) (a : Act) : Act := enterError (onRegs saveError a)

/-- The wait for a Recessive bit of the delimiter (R122). -/
def delimiterWait (a : Act) : Act := writeThenRead .recessive .errD1W .errD1R a

/-- A trailing bit of the delimiter (R122). -/
def delimiterBit (k : Nat) (a : Act) : Act := writeThenRead .recessive (.errD2W k) (.errD2R k) a

/-- The registers Error clears and records at its end (R122). -/
def closeError (n : Node) : Node := { n with errorUpdate := .none, prevRole := n.role }

/-- The return from Error (R122, R162): the deferred update, then `errorUpdate` and `prevRole`; `resume` is the state the node
goes to, Intermission. -/
def leaveError (cfg : Config.Params) (resume : Act → Act) (a : Act) : Act :=
  andThen (applyErrorUpdate cfg a) fun b => resume (onRegs closeError b)

/-! ### The state -/

/-- Write back the registers of a node. -/
def setNode (s : State) (uid : Nat) (n : Node) : State := { s with participants := s.participants.set uid (.node n) }

/-- Give the issuer a result. -/
def answer (r : Result) (s : State) : State := { s with results := s.results ++ [r] }

/-- Give the issuer a result code. -/
def answerCode (c : ResultCode) (s : State) : State := answer (.code c) s

/-- `fault(reason)`: the fault register is set (R9, R160). -/
def raiseFault (r : FaultReason) (s : State) : State := { s with fault := some r }

/-- The fault of a step, if it raised one. -/
def raiseAny (r : Option FaultReason) (s : State) : State :=
  match r with
  | none => s
  | some r => raiseFault r s

/-- The period an event is stamped with; none before activation (R38, R150). -/
def stampOf (s : State) : Option Nat := if s.active then some s.period else none

/-- The commands the callback with a handle issues when it is invoked (R155, log 7). -/
def callbackCommands (code : List HostCode) (h : BitVec 16) : List Command :=
  match code.find? fun c => c.handle == h with
  | none => []
  | some c => c.commands

/-- The stamped event of an effect, if it is one (R38). -/
def eventOf (s : State) (e : Nat × Effect) : Option Event :=
  match e.2 with
  | .event k => some { period := stampOf s, phase := s.phase, uid := e.1, kind := k }
  | .call _ => none

/-- The callback invocation of an effect, if it is one (R138). -/
def callOf (s : State) (e : Nat × Effect) : Option Call :=
  match e.2 with
  | .event _ => none
  | .call h => some { period := stampOf s, uid := e.1, handle := h }

/-- The commands an effect issues: those of an invoked callback (R155). -/
def issuedBy (s : State) (e : Nat × Effect) : List Command :=
  match e.2 with
  | .event _ => []
  | .call h => callbackCommands s.hostCode h

/-- Give the rest of the block what the nodes' steps emitted and invoked, in order (R38, R138, R155). The callbacks' commands are
issued in the order of the effects: in one phase the uid order (log 31). -/
def absorb (es : List (Nat × Effect)) (s : State) : State :=
  { s with
    events := s.events ++ es.filterMap (eventOf s)
    calls := s.calls ++ es.filterMap (callOf s)
    issued := s.issued ++ es.flatMap (issuedBy s) }

/-- The end of a node's step: its registers, what it emitted, and its fault. -/
def commit (uid : Nat) (a : Act) (s : State) : State :=
  raiseAny a.fault (absorb (a.effects.map fun e => (a.node.uid, e)) (setNode s uid a.node))

/-- `busState <- busState AND b`, or the fault of I/O on an inactive bus (R73). -/
def driveBus (b : Bit) (s : State) : State :=
  if s.active then { s with busState := s.busState.and b } else raiseFault .ioOnInactiveBus s

/-- A caller's completed `busWrite(b)`: no effect for a BusOff node (R73). -/
def writeBy (st : FcState) (b : Bit) (s : State) : State :=
  match st with
  | .busOff => s
  | .errorActive => driveBus b s
  | .errorPassive => driveBus b s

/-! ### The packets of a boundary (spec/45_host_interface.md R141, R155) -/

/-- The next command of the boundary, and the state without it: a callback's first, then the host's own (R155, R165d). -/
def nextCommand? (s : State) : Option (Command × State) :=
  match s.issued with
  | c :: rest => some (c, { s with issued := rest })
  | [] =>
    match s.host with
    | (c :: rest) :: later => some (c, { s with host := rest :: later })
    | [] :: _ => none
    | [] => none

/-- The next packet to run, and the state without it: one placed from outside the machine (log 6), or the next command. -/
def fetch? (s : State) : Option (Packet × State) :=
  match s.placed with
  | p :: rest => some (p, { s with placed := rest })
  | [] => (nextCommand? s).map fun x => (.command x.1, x.2)

/-- The end of a boundary: the host's batch of commands for it is used up. -/
def closeBoundary (s : State) : State :=
  match s.host with
  | [] :: later => { s with host := later }
  | (_ :: _) :: _ => s
  | [] => s

/-- The block is stuck: a fault is set and the bus loop has stopped (R160, log 11). -/
def stuck? (s : State) : Option FaultReason :=
  match s.phase with
  | .stopped => s.fault
  | .write => none
  | .read => none
  | .boundary => none

/-- What becomes of a packet that is no instruction: a reserved field or script code is answered `ReservedCommand` and changes
nothing (R142, R154, R64); anything else is refused (log 8). -/
def rejectPacket (e : DecodeError) (s : State) : Host.Outcome State Fault Refusal :=
  match e with
  | .reservedField => .next (answerCode .reservedCommand s)
  | .reservedScriptCode => .next (answerCode .reservedCommand s)
  | .empty => .refused (.malformedPacket .empty)
  | .wordCount => .refused (.malformedPacket .wordCount)
  | .unknownOpid => .refused (.malformedPacket .unknownOpid)
  | .badOperand => .refused (.malformedPacket .badOperand)

/-- An operation on the node a uid names: its step is committed. A uid that names no node is answered `NoSuchNode` (log 2). -/
def onNode (uid : Word) (f : Node → Act) (s : State) : Host.Outcome State Fault Refusal :=
  match nodeAt s uid.toNat with
  | none => .next (answerCode .noSuchNode s)
  | some n => .next (commit uid.toNat (f n) s)

end Sys2Proof.Machine
end

