-- ==== Sys2Proof/Machine/FaultConfinement.lean ====
section
/-! DEFINITION. The meanings of the fault-confinement rows (spec/44_fault_confinement.md). Each runs its rule's pseudocode on the
node a uid names; when a rule runs in a frame is decided by the protocol state machine. -/

namespace Sys2Proof.Machine

/-- `updateState()` (R134). -/
def execFcUpdateState (uid : Word) (s : State) : Host.Outcome State Fault Refusal :=
  onNode uid (fun n => updateState (actOf n)) s

/-- `rec <- rec + 1; updateState()` (R128). -/
def execFcRecPlus1 (uid : Word) (s : State) : Host.Outcome State Fault Refusal :=
  onNode uid (fun n => recPlus1 s.cfg (actOf n)) s

/-- Rule 2 (R130). -/
def execFcRule2 (uid : Word) (s : State) : Host.Outcome State Fault Refusal :=
  onNode uid (fun n => rule2 s.cfg (actOf n)) s

/-- `tec <- tec + 8; updateState()` (R129). -/
def execFcTecPlus8 (uid : Word) (s : State) : Host.Outcome State Fault Refusal :=
  onNode uid (fun n => tecPlus8 s.cfg (actOf n)) s

/-- Rules 4 and 5 (R131). -/
def execFcRule45 (uid : Word) (s : State) : Host.Outcome State Fault Refusal :=
  onNode uid (fun n => rule45 s.cfg (actOf n)) s

/-- Rule 7 (R132). -/
def execFcRule7 (uid : Word) (s : State) : Host.Outcome State Fault Refusal :=
  onNode uid (fun n => rule7 (actOf n)) s

/-- Rule 8 (R133). -/
def execFcRule8 (uid : Word) (s : State) : Host.Outcome State Fault Refusal :=
  onNode uid (fun n => rule8 s.cfg (actOf n)) s

/-- Rule 9, with the tail of `updateState()` it runs in (R135, R134, log 5). -/
def execFcRule9 (uid : Word) (s : State) : Host.Outcome State Fault Refusal :=
  onNode uid (fun n => moveTo (rule9Target n) (actOf n)) s

/-- Rule 10, with the tail of `updateState()` it runs in (R136, R134, log 5). -/
def execFcRule10 (uid : Word) (s : State) : Host.Outcome State Fault Refusal :=
  onNode uid (fun n => moveTo (rule10Target n) (actOf n)) s

/-- Rule 11, with the tail of `updateState()` it runs in (R137, R134, log 5). -/
def execFcRule11 (uid : Word) (s : State) : Host.Outcome State Fault Refusal :=
  onNode uid (fun n => moveTo (rule11Target n) (actOf n)) s

/-- `enterBusOff()` (R138). -/
def execFcBusOff (uid : Word) (s : State) : Host.Outcome State Fault Refusal :=
  onNode uid (fun n => enterBusOff (actOf n)) s

end Sys2Proof.Machine
end

