-- ==== Sys2Proof/Machine/FrameQueue.lean ====
section
/-! DEFINITION. The meanings of the data-frame and transmit-queue rows (spec/41_frame_queue.md). -/

namespace Sys2Proof.Machine

/-- What `Frame.new` returns, as a result (R84). -/
def builtResult : Built → Result
  | .frame f => .frame f
  | .invalidId => .code .invalidId
  | .payloadTooLarge => .code .payloadTooLarge

/-- `Frame.new(id, data)` (R84). -/
def execFrameNew (id : Word) (data : List Byte) (s : State) : Host.Outcome State Fault Refusal :=
  .next (answer (builtResult (frameNew id.toNat data)) s)

/-- `size()` (R85). -/
def execFrameSize (f : Frame) (s : State) : Host.Outcome State Fault Refusal := .next (answer (.size (frameSize f)) s)

/-- `bit(i)`; an index outside `[0, size())` is the fault `BitIndexOutOfRange` (R86). -/
def execFrameBit (f : Frame) (i : Word) (s : State) : Host.Outcome State Fault Refusal :=
  match frameBit? f i.toNat with
  | some b => .next (answer (.bit b) s)
  | none => .next (raiseFault .bitIndexOutOfRange s)

/-- `toString()` (R87). -/
def execFrameString (f : Frame) (s : State) : Host.Outcome State Fault Refusal := .next (answer (.text (frameText f)) s)

/-- `pushBack(q, f)` (R88). -/
def execQueuePushBack (uid : Word) (f : Frame) (s : State) : Host.Outcome State Fault Refusal :=
  onNode uid (fun n => actOf (pushBack f n)) s

/-- The result of `popFront` (R89). -/
def popResult : Option Frame → Result
  | some f => .frame f
  | none => .empty

/-- `popFront(q)` (R89). -/
def execQueuePopFront (uid : Word) (s : State) : Host.Outcome State Fault Refusal :=
  match nodeAt s uid.toNat with
  | none => .next (answerCode .noSuchNode s)
  | some n => .next (answer (popResult (popFront n).1) (setNode s uid.toNat (popFront n).2))

/-- `pushFront(q, f)` (R90). -/
def execQueuePushFront (uid : Word) (f : Frame) (s : State) : Host.Outcome State Fault Refusal :=
  onNode uid (fun n => actOf (pushFront f n)) s

end Sys2Proof.Machine
end

