-- ==== Sys2Proof/Machine/Protocol.lean ====
section
/-! DEFINITION. The protocol state machine (spec/43_protocol_fsm.md): each state's pseudocode, cut at its blocking points, and the
meanings of the eight state rows. A function of the form `afterX` runs a node from a blocking point on, to the next one. -/

namespace Sys2Proof.Machine

/-! ### EOF (R115) -/

/-- A Transmitter's EOF bit. -/
def eofWrite (k : Nat) (a : Act) : Act := writeThenRead .recessive (.eofTxW k) (.eofTxR k) a

/-- The first line of EOF. -/
def enterEof (a : Act) : Act :=
  match a.node.role with
  | .transmitter => eofWrite 0 a
  | .receiver => blockAt (.eofRxR 0) a

/-! ### Sending bits: Arbitration as Transmitter (R109) and `sendVerify` (R112) -/

/-- Send frame bit `i`; an index outside the frame is the programmer error of R86 (log 18). -/
def txSend (f : Field) (i : Nat) (a : Act) : Act :=
  match a.node.cur.bind fun c => frameBit? c i with
  | none => failWith .bitIndexOutOfRange a
  | some sent => writeThenRead sent (.txW f i sent) (.txR f i sent) a

/-- `maybeReadStuff()` before frame bit `i` (R97). -/
def txCheck (f : Field) (i : Nat) (a : Act) : Act :=
  if stuffDue a.node.readTrk then blockAt (.txSR f i) a else txSend f i a

/-- One iteration for frame bit `i`: `maybeWriteStuff()` first; a stuff bit redoes the same `i`, and then none is due, since its
run is 1 long (R96, R109, R112). -/
def txIter (f : Field) (i : Nat) (a : Act) : Act :=
  if stuffDue a.node.writeTrk then
    writeBit a.node.writeTrk.last.flip (.txSW f i a.node.writeTrk.last.flip) (txCheck f i) a
  else txCheck f i a

/-! ### Data (R114) -/

/-- A Receiver's stuff check before bit `k` of byte `j`. -/
def dataCheck (j k : Nat) (acc : Byte) (a : Act) : Act :=
  if stuffDue a.node.readTrk then blockAt (.dataRxSR j k acc) a else blockAt (.dataRxR j k acc) a

/-- The loop test over the bytes. -/
def dataByte (j : Nat) (a : Act) : Act :=
  if j < a.node.rxDlc.toNat then dataCheck j 0 0 a else enterEof a

/-- The end of the Transmitter's data: `15 + 8 * cur.dlc`. -/
def dataEnd (n : Node) : Nat :=
  match n.cur with
  | none => 15
  | some f => 15 + 8 * (frameDlc f).toNat

/-- The loop test of the Transmitter's data. -/
def dataTx (i : Nat) (a : Act) : Act := if i < dataEnd a.node then txIter .data i a else enterEof a

/-- The first line of Data. -/
def enterData (a : Act) : Act :=
  match a.node.role with
  | .transmitter => dataTx 15 a
  | .receiver => dataByte 0 a

/-! ### DLC (R113) -/

/-- A Receiver's stuff check before DLC bit `k`. -/
def dlcCheck (k : Nat) (a : Act) : Act :=
  if stuffDue a.node.readTrk then blockAt (.dlcRxSR k) a else blockAt (.dlcRxR k) a

/-- The loop test of the Receiver's DLC. -/
def dlcRx (k : Nat) (a : Act) : Act := if k < Config.dlcBits then dlcCheck k a else enterData a

/-- The loop test of the Transmitter's DLC. -/
def dlcTx (i : Nat) (a : Act) : Act := if i < Config.idBits + Config.dlcBits then txIter .dlc i a else enterData a

/-- The first line of DLC. -/
def enterDlc (a : Act) : Act :=
  match a.node.role with
  | .transmitter => dlcTx 11 a
  | .receiver => dlcRx 0 a

/-! ### Arbitration (R108 to R111) -/

/-- A Receiver's stuff check before identifier bit `i` (R111). -/
def arbCheck (i : Nat) (a : Act) : Act :=
  if stuffDue a.node.readTrk then blockAt (.arbRxSR i) a else blockAt (.arbRxR i) a

/-- The loop test of Arbitration, and the choice by role (R108). -/
def arbIter (i : Nat) (a : Act) : Act :=
  if i < Config.idBits then
    match a.node.role with
    | .transmitter => txIter .identifier i a
    | .receiver => arbCheck i a
  else enterDlc a

/-- The first line of Arbitration. -/
def enterArbitration (a : Act) : Act := arbIter 0 a

/-- `rxId <- ((rxId << 1) | r)[10:0]` (R109, R111). -/
def shiftId (r : Bit) (n : Node) : Node := { n with rxId := (n.rxId ++ BitVec.ofBool r.toBool).setWidth 11 }

/-- `rxDlc <- ((rxDlc << 1) | b)[3:0]` (R113). -/
def shiftDlc (b : Bit) (n : Node) : Node := { n with rxDlc := (n.rxDlc ++ BitVec.ofBool b.toBool).setWidth 4 }

/-- `((acc << 1) | b)[7:0]` (R114). -/
def shiftByte (acc : Byte) (b : Bit) : Byte := (acc ++ BitVec.ofBool b.toBool).setWidth 8

/-- `arbitrationLost(i)` (R110): a role flip, and the frame goes back to the queue. -/
def arbitrationLost (n : Node) : Node := pushback { n with role := .receiver }

/-! ### Between frames (R105 to R107) -/

/-- BusIdle (R107): a queued frame is taken and its SOF written, or the bus is read. -/
def enterBusIdle (a : Act) : Act :=
  match popFront a.node with
  | (some f, n) =>
    writeThenRead .dominant .idleSofW .idleSofR { a with node := rxInit { n with cur := some f, role := .transmitter } }
  | (none, _) => blockAt .idleR a

/-- A node that reads another node's SOF becomes its Receiver (R106, R107). -/
def receive (a : Act) : Act := enterArbitration (onRegs (fun n => rxInit { n with role := .receiver }) a)

/-- A bit of SuspendTransmission (R106). -/
def suspendBit (k : Nat) (a : Act) : Act := writeThenRead .recessive (.susW k) (.susR k) a

/-- A bit of Intermission (R105). -/
def intermissionBit (k : Nat) (a : Act) : Act := writeThenRead .recessive (.intW k) (.intR k) a

/-- What Intermission resets on entry (R105, R100). -/
def resetFrame (n : Node) : Node := { n with readTrk := Tracker.reset, writeTrk := Tracker.reset, cur := none }

/-- The first line of Intermission. -/
def enterIntermission (a : Act) : Act := intermissionBit 0 (onRegs resetFrame a)

/-- The end of Intermission: an ErrorPassive node that was the Transmitter suspends (R105). -/
def endIntermission (a : Act) : Act :=
  if a.node.st = .errorPassive ∧ a.node.prevRole = .transmitter then suspendBit 0 a else enterBusIdle a

/-! ### From a blocking point on -/

/-- After a read in Intermission. -/
def afterIntermission (k : Nat) (b : Bit) (a : Act) : Act :=
  match b with
  | .dominant => intermissionBit 0 a
  | .recessive => if k + 1 < Config.intermissionBits then intermissionBit (k + 1) a else endIntermission a

/-- After a read in SuspendTransmission. -/
def afterSuspend (k : Nat) (b : Bit) (a : Act) : Act :=
  match b with
  | .dominant => receive a
  | .recessive => if k + 1 < Config.suspendBits then suspendBit (k + 1) a else enterBusIdle a

/-- After a read of an idle bus. -/
def afterIdle (b : Bit) (a : Act) : Act :=
  match b with
  | .dominant => receive a
  | .recessive => enterBusIdle a

/-- After a Transmitter's stuff read: `prev` is the polarity before it (R97, R118). -/
def afterTxStuff (f : Field) (i : Nat) (prev b : Bit) (a : Act) : Act :=
  if b = prev then detect .stuff a else txSend f i a

/-- After the read-back of a frame bit (R109, R110, R112). -/
def afterTxBit (f : Field) (i : Nat) (sent b : Bit) (a : Act) : Act :=
  match f with
  | .identifier =>
    if b = sent then arbIter (i + 1) (onRegs (shiftId b) a)
    else arbIter (i + 1) (onRegs (fun n => arbitrationLost (shiftId b n)) a)
  | .dlc => if b = sent then dlcTx (i + 1) a else detect .bit a
  | .data => if b = sent then dataTx (i + 1) a else detect .bit a

/-- After a Receiver's stuff read: `next` is the read it guards (R97, R118). -/
def afterRxStuff (next : Point) (prev b : Bit) (a : Act) : Act :=
  if b = prev then detect .stuff a else blockAt next a

/-- After a Receiver's identifier bit (R111). -/
def afterIdBit (i : Nat) (b : Bit) (a : Act) : Act := arbIter (i + 1) (onRegs (shiftId b) a)

/-- After a Receiver's DLC bit (R113). -/
def afterDlcBit (k : Nat) (b : Bit) (a : Act) : Act := dlcRx (k + 1) (onRegs (shiftDlc b) a)

/-- After a Receiver's data bit (R114). -/
def afterDataBit (j k : Nat) (acc : Byte) (b : Bit) (a : Act) : Act :=
  if k + 1 < 8 then dataCheck j (k + 1) (shiftByte acc b) a
  else dataByte (j + 1) (onRegs (fun n => { n with rxData := n.rxData ++ [shiftByte acc b] }) a)

/-- The end of a frame, for either role: `prevRole <- role`, then Intermission (R115). -/
def endFrame (a : Act) : Act := enterIntermission (onRegs (fun n => { n with prevRole := n.role }) a)

/-- `emit TxDone(uid, cur); cur <- none` (R115). -/
def deliver (a : Act) : Act :=
  match a.node.cur with
  | none => a
  | some f => onRegs (fun n => { n with cur := none }) (emit (.txDone f) a)

/-- After a Transmitter's EOF bit: a bit error, the next bit, or success with rule 7 (R115). -/
def afterEofTx (k : Nat) (b : Bit) (a : Act) : Act :=
  match b with
  | .dominant => detect .bit a
  | .recessive => if k + 1 < Config.eofBits then eofWrite (k + 1) a else endFrame (rule7 (deliver a))

/-- After a Receiver's EOF bit: a form error, the next bit, or success with rule 8 (R115). -/
def afterEofRx (cfg : Config.Params) (k : Nat) (b : Bit) (a : Act) : Act :=
  match b with
  | .dominant => detect .form a
  | .recessive =>
    if k + 1 < Config.eofBits then blockAt (.eofRxR (k + 1)) a
    else endFrame (rule8 cfg (emit (.rxFrame a.node.rxId a.node.rxDlc a.node.rxData) a))

/-- The next bit of an active flag, or the delimiter (R121). -/
def nextActive (k : Nat) (a : Act) : Act := if k + 1 < Config.flagBits then activeFlag (k + 1) a else delimiterWait a

/-- After a read in an active flag: rules 4 and 5 on a Recessive read; the flag goes on (R121, R131). -/
def afterActive (cfg : Config.Params) (k : Nat) (b : Bit) (a : Act) : Act :=
  match b with
  | .dominant => nextActive k a
  | .recessive => andThen (rule45 cfg a) (nextActive k)

/-- After a read in a passive flag: rule 2 on the first bit of a Receiver's flag; a Dominant restarts the count (R121, R130). -/
def afterPassive (cfg : Config.Params) (k : Nat) (first : Bool) (b : Bit) (a : Act) : Act :=
  match b with
  | .dominant =>
    if first = true ∧ a.node.role = .receiver then andThen (rule2 cfg a) (passiveFlag 0 false) else passiveFlag 0 false a
  | .recessive => if k + 1 < Config.flagBits then passiveFlag (k + 1) false a else delimiterWait a

/-- After a read of the delimiter's wait (R122). -/
def afterWait (b : Bit) (a : Act) : Act :=
  match b with
  | .dominant => delimiterWait a
  | .recessive => delimiterBit 0 a

/-- After a trailing bit of the delimiter; the values read are not checked (R122). -/
def afterDelimiter (cfg : Config.Params) (k : Nat) (a : Act) : Act :=
  if k + 1 < Config.delimBits then delimiterBit (k + 1) a else leaveError cfg enterIntermission a

/-- Run on from a read point: `b` is the bit read and `prev` the polarity of the read tracker before it (R76, R95). -/
def fromRead (cfg : Config.Params) (p : Point) (prev b : Bit) (a : Act) : Act :=
  match p with
  | .intR k => afterIntermission k b a
  | .susR k => afterSuspend k b a
  | .idleR => afterIdle b a
  | .idleSofR => enterArbitration a
  | .txSR f i => afterTxStuff f i prev b a
  | .txR f i sent => afterTxBit f i sent b a
  | .arbRxSR i => afterRxStuff (.arbRxR i) prev b a
  | .arbRxR i => afterIdBit i b a
  | .dlcRxSR k => afterRxStuff (.dlcRxR k) prev b a
  | .dlcRxR k => afterDlcBit k b a
  | .dataRxSR j k acc => afterRxStuff (.dataRxR j k acc) prev b a
  | .dataRxR j k acc => afterDataBit j k acc b a
  | .eofTxR k => afterEofTx k b a
  | .eofRxR k => afterEofRx cfg k b a
  | .errAfR k => afterActive cfg k b a
  | .errPfR k first => afterPassive cfg k first b a
  | .errD1R => afterWait b a
  | .errD2R k => afterDelimiter cfg k a
  -- a node blocked on a write completes no read
  | .intW _ | .susW _ | .idleSofW | .txSW _ _ _ | .txW _ _ _ | .eofTxW _ | .errAfW _ | .errPfW _ _ | .errD1W | .errD2W _ => a

/-- Run on from a write point: nearly always to the read that follows (R76). -/
def fromWrite (p : Point) (a : Act) : Act :=
  match p with
  | .intW k => blockAt (.intR k) a
  | .susW k => blockAt (.susR k) a
  | .idleSofW => blockAt .idleSofR a
  | .txSW f i _ => txIter f i a
  | .txW f i sent => blockAt (.txR f i sent) a
  | .eofTxW k => blockAt (.eofTxR k) a
  | .errAfW k => blockAt (.errAfR k) a
  | .errPfW k first => blockAt (.errPfR k first) a
  | .errD1W => blockAt .errD1R a
  | .errD2W k => blockAt (.errD2R k) a
  -- a node blocked on a read completes no write
  | .intR _ | .susR _ | .idleR | .idleSofR | .txSR _ _ | .txR _ _ _ | .arbRxSR _ | .arbRxR _ | .dlcRxSR _ | .dlcRxR _
  | .dataRxSR _ _ _ | .dataRxR _ _ _ | .eofTxR _ | .eofRxR _ | .errAfR _ | .errPfR _ _ | .errD1R | .errD2R _ => a

/-- A node's step when its `busRead` returns `b`: the tracker update of `readBit`, then its pseudocode to the next block. -/
def readStep (cfg : Config.Params) (n : Node) (b : Bit) : Act :=
  match n.pos with
  | none => actOf n
  | some p => fromRead cfg p n.readTrk.last b (actOf (trackRead b n))

/-- A node's step when its `busWrite` completes. -/
def writeStep (n : Node) : Act :=
  match n.pos with
  | none => actOf n
  | some p => fromWrite p (actOf n)

/-- The first line of a state. -/
def enterPs : Ps → Act → Act
  | .intermission => enterIntermission
  | .suspendTransmission => suspendBit 0
  | .busIdle => enterBusIdle
  | .arbitration => enterArbitration
  | .dlc => enterDlc
  | .data => enterData
  | .eof => enterEof
  | .error => enterError

/-! ### The state rows -/

/-- A node whose bus call completes now, at its blocking point: a write drives the bus unless the node is BusOff, a read takes the
bus value; then the node runs to its next block (R73, R74, R76). -/
def resumeNode (uid : Nat) (n : Node) (op : BusOp) (s : State) : State :=
  match op with
  | .write b => if s.active then commit uid (writeStep n) (writeBy n.st b s) else raiseFault .ioOnInactiveBus s
  | .read => if s.active then commit uid (readStep s.cfg n s.busState) s else raiseFault .ioOnInactiveBus s

/-- The bus call a step ends at, on an inactive bus: the fault of R73 and R74, unless a fault stopped the node before it. -/
def busCall (active : Bool) (a : Act) : Act :=
  if active then a else andThen a (failWith .ioOnInactiveBus)

/-- A node that starts a state at its first line and runs to its first bus call; on an inactive bus that call faults (R73, R74). -/
def startState (ps : Ps) (uid : Nat) (n : Node) (s : State) : State := commit uid (busCall s.active (enterPs ps (actOf n))) s

/-- A step of a node in the state `ps` (log 4): a node blocked in that state completes its bus call and runs on; any other node
goes to the state's first line. -/
def stateStep (ps : Ps) (uid : Word) (s : State) : Host.Outcome State Fault Refusal :=
  match nodeAt s uid.toNat with
  | none => .next (answerCode .noSuchNode s)
  | some n =>
    match n.pos with
    | none => .next (startState ps uid.toNat n s)
    | some p =>
      if pointPs p = ps then .next (resumeNode uid.toNat n (pointOp p) s) else .next (startState ps uid.toNat n s)

/-- Intermission (R105). -/
def execFsmIntermission (uid : Word) (s : State) : Host.Outcome State Fault Refusal := stateStep .intermission uid s

/-- SuspendTransmission (R106). -/
def execFsmSuspendTransmission (uid : Word) (s : State) : Host.Outcome State Fault Refusal :=
  stateStep .suspendTransmission uid s

/-- BusIdle (R107). -/
def execFsmBusIdle (uid : Word) (s : State) : Host.Outcome State Fault Refusal := stateStep .busIdle uid s

/-- Arbitration (R108 to R111). -/
def execFsmArbitration (uid : Word) (s : State) : Host.Outcome State Fault Refusal := stateStep .arbitration uid s

/-- DLC (R113). -/
def execFsmDlc (uid : Word) (s : State) : Host.Outcome State Fault Refusal := stateStep .dlc uid s

/-- Data (R114). -/
def execFsmData (uid : Word) (s : State) : Host.Outcome State Fault Refusal := stateStep .data uid s

/-- EOF (R115). -/
def execFsmEof (uid : Word) (s : State) : Host.Outcome State Fault Refusal := stateStep .eof uid s

/-- Error (R121, R122). -/
def execFsmError (uid : Word) (s : State) : Host.Outcome State Fault Refusal := stateStep .error uid s

end Sys2Proof.Machine
end

