-- ==== Sys2Proof/Machine/Bus.lean ====
section
/-! DEFINITION. The bus (spec/40_bus.md): `attach`, `busWrite`, `busRead` and the bit-period loop, with raw participants (R81),
missed phases (R80, log 12) and the free BusOff registers (R125, log 13). -/

namespace Sys2Proof.Machine

/-! ### attach (R72) -/

/-- The participant an attach creates, with the uid it gets (R145, R146, R172). -/
def newParticipant (uid : Nat) : Attached → Participant
  | .node id => .node (Node.reset uid id.toNat)
  | .raw script => .raw (Raw.reset uid script)

/-- A successful `attach(p)`: the next dense uid, and it is returned (R72, R16). DESIGN CHOICE (log 34): there is no bound on the
number of participants (D3), so an ATTACH or ATTACH_RAW sent as words, whose UID field R66 says limits N to 256, attaches a 257th too. -/
def attachTo (p : Attached) (s : State) : State :=
  answer (.uid s.participants.length)
    { s with participants := s.participants ++ [newParticipant s.participants.length p] }

/-- `attach(p)` (R72). -/
def execBusAttach (p : Attached) (s : State) : Host.Outcome State Fault Refusal :=
  if s.active then .next (answerCode .busAlreadyActive s) else .next (attachTo p s)

/-! ### busWrite and busRead (R73, R74) -/

/-- `busWrite(b)` by the participant a uid names, as it completes (R73, log 3). -/
def execBusWrite (uid : Word) (b : Bit) (s : State) : Host.Outcome State Fault Refusal :=
  match s.participants[uid.toNat]? with
  | none => .next (answerCode .noSuchNode s)
  | some (.node n) => .next (writeBy n.st b s)
  | some (.raw _) => .next (driveBus b s)

/-- `busRead()` by the participant a uid names, as it completes (R74, log 3). -/
def execBusRead (uid : Word) (s : State) : Host.Outcome State Fault Refusal :=
  match s.participants[uid.toNat]? with
  | none => .next (answerCode .noSuchNode s)
  | some _ => if s.active then .next (answer (.bit s.busState) s) else .next (raiseFault .ioOnInactiveBus s)

/-! ### The turns of a phase (R75) -/

/-- A participant after its turn in a phase, with the bus word and what it gave the rest of the block. -/
structure Turn where
  part : Participant
  bus : Bit
  effects : List Effect
  fault : Option FaultReason

/-- A participant that takes no part in the phase. -/
def idleTurn (p : Participant) (bus : Bit) : Turn := { part := p, bus := bus, effects := [], fault := none }

/-- The turn of a node whose step is `a`. -/
def nodeTurn (a : Act) (bus : Bit) : Turn := { part := .node a.node, bus := bus, effects := a.effects, fault := a.fault }

/-- Whether a participant misses its phase (R80): never, unless missed phases are allowed. -/
def missed (cfg : Config.Params) (period : Nat) (readPhase : Bool) (uid : Nat) : Bool :=
  cfg.missedPhases && Config.miss period uid readPhase

/-- A node whose registers are free: BusOff, under `havoc` (R125). -/
def isFree (cfg : Config.Params) (n : Node) : Bool := cfg.busOffHavoc && n.st == .busOff

/-- The bus word after a write of `b` by a node: a BusOff node drives nothing (R73). -/
def driven (st : FcState) (b bus : Bit) : Bit :=
  match st with
  | .busOff => bus
  | .errorActive => bus.and b
  | .errorPassive => bus.and b

/-- The next script entry (R81). -/
def advanceRaw (r : Raw) : Raw := { r with index := if r.index < r.script.length then r.index + 1 else r.index }

/-- A free event as an effect; `rxData` holds 15 bytes at most (R30). -/
def freeEffect : Config.FreeEvent → Effect
  | .rxFrame id dlc data => .event (.rxFrame id dlc (data.take 15))
  | .txDone f => .event (.txDone f)

/-- A free node's turn in the write phase: it writes nothing, and emits any events R125 allows (log 13). -/
def freeWriteTurn (period : Nat) (n : Node) (bus : Bit) : Turn :=
  nodeTurn { actOf n with effects := (Config.havoc period n.uid).inWrite.map freeEffect } bus

/-- A node's turn in the write phase: if it is blocked on `W(b)`, the write completes and the node runs on (R75, R76). -/
def nodeWriteTurn (cfg : Config.Params) (period : Nat) (n : Node) (bus : Bit) : Turn :=
  if missed cfg period false n.uid then idleTurn (.node n) bus
  else if isFree cfg n then freeWriteTurn period n bus
  else
    match nodeOp n with
    | some (.write b) => nodeTurn (writeStep n) (driven n.st b bus)
    | some .read => idleTurn (.node n) bus
    | none => idleTurn (.node n) bus

/-- A raw participant's turn in the write phase (R81). -/
def rawWriteTurn (cfg : Config.Params) (period : Nat) (r : Raw) (bus : Bit) : Turn :=
  if missed cfg period false r.uid then idleTurn (.raw r) bus
  else
    match rawOp r with
    | .write b => idleTurn (.raw (advanceRaw r)) (bus.and b)
    | .read => idleTurn (.raw r) bus

/-- A participant's turn in the write phase (R75, step 2). -/
def writeTurn (cfg : Config.Params) (period : Nat) : Participant → Bit → Turn
  | .node n, bus => nodeWriteTurn cfg period n bus
  | .raw r, bus => rawWriteTurn cfg period r bus

/-- A free position: a BusOff node is blocked on a read (R125). -/
def freePos (p : Point) : Point :=
  match pointOp p with
  | .read => p
  | .write _ => .idleR

/-- A BusOff node after a period under `havoc`: free registers, but `uid`, `id`, `st` and the host's handles (R125).
DESIGN CHOICE (log 13): `rxData` is cut to the 15 bytes of R30, but `tec`, `recCtr` and `queue` are not bounded by a finite `CNT_W` or
`QUEUE_CAP`, and no free value raises `CounterOverflow`; the spec gives no rule for the combination. -/
def freeNode (v : Config.Havoc) (n : Node) : Node :=
  { n with
    tec := v.tec
    recCtr := v.recCtr
    queue := v.queue
    readTrk := v.readTrk
    writeTrk := v.writeTrk
    cur := v.cur
    role := v.role
    prevRole := v.prevRole
    errorUpdate := v.errorUpdate
    rxId := v.rxId
    rxDlc := v.rxDlc
    rxData := v.rxData.take 15
    pos := n.pos.map fun _ => freePos v.pos }

/-- The end of a node's step in the read phase: under `havoc` the registers of a node that is BusOff now, from before or by this very
step, become free, and it emits any further events R125 allows (log 13). -/
def freed (cfg : Config.Params) (period : Nat) (a : Act) : Act :=
  if isFree cfg a.node then
    { a with
      node := freeNode (Config.havoc period a.node.uid) a.node
      effects := a.effects ++ (Config.havoc period a.node.uid).inRead.map freeEffect }
  else a

/-- A node's step in the read phase by the pseudocode: a node blocked on `R` runs on with the bus word; a free node has none. -/
def ruledRead (cfg : Config.Params) (n : Node) (op : BusOp) (bus : Bit) : Act :=
  if isFree cfg n then actOf n
  else
    match op with
    | .read => readStep cfg n bus
    | .write _ => actOf n

/-- A node's turn in the read phase: if it is blocked on `R`, the read returns the bus word and the node runs on (R75, R76). -/
def nodeReadTurn (cfg : Config.Params) (period : Nat) (n : Node) (bus : Bit) : Turn :=
  if missed cfg period true n.uid then idleTurn (.node n) bus
  else
    match nodeOp n with
    | some op => nodeTurn (freed cfg period (ruledRead cfg n op bus)) bus
    | none => idleTurn (.node n) bus

/-- A raw participant's turn in the read phase: the value is recorded (R81). -/
def rawReadTurn (cfg : Config.Params) (period : Nat) (r : Raw) (bus : Bit) : Turn :=
  if missed cfg period true r.uid then idleTurn (.raw r) bus
  else
    match rawOp r with
    | .read => idleTurn (.raw (advanceRaw { r with reads := r.reads ++ [bus] })) bus
    | .write _ => idleTurn (.raw r) bus

/-- A participant's turn in the read phase (R75, step 3). -/
def readTurn (cfg : Config.Params) (period : Nat) : Participant → Bit → Turn
  | .node n, bus => nodeReadTurn cfg period n bus
  | .raw r, bus => rawReadTurn cfg period r bus

/-- A participant's turn at activation: a node starts at the first line of BusIdle and runs until it blocks; a raw participant
is blocked on its first script entry (R151). -/
def startTurn : Participant → Bit → Turn
  | .node n, bus => nodeTurn (enterBusIdle (actOf n)) bus
  | .raw r, bus => idleTurn (.raw r) bus

/-! ### The loop over the participants -/

/-- The participants after a phase, the bus word, what they gave the rest of the block (with the uid of the giver), and the last
fault raised, in uid order (log 32). -/
structure Round where
  parts : List Participant
  bus : Bit
  effects : List (Nat × Effect)
  fault : Option FaultReason

/-- The later fault of two: a fault overwrites the register (R160). DESIGN CHOICE (log 32): of two faults of one phase, whose order
R49 leaves open, the higher uid's is the later. -/
def laterFault (first second : Option FaultReason) : Option FaultReason :=
  match second with
  | some r => some r
  | none => first

/-- A turn of each participant, in uid order. R75 and R49 leave the order free, and it cannot be seen in the registers of the
participants or on the bus; decision D41 orders the events by uid. DESIGN CHOICE (log 31): the callbacks of nodes that enter BusOff in
one phase are invoked in uid order too, which orders the commands they issue (R155). DESIGN CHOICE (log 32): of two faults of one
phase the register keeps the higher uid's. -/
def allTurns (turn : Participant → Bit → Turn) : List Participant → Bit → Round
  | [], bus => { parts := [], bus := bus, effects := [], fault := none }
  | p :: rest, bus =>
    let t := turn p bus
    let r := allTurns turn rest t.bus
    { parts := t.part :: r.parts
      bus := r.bus
      effects := t.effects.map (fun e => (participantUid p, e)) ++ r.effects
      fault := laterFault t.fault r.fault }

/-- The state after a round. -/
def applyRound (turn : Participant → Bit → Turn) (s : State) : State :=
  let r := allTurns turn s.participants s.busState
  raiseAny r.fault (absorb r.effects { s with participants := r.parts, busState := r.bus })

/-! ### The bit period (R75) -/

/-- The bit a participant writes in this period, if its write completes (R79). -/
def writtenBit (cfg : Config.Params) (period : Nat) : Participant → Option Bit
  | .node n =>
    if missed cfg period false n.uid || isFree cfg n || n.st == .busOff then none
    else
      match nodeOp n with
      | some (.write b) => some b
      | some .read => none
      | none => none
  | .raw r =>
    if missed cfg period false r.uid then none
    else
      match rawOp r with
      | .write b => some b
      | .read => none

/-- Whether a participant's read completes in this period. -/
def readsNow (cfg : Config.Params) (period : Nat) : Participant → Bool
  | .node n =>
    if missed cfg period true n.uid then false
    else
      match nodeOp n with
      | some .read => true
      | some (.write _) => isFree cfg n
      | none => false
  | .raw r => if missed cfg period true r.uid then false else rawOp r == .read

/-- The write phase: the bus word is set to Recessive, then every participant blocked on `W(b)` completes (R75, steps 1, 2). -/
def writePhase (s : State) : State :=
  applyRound (writeTurn s.cfg s.period) { s with phase := .write, busState := .recessive }

/-- The read phase: every participant blocked on `R` reads the bus word (R75, step 3). -/
def readPhase (s : State) : State := applyRound (readTurn s.cfg s.period) { s with phase := .read }

/-- The trace line of a period: what was written before the write phase's state `s`, who read in the state `t` after it. -/
def traceLine (s t : State) : TraceLine :=
  { period := s.period
    written := s.participants.map (writtenBit s.cfg s.period)
    read := t.participants.map (readsNow t.cfg t.period)
    bus := t.busState }

/-- The end of the previous period's boundary: its batch of commands is used up, and the period count is advanced
(R75, step 4; log 10). -/
def nextPeriod (s : State) : State :=
  match s.phase with
  | .boundary => { closeBoundary s with period := s.period + 1 }
  | .stopped => closeBoundary s
  | .write => closeBoundary s
  | .read => closeBoundary s

/-- The boundary of a period: the phase, and the period's line of the trace. -/
def endPeriod (line : TraceLine) (s : State) : State := { s with phase := .boundary, trace := s.trace ++ [line] }

/-- The write phase, the read phase, and the boundary of a period (R75). -/
def runPeriod (s : State) : State := endPeriod (traceLine s (writePhase s)) (readPhase (writePhase s))

/-- The loop runs no period: it was halted, or a fault is set (R75). -/
def loopStops (s : State) : Bool := s.halted || s.fault.isSome

/-- One iteration of the bit-period loop (R75). Before activation there are no periods (R141): only the host's batch of commands is
passed (log 22). -/
def execBusPeriod (s : State) : Host.Outcome State Fault Refusal :=
  if s.active then
    if loopStops s then .next { nextPeriod s with phase := .stopped } else .next (runPeriod (nextPeriod s))
  else .next (closeBoundary s)

end Sys2Proof.Machine
end

