-- ==== Sys2Proof/Machine/HostCommands.lean ====
section
/-! DEFINITION. The meanings of the host commands (spec/45_host_interface.md). The checks run in the order of R142; a reserved
header never reaches a command here, but for the reserved opcodes, which are rows of their own. -/

namespace Sys2Proof.Machine

/-- ATTACH and ATTACH_RAW (R145, R146): after activation the host sees `NodeAttachError` (C2). -/
def attachCommand (p : Attached) (s : State) : Host.Outcome State Fault Refusal :=
  if s.active then .next (answerCode .nodeAttachError s) else .next (attachTo p s)

/-- `ATTACH id` (R145). The identifier is not checked (D28). -/
def execAttach (id : BitVec 16) (s : State) : Host.Outcome State Fault Refusal := attachCommand (.node (id.setWidth 32)) s

/-- `ATTACH_RAW script` (R146). -/
def execAttachRaw (script : List RawOp) (s : State) : Host.Outcome State Fault Refusal := attachCommand (.raw script) s

/-- A command that changes registers of a node and answers `Ok`; `NoSuchNode` if the uid names none (R142). -/
def nodeCommand (uid : BitVec 8) (f : Node → Node) (s : State) : Host.Outcome State Fault Refusal :=
  match nodeAt s uid.toNat with
  | none => .next (answerCode .noSuchNode s)
  | some n => .next (answerCode .ok (setNode s uid.toNat (f n)))

/-- `SET_BEHAVIOR uid, h` (R147). -/
def execSetBehavior (uid : BitVec 8) (handle : BitVec 16) (s : State) : Host.Outcome State Fault Refusal :=
  nodeCommand uid (fun n => { n with behavior := handleOf handle }) s

/-- `SET_BUSOFF_FUNC uid, h` (R148). -/
def execSetBusOffFunc (uid : BitVec 8) (handle : BitVec 16) (s : State) : Host.Outcome State Fault Refusal :=
  nodeCommand uid (fun n => { n with busOffFunc := handleOf handle }) s

/-- The queue is full: never without a finite QUEUE_CAP (D38). -/
def queueFull (cfg : Config.Params) (n : Node) : Bool :=
  match cfg.queueCap with
  | none => false
  | some c => decide (c ≤ n.queue.length)

/-- `ENQUEUE uid, data` (R149); a full queue is refused (D38, I13, log 15). -/
def execEnqueue (uid : BitVec 8) (data : List Byte) (s : State) : Host.Outcome State Fault Refusal :=
  match nodeAt s uid.toNat with
  | none => .next (answerCode .noSuchNode s)
  | some n =>
    match frameNew n.id data with
    | .invalidId => .next (answerCode .invalidId s)
    | .payloadTooLarge => .next (answerCode .payloadTooLarge s)
    | .frame f =>
      if queueFull s.cfg n then .refused .queueFull
      else .next (answerCode .ok (setNode s uid.toNat (pushBack f n)))

/-- A node's step under SEED: both counters, then one `updateState()` (R150). -/
def seedStep (t r : Nat) (n : Node) : Act := updateState (actOf { n with tec := t, recCtr := r })

/-- `SEED uid, tec, rec` (R150). A value the configured counter width does not hold is the overflow fault (log 14). -/
def execSeed (uid : BitVec 8) (t r : Word) (s : State) : Host.Outcome State Fault Refusal :=
  match nodeAt s uid.toNat with
  | none => .next (answerCode .noSuchNode s)
  | some n =>
    if s.active then .next (answerCode .busAlreadyActive s)
    else if counterFits s.cfg t.toNat && counterFits s.cfg r.toNat then
      .next (answerCode .ok (commit uid.toNat (seedStep t.toNat r.toNat n) s))
    else .next (raiseFault .counterOverflow s)

/-- `ACTIVATE` (R151): the bus is active, and every participant starts, in uid order. It returns nothing while the bus runs. The
behaviour closures are the host's side (R147). -/
def execActivate (s : State) : Host.Outcome State Fault Refusal :=
  if s.active then .next (answerCode .busAlreadyActive s) else .next (applyRound startTurn { s with active := true })

/-- `STATUS uid` (R152). The record of R69 has no word for the bus's registers, `period` among them (R37, R167): log 30. -/
def execStatus (uid : BitVec 8) (s : State) : Host.Outcome State Fault Refusal :=
  match nodeAt s uid.toNat with
  | none => .next (answerCode .noSuchNode s)
  | some n => .next (answer (statusResult n) s)

/-- `HALT` (R153). -/
def execHalt (s : State) : Host.Outcome State Fault Refusal := .next (answerCode .ok { s with halted := true })

/-- Reserved opcode 0x0 (R154). -/
def execReserved0 (_low : BitVec 28) (s : State) : Host.Outcome State Fault Refusal := .next (answerCode .reservedCommand s)

/-- Reserved opcodes 0xA and 0xB (R154). -/
def execReservedAB (_low : BitVec 29) (s : State) : Host.Outcome State Fault Refusal := .next (answerCode .reservedCommand s)

/-- Reserved opcodes 0xC to 0xF (R154). -/
def execReservedCF (_low : BitVec 30) (s : State) : Host.Outcome State Fault Refusal := .next (answerCode .reservedCommand s)

end Sys2Proof.Machine
end

