-- ==== Sys2Proof/Machine/Stuffing.lean ====
section
/-! DEFINITION. Bit stuffing: the encoding of the stuffed region (spec/30_encoding.md R59) and the meanings of the four primitives
(spec/42_bit_stuffing.md), each taken as it completes (log 3). -/

namespace Sys2Proof.Machine

/-! ### The encoding of the stuffed region -/

/-- The loop of `stuffEncode`, with the last bit and the run so far; `none` before the first bit (R59). -/
def stuffLoop (last : Option Bit) (run : Nat) : List Bit → List Bit
  | [] => []
  | x :: rest =>
    match last with
    | none => x :: stuffLoop (some x) 1 rest
    | some l =>
      if run = Config.stuffRun then
        l.flip :: x :: stuffLoop (some x) (if x = l.flip then 2 else 1) rest
      else x :: stuffLoop (some x) (if x = l then run + 1 else 1) rest

/-- `stuffEncode(region)` (R59). -/
def stuffEncode (region : List Bit) : List Bit := stuffLoop none 0 region

/-- The stuffed region of a frame: SOF, then the frame bits (R59). -/
def stuffedRegion (f : Frame) : List Bit := .dominant :: frameBits f

/-! ### The primitives -/

/-- `writeBit(b)` by a node, as it completes: the tracker update, then the bus write (R94). -/
def writeNow (uid : Nat) (n : Node) (b : Bit) (s : State) : State := writeBy n.st b (setNode s uid (trackWrite b n))

/-- `readBit()` by a node, as it completes on an active bus: the tracker update (R95). -/
def readNow (uid : Nat) (n : Node) (s : State) : State := setNode s uid (trackRead s.busState n)

/-- `writeBit(b)` (R94). -/
def execStuffWriteBit (uid : Word) (b : Bit) (s : State) : Host.Outcome State Fault Refusal :=
  match nodeAt s uid.toNat with
  | none => .next (answerCode .noSuchNode s)
  | some n => .next (writeNow uid.toNat n b s)

/-- `readBit()` (R95). -/
def execStuffReadBit (uid : Word) (s : State) : Host.Outcome State Fault Refusal :=
  match nodeAt s uid.toNat with
  | none => .next (answerCode .noSuchNode s)
  | some n =>
    if s.active then .next (answer (.bit s.busState) (readNow uid.toNat n s)) else .next (raiseFault .ioOnInactiveBus s)

/-- A node's bus write goes through: the bus is active, or the node is BusOff and its write is a no-op (R73). -/
def writeGoes (st : FcState) (s : State) : Bool := s.active || st == .busOff

/-- `maybeWriteStuff()`: a stuff bit of the opposite polarity, if one is due (R96). A node whose write is a fault is stopped in it
(R160), so it returns nothing (log 3). -/
def execStuffMaybeWriteStuff (uid : Word) (s : State) : Host.Outcome State Fault Refusal :=
  match nodeAt s uid.toNat with
  | none => .next (answerCode .noSuchNode s)
  | some n =>
    if stuffDue n.writeTrk then
      if writeGoes n.st s then .next (answer (.truth true) (writeNow uid.toNat n n.writeTrk.last.flip s))
      else .next (writeNow uid.toNat n n.writeTrk.last.flip s)
    else .next (answer (.truth false) s)

/-- `maybeReadStuff()`: if a stuff bit is due it is read, and a bit of the previous polarity answers `false` (R97). -/
def execStuffMaybeReadStuff (uid : Word) (s : State) : Host.Outcome State Fault Refusal :=
  match nodeAt s uid.toNat with
  | none => .next (answerCode .noSuchNode s)
  | some n =>
    if stuffDue n.readTrk then
      if s.active then .next (answer (.truth (s.busState != n.readTrk.last)) (readNow uid.toNat n s))
      else .next (raiseFault .ioOnInactiveBus s)
    else .next (answer (.truth true) s)

end Sys2Proof.Machine
end

