-- ==== Sys2Proof/Machine/Dispatch.lean ====
section
/-! DEFINITION. `exec`: one arm per constructor of Instr, each a direct call of its meaning. -/

namespace Sys2Proof.Machine

/-- The meaning of an operation. -/
def exec (i : Instr) (s : State) : Host.Outcome State Fault Refusal :=
  match i with
  | .attach id => Sys2Proof.Machine.execAttach id s
  | .attachRaw script => Sys2Proof.Machine.execAttachRaw script s
  | .setBehavior uid handle => Sys2Proof.Machine.execSetBehavior uid handle s
  | .setBusOffFunc uid handle => Sys2Proof.Machine.execSetBusOffFunc uid handle s
  | .enqueue uid data => Sys2Proof.Machine.execEnqueue uid data s
  | .seed uid t r => Sys2Proof.Machine.execSeed uid t r s
  | .activate => Sys2Proof.Machine.execActivate s
  | .status uid => Sys2Proof.Machine.execStatus uid s
  | .halt => Sys2Proof.Machine.execHalt s
  | .reserved0 low => Sys2Proof.Machine.execReserved0 low s
  | .reservedAB low => Sys2Proof.Machine.execReservedAB low s
  | .reservedCF low => Sys2Proof.Machine.execReservedCF low s
  | .busAttach p => Sys2Proof.Machine.execBusAttach p s
  | .busWrite uid b => Sys2Proof.Machine.execBusWrite uid b s
  | .busRead uid => Sys2Proof.Machine.execBusRead uid s
  | .busPeriod => Sys2Proof.Machine.execBusPeriod s
  | .frameNew id data => Sys2Proof.Machine.execFrameNew id data s
  | .frameSize f => Sys2Proof.Machine.execFrameSize f s
  | .frameBit f k => Sys2Proof.Machine.execFrameBit f k s
  | .frameString f => Sys2Proof.Machine.execFrameString f s
  | .queuePushBack uid f => Sys2Proof.Machine.execQueuePushBack uid f s
  | .queuePopFront uid => Sys2Proof.Machine.execQueuePopFront uid s
  | .queuePushFront uid f => Sys2Proof.Machine.execQueuePushFront uid f s
  | .stuffWriteBit uid b => Sys2Proof.Machine.execStuffWriteBit uid b s
  | .stuffReadBit uid => Sys2Proof.Machine.execStuffReadBit uid s
  | .stuffMaybeWriteStuff uid => Sys2Proof.Machine.execStuffMaybeWriteStuff uid s
  | .stuffMaybeReadStuff uid => Sys2Proof.Machine.execStuffMaybeReadStuff uid s
  | .fsmIntermission uid => Sys2Proof.Machine.execFsmIntermission uid s
  | .fsmSuspendTransmission uid => Sys2Proof.Machine.execFsmSuspendTransmission uid s
  | .fsmBusIdle uid => Sys2Proof.Machine.execFsmBusIdle uid s
  | .fsmArbitration uid => Sys2Proof.Machine.execFsmArbitration uid s
  | .fsmDlc uid => Sys2Proof.Machine.execFsmDlc uid s
  | .fsmData uid => Sys2Proof.Machine.execFsmData uid s
  | .fsmEof uid => Sys2Proof.Machine.execFsmEof uid s
  | .fsmError uid => Sys2Proof.Machine.execFsmError uid s
  | .fcUpdateState uid => Sys2Proof.Machine.execFcUpdateState uid s
  | .fcRecPlus1 uid => Sys2Proof.Machine.execFcRecPlus1 uid s
  | .fcRule2 uid => Sys2Proof.Machine.execFcRule2 uid s
  | .fcTecPlus8 uid => Sys2Proof.Machine.execFcTecPlus8 uid s
  | .fcRule45 uid => Sys2Proof.Machine.execFcRule45 uid s
  | .fcRule7 uid => Sys2Proof.Machine.execFcRule7 uid s
  | .fcRule8 uid => Sys2Proof.Machine.execFcRule8 uid s
  | .fcRule9 uid => Sys2Proof.Machine.execFcRule9 uid s
  | .fcRule10 uid => Sys2Proof.Machine.execFcRule10 uid s
  | .fcRule11 uid => Sys2Proof.Machine.execFcRule11 uid s
  | .fcBusOff uid => Sys2Proof.Machine.execFcBusOff uid s

end Sys2Proof.Machine
end

