-- ==== Sys2Proof/Machine/Step.lean ====
section
/-! DEFINITION. One step of the block: the next packet, or, when none is left, a bit period
(spec/20_memory.md R51, spec/45_host_interface.md R141, R155). -/

namespace Sys2Proof.Machine

/-- Run a packet: the instruction it spells, or what becomes of a packet that spells none (R142, R154; log 8). -/
def runPacket (p : Packet) (s : State) : Host.Outcome State Fault Refusal :=
  match decode p with
  | .instr i => exec i s
  | .rejected e => rejectPacket e s

/-- One step. A stuck block has none (R160). -/
def step (s : State) : Host.Outcome State Fault Refusal :=
  match stuck? s with
  | some r => .fault (.blockStuck r)
  | none =>
    match fetch? s with
    | some (p, t) => runPacket p t
    | none => exec .busPeriod s

/-- The state with an instruction, given by its bits, as the next packet to run (log 6). -/
def State.withFetchWord (s : State) (nbits w : Nat) : State := { s with placed := tablePacket nbits w :: s.placed }

end Sys2Proof.Machine
end

