-- ==== Sys2Proof/Safety.lean ====
section
/-! DEFINITION. What the statements call a good state, in Bool so that a concrete state can be checked: the invariants that hold in
every run, the ones that hold in every run driven by host commands, and the words the statements use. -/

namespace Sys2Proof.Machine

/-! ### Invariants of every step -/

/-- The uids are dense: the k-th participant has uid k (R16). -/
def uidsDense (s : State) : Bool := s.participants.map participantUid == List.range s.participants.length

/-- R140: an ErrorActive node's counters are at most 127. -/
def countersOk (n : Node) : Bool := n.st != .errorActive || (decide (n.tec ≤ 127) && decide (n.recCtr ≤ 127))

/-- A property of every node. -/
def allNodes (f : Node → Bool) (s : State) : Bool :=
  s.participants.all fun p =>
    match p with
    | .node n => f n
    | .raw _ => true

/-- Between steps the loop is stopped or at a boundary (R75). -/
def phaseSettled (s : State) : Bool := s.phase == .stopped || s.phase == .boundary

/-- The trace has one line for each period run (R156): periods 0 to `period` at its boundary, periods before `period` otherwise. -/
def traceCounts (s : State) : Bool := s.trace.length == if s.phase = .boundary then s.period + 1 else s.period

/-- Before activation there are no periods (R141). -/
def noPeriodYet (s : State) : Bool := s.active || (s.phase == .stopped && s.period == 0)

/-- The invariant that every step keeps, whatever packet it runs. -/
def Inv (s : State) : Bool :=
  uidsDense s && allNodes countersOk s && phaseSettled s && traceCounts s && noPeriodYet s

/-! ### Invariants of a run driven by host commands -/

/-- The packet is a host command, not an operation packet (log 1). -/
def isCommand : Packet → Bool
  | .command _ => true
  | .operation _ => false

/-- No operation packet is placed: what the host and the callbacks send are commands anyway (R143, R155). -/
def hostDriven (s : State) : Bool := s.placed.all isCommand

/-- The index of a frame bit lies in its field of the frame being sent (R109, R112). -/
def inField (f : Field) (i : Nat) (cur : Option Frame) : Bool :=
  match cur with
  | none => false
  | some c =>
    match f with
    | .identifier => decide (i < 11)
    | .dlc => decide (11 ≤ i ∧ i < 15)
    | .data => decide (15 ≤ i ∧ i < 15 + 8 * c.data.length)

/-- A node that is not in Error has no deferred update (R29). -/
def noUpdate (n : Node) : Bool := n.errorUpdate == .none

/-- A node in Error has the deferred update of its role, and holds no frame (R118, R161). -/
def inError (n : Node) : Bool :=
  n.cur.isNone && n.errorUpdate == (match n.role with | .transmitter => ErrorUpdate.tecPlus8 | .receiver => .recPlus1)

/-- A Receiver of a frame: it holds no frame of its own. -/
def receiving (n : Node) : Bool := n.role == .receiver && n.cur.isNone && noUpdate n

/-- A Transmitter: it holds the frame it sends. -/
def sending (n : Node) : Bool := n.role == .transmitter && n.cur.isSome && noUpdate n

/-- Between frames: no frame is held. -/
def betweenFrames (n : Node) : Bool := n.cur.isNone && noUpdate n

/-- What holds of a node at each blocking point (R105 to R123): its role, whether it holds a frame, its deferred update, and the
range of its loop counters. -/
def pointOk (n : Node) : Point → Bool
  | .intW k | .intR k => betweenFrames n && decide (k < 3)
  | .susW k | .susR k => betweenFrames n && decide (k < 8)
  | .idleR => betweenFrames n
  | .idleSofW | .idleSofR => sending n && n.rxData.isEmpty
  | .txSW f i _ | .txSR f i | .txW f i _ | .txR f i _ =>
    sending n && inField f i n.cur && (f != .identifier || n.rxData.isEmpty)
  | .arbRxSR i | .arbRxR i => receiving n && decide (i < 11) && n.rxData.isEmpty
  | .dlcRxSR k | .dlcRxR k => receiving n && decide (k < 4) && n.rxData.isEmpty
  | .dataRxSR j k _ | .dataRxR j k _ =>
    receiving n && decide (j < n.rxDlc.toNat) && decide (k < 8) && n.rxData.length == j
  | .eofTxW k | .eofTxR k => sending n && decide (k < 7)
  | .eofRxR k => receiving n && decide (k < 7) && n.rxData.length == n.rxDlc.toNat
  | .errAfW k | .errAfR k | .errPfW k _ | .errPfR k _ => inError n && decide (k < 6)
  | .errD1W | .errD1R => inError n
  | .errD2W k | .errD2R k => inError n && decide (k < 7)

/-- A BusOff node is only ever blocked on a read (R123, R35). -/
def busOffReads (n : Node) (p : Point) : Bool := n.st != .busOff || pointOp p == .read

/-- A node is in order: before activation it has no position; then its position fits its registers. -/
def nodeOk (active : Bool) (n : Node) : Bool :=
  match n.pos with
  | none => !active && betweenFrames n
  | some p => active && pointOk n p && busOffReads n p

/-- A node is in order, or its registers are free (R125). -/
def nodeOkOrFree (s : State) (n : Node) : Bool := nodeOk s.active n || (s.active && isFree s.cfg n && n.pos.isSome)

/-- No programmer error has been raised: the register holds no fault, or the overflow of a finite counter width (R160). -/
def noProgrammerError (s : State) : Bool := s.fault == none || s.fault == some .counterOverflow

/-- The invariant that every step of a run driven by host commands keeps. -/
def HostInv (s : State) : Bool := hostDriven s && allNodes (nodeOkOrFree s) s && noProgrammerError s

/-! ### Words of the statements -/

/-- The loop runs a period next: active, not halted, no fault (R75). -/
def running (s : State) : Bool := s.active && !s.halted && s.fault == none

/-- `k` bit periods with no command between them, if each runs. -/
def runPeriods : Nat → State → Option State
  | 0, s => some s
  | k + 1, s =>
    match exec .busPeriod s with
    | .next t => runPeriods k t
    | .fault _ => none
    | .refused _ => none

/-- The frames a node has not delivered: the one it sends, then its queue (R92). -/
def framesOf (n : Node) : List Frame := n.cur.toList ++ n.queue

/-- The frames delivered by a step: those of its `TxDone` effects (R92). -/
def delivered (es : List Effect) : List Frame :=
  es.filterMap fun e =>
    match e with
    | .event (.txDone f) => some f
    | .event (.rxFrame _ _ _) => none
    | .event (.stateChange _ _ _ _) => none
    | .event .busOff => none
    | .call _ => none

/-- The wired-AND of the bits written in a period, Recessive for a participant that did not write (R7, R79). -/
def wiredAnd (written : List (Option Bit)) : Bit := if written.contains (some .dominant) then .dominant else .recessive

/-- What the participants' turns in the write phase of a period give the rest of the block, in uid order, each with the giver's uid
(R76, R165). -/
def writeEffects (cfg : Config.Params) (period : Nat) (ps : List Participant) : List (Nat × Effect) :=
  ps.flatMap fun q => (writeTurn cfg period q .recessive).effects.map fun e => (participantUid q, e)

/-- What their turns in the read phase give, when the bus word is `bus` (R76, R165). -/
def readEffects (cfg : Config.Params) (period : Nat) (ps : List Participant) (bus : Bit) : List (Nat × Effect) :=
  ps.flatMap fun q =>
    (readTurn cfg period (writeTurn cfg period q .recessive).part bus).effects.map fun e => (participantUid q, e)

/-- The faults the participants raise in a period, in order (R160). -/
def periodFaults (cfg : Config.Params) (period : Nat) (ps : List Participant) (bus : Bit) : List FaultReason :=
  ps.filterMap (fun q => (writeTurn cfg period q .recessive).fault)
    ++ ps.filterMap fun q => (readTurn cfg period (writeTurn cfg period q .recessive).part bus).fault

/-- The number of equal bits at the head of a list. -/
def headRun : List Bit → Nat
  | [] => 0
  | [_] => 1
  | a :: b :: rest => if a = b then headRun (b :: rest) + 1 else 1

/-- The longest run of equal bits. -/
def longestRun : List Bit → Nat
  | [] => 0
  | a :: rest => max (headRun (a :: rest)) (longestRun rest)

/-- The protocol states a node can be in after one bus call completes, by the table of R102. Every state but Data makes a bus call
before it is left; Data makes none when it has no bits, so a step may pass through it from DLC to EOF. -/
def nextPs : Ps → List Ps
  | .intermission => [.intermission, .suspendTransmission, .busIdle]
  | .suspendTransmission => [.suspendTransmission, .arbitration, .busIdle]
  | .busIdle => [.busIdle, .arbitration]
  | .arbitration => [.arbitration, .dlc, .error]
  | .dlc => [.dlc, .data, .eof, .error]
  | .data => [.data, .eof, .error]
  | .eof => [.eof, .intermission, .error]
  | .error => [.error, .intermission]

/-- The node after `writeBit(b)` at `w`, with the following `readBit()` at `r`: the write tracker has counted `b`, and the node waits
at `w`, or, if it is BusOff, at `r` already (R94, R73). -/
def wrote (b : Bit) (w r : Point) (n : Node) : Node :=
  { n with writeTrk := track n.writeTrk b, pos := some (if n.st = .busOff then r else w) }

/-- The node at a Receiver's stuff check: it reads a stuff bit at `sr` if one is due, else the frame bit at `r` (R97). -/
def checked (sr r : Point) (n : Node) : Node := { n with pos := some (if n.readTrk.count = 5 then sr else r) }

/-- The node after the first line of BusIdle: the head of its queue becomes its frame and SOF is written, or it reads (R107). -/
def idled (n : Node) : Node :=
  match n.queue with
  | [] => { n with pos := some .idleR }
  | f :: rest =>
    wrote .dominant .idleSofW .idleSofR
      { n with queue := rest, cur := some f, role := .transmitter, rxId := 0, rxDlc := 0, rxData := [] }

/-- The node after it has read another node's SOF: a Receiver at identifier bit 0 (R106, R107, R111). -/
def heardSof (n : Node) : Node :=
  checked (.arbRxSR 0) (.arbRxR 0) { n with role := .receiver, rxId := 0, rxDlc := 0, rxData := [] }

/-- The node at the first line of Intermission (R105). -/
def rested (n : Node) : Node :=
  wrote .recessive (.intW 0) (.intR 0)
    { n with readTrk := { last := .recessive, count := 0 }, writeTrk := { last := .recessive, count := 0 }, cur := none }

/-- The node after entry into Error (R118, R161, R120, R121): the deferred update of its role, the frame of a Transmitter back at the
head of the queue, and the first bit of the flag its state `st` calls for. -/
def erred (n : Node) : Node :=
  let m : Node :=
    match n.role, n.cur with
    | .transmitter, some f => { n with errorUpdate := .tecPlus8, queue := f :: n.queue, cur := none }
    | .transmitter, none => { n with errorUpdate := .tecPlus8 }
    | .receiver, _ => { n with errorUpdate := .recPlus1 }
  if m.st = .errorActive then wrote .dominant (.errAfW 0) (.errAfR 0) m
  else wrote .recessive (.errPfW 0 true) (.errPfR 0 true) m

/-- The node is at a blocking point of the protocol state. -/
def isIn (ps : Ps) (n : Node) : Bool :=
  match n.pos with
  | none => false
  | some p => pointPs p == ps

/-- The state after a node's step that ends with registers `n`, gave `es` and raised no fault. -/
def moved (uid : Nat) (n : Node) (es : List Effect) (s : State) : State :=
  commit uid { node := n, effects := es, fault := none } s

/-- The instruction is a host command (R67). -/
def isHostCommand : Instr → Bool
  | .attach _ | .attachRaw _ | .setBehavior _ _ | .setBusOffFunc _ _ | .enqueue _ _ | .seed _ _ _ | .activate | .status _ | .halt
  | .reserved0 _ | .reservedAB _ | .reservedCF _ => true
  | .busAttach _ | .busWrite _ _ | .busRead _ | .busPeriod | .frameNew _ _ | .frameSize _ | .frameBit _ _ | .frameString _
  | .queuePushBack _ _ | .queuePopFront _ | .queuePushFront _ _ | .stuffWriteBit _ _ | .stuffReadBit _
  | .stuffMaybeWriteStuff _ | .stuffMaybeReadStuff _ | .fsmIntermission _ | .fsmSuspendTransmission _ | .fsmBusIdle _
  | .fsmArbitration _ | .fsmDlc _ | .fsmData _ | .fsmEof _ | .fsmError _ | .fcUpdateState _ | .fcRecPlus1 _ | .fcRule2 _
  | .fcTecPlus8 _ | .fcRule45 _ | .fcRule7 _ | .fcRule8 _ | .fcRule9 _ | .fcRule10 _ | .fcRule11 _ | .fcBusOff _ => false

/-- The uid an instruction names, if its row needs a node (R142; for operations log 2). -/
def nodeOperand : Instr → Option Nat
  | .setBehavior uid _ | .setBusOffFunc uid _ | .enqueue uid _ | .seed uid _ _ | .status uid => some uid.toNat
  | .queuePushBack uid _ | .queuePopFront uid | .queuePushFront uid _ | .stuffWriteBit uid _ | .stuffReadBit uid
  | .stuffMaybeWriteStuff uid | .stuffMaybeReadStuff uid | .fsmIntermission uid | .fsmSuspendTransmission uid
  | .fsmBusIdle uid | .fsmArbitration uid | .fsmDlc uid | .fsmData uid | .fsmEof uid | .fsmError uid | .fcUpdateState uid
  | .fcRecPlus1 uid | .fcRule2 uid | .fcTecPlus8 uid | .fcRule45 uid | .fcRule7 uid | .fcRule8 uid | .fcRule9 uid
  | .fcRule10 uid | .fcRule11 uid | .fcBusOff uid => some uid.toNat
  | .attach _ | .attachRaw _ | .activate | .halt | .reserved0 _ | .reservedAB _ | .reservedCF _ | .busAttach _ | .busWrite _ _
  | .busRead _ | .busPeriod | .frameNew _ _ | .frameSize _ | .frameBit _ _ | .frameString _ => none

/-- The operation identifiers of the opcode table's rows that are no host command (R70). -/
def opids : List Nat :=
  [0x20, 0x21, 0x22, 0x80, 0x30, 0x31, 0x32, 0x33, 0x40, 0x41, 0x42, 0x50, 0x51, 0x52, 0x53, 0x60, 0x61, 0x62, 0x63, 0x64, 0x65, 0x66,
    0x67, 0x70, 0x71, 0x72, 0x73, 0x74, 0x75, 0x76, 0x77, 0x78, 0x79, 0x7A]

/-- The opcodes of the commands without operand words: ATTACH, SET_BEHAVIOR, SET_BUSOFF_FUNC, ACTIVATE, STATUS, HALT (R66, R67). -/
def operandless : List Nat := [1, 3, 4, 7, 8, 9]

/-- A header is reserved: opcode 0x0 or 0xA to 0xF, or a field that R66 says must be 0 is not (R154). -/
def reservedHeader (h : Word) : Bool :=
  match (headerOp h).toNat with
  | 1 => headerUid h != 0 || headerLen h != 0
  | 2 => headerUid h != 0 || headerLen h != 0 || headerArg h != 0
  | 3 => headerLen h != 0
  | 4 => headerLen h != 0
  | 5 => headerArg h != 0
  | 6 => headerLen h != 0 || headerArg h != 0
  | 7 => headerUid h != 0 || headerLen h != 0 || headerArg h != 0
  | 8 => headerLen h != 0 || headerArg h != 0
  | 9 => headerUid h != 0 || headerLen h != 0 || headerArg h != 0
  | _ => true

/-- What of a participant never changes (R16, R20, R21, R36): its kind, its uid, a node's id, a raw participant's script. -/
inductive Identity where
  | node (uid id : Nat)
  | raw (uid : Nat) (script : List RawOp)
deriving DecidableEq, Repr

/-- A participant's identity. -/
def identityOf : Participant → Identity
  | .node n => .node n.uid n.id
  | .raw r => .raw r.uid r.script

/-- A node reads some bits, one after the other, each at a read point; what it gives the rest of the block (R76). -/
def readAll (cfg : Config.Params) (n : Node) : List Bit → Node × List Effect
  | [] => (n, [])
  | b :: rest =>
    let a := readStep cfg n b
    let r := readAll cfg a.node rest
    (r.1, a.effects ++ r.2)

end Sys2Proof.Machine
end

