-- ==== Sys2Proof/Certificates/Slice0/Obligations.lean ====
section
/-! DEFINITION. The statements for the provers, in the order of OBLIGATIONS.json. Each docstring names the rules of spec/ it
states. The words they use that are not the machine's own are in Sys2Proof/Safety.lean. -/

open Sys2Proof Sys2Proof.Machine

/-! ### Encoding -/

/-- R66, R67, R70: the packet of every well-formed instruction decodes to that instruction, with every operand at every value (the
operand words of operation packets are the model's own: log 1). -/
def Obligations.DecodeOfEncode : Prop := ∀ i : Instr, i.wf = true → decode (encode i) = .instr i

/-- The example words of R145 to R150 and R154, and the words of R151 to R153, decode to the commands they stand for. -/
def Obligations.SpecWordsDecode : Prop :=
  decode (.command [0x100000F0]) = .instr (.attach 0x0F0)
    ∧ decode (.command [0x20000000, 4, 0x08000000]) = .instr (.attachRaw [.read, .read, .write .dominant, .read])
    ∧ decode (.command [0x30000001]) = .instr (.setBehavior 0 1)
    ∧ decode (.command [0x40100002]) = .instr (.setBusOffFunc 1 2)
    ∧ decode (.command [0x50010000, 0xAA000000]) = .instr (.enqueue 0 [0xAA])
    ∧ decode (.command [0x60100000, 0, 0xC8]) = .instr (.seed 1 0 200)
    ∧ decode (.command [0x70000000]) = .instr .activate
    ∧ decode (.command [0x80100000]) = .instr (.status 1)
    ∧ decode (.command [0x90000000]) = .instr .halt
    ∧ decode (.command [0xA0000000]) = .instr (.reservedAB 0)

/-- R66, R67: whatever the decoder reads is well formed, and a command of one word has one spelling, so every bit of its header is
read. -/
def Obligations.DecodedHasWords : Prop :=
  ∀ (p : Packet) (i : Instr), decode p = .instr i → i.wf = true ∧ ∀ h : Word, p = .command [h] → encode i = p

/-- R154: a reserved opcode, or a header with a non-zero field that must be 0, is refused with `ReservedCommand`, and nothing
changes, whatever words follow it. -/
def Obligations.ReservedHeaderRefused : Prop :=
  ∀ (h : Word) (ops : List Word) (s : State), reservedHeader h = true →
    runPacket (.command (h :: ops)) s = .next (answerCode .reservedCommand s)

/-- R64, R66: an ATTACH_RAW with the reserved code 01 among its script entries is refused with `ReservedCommand`. -/
def Obligations.ReservedScriptCodeRefused : Prop :=
  ∀ (n : Word) (es : List Word) (k : Nat) (s : State), es.length = (n.toNat + 15) / 16 → k < n.toNat →
    ((es.flatMap wordBytes).flatMap byteCodes)[k]? = some 0b01 →
    runPacket (.command (0x20000000 :: n :: es)) s = .next (answerCode .reservedCommand s)

/-! ### The step -/

/-- R141, R155, R51: the next command is a callback's, or, when none is left, the host's own; when its words decode to an
instruction, the step is that instruction, run in the state without the command. With no command left at the boundary the step is a
bit period. The model's own (log 1, log 6): a packet placed from outside runs before any command, and an instruction placed by
`withFetchWord` is the one the next step runs. -/
def Obligations.StepRunsDecoded : Prop :=
  ∀ s : State, stuck? s = none →
    (∀ p rest i, s.placed = p :: rest → decode p = .instr i → step s = exec i { s with placed := rest })
      ∧ (∀ c rest i, s.placed = [] → s.issued = c :: rest → decode (.command c) = .instr i →
          step s = exec i { s with issued := rest })
      ∧ (∀ c rest later i, s.placed = [] → s.issued = [] → s.host = (c :: rest) :: later → decode (.command c) = .instr i →
          step s = exec i { s with host := rest :: later })
      ∧ (s.placed = [] → s.issued = [] → (s.host = [] ∨ ∃ later, s.host = [] :: later) → step s = exec .busPeriod s)
      ∧ (∀ nbits w i, decodeTableWord nbits w = some i → step (s.withFetchWord nbits w) = exec i s)

/-- R160, R75 (log 11): a block that has stopped with a fault has no step, and with a fault set the loop stops before the next
period. The model's own (log 8): a packet that holds no command stops the machine by name: no word, a command or operation without
operands that has an operand word, an operation identifier that no row has, and an operand that is no bit. -/
def Obligations.StopsByName : Prop :=
  ∀ s : State,
    (∀ r, s.fault = some r → s.phase = .stopped → step s = .fault (.blockStuck r))
      ∧ (∀ r, s.fault = some r → s.active = true →
          ∃ t, exec .busPeriod s = .next t ∧ t.phase = .stopped ∧ t.fault = some r ∧ t.trace = s.trace)
      ∧ runPacket (.command []) s = .refused (.malformedPacket .empty)
      ∧ runPacket (.operation []) s = .refused (.malformedPacket .empty)
      ∧ (∀ (h w : Word) (rest : List Word), reservedHeader h = false → (headerOp h).toNat ∈ operandless →
          runPacket (.command (h :: w :: rest)) s = .refused (.malformedPacket .wordCount))
      ∧ (∀ (w : Word) (rest : List Word),
          runPacket (.operation (0x80 :: w :: rest)) s = .refused (.malformedPacket .wordCount))
      ∧ (∀ (o : Word) (ws : List Word), o.toNat ∉ opids →
          runPacket (.operation (o :: ws)) s = .refused (.malformedPacket .unknownOpid))
      ∧ (∀ o uid b : Word, (o = 0x21 ∨ o = 0x50) → 2 ≤ b.toNat →
          runPacket (.operation [o, uid, b]) s = .refused (.malformedPacket .badOperand))

/-! ### Reset -/

/-- R171, R144: the values after creation. The bit rate of 500 is the model's choice (log 16). -/
def Obligations.ResetValues : Prop :=
  State.reset.bitrate = 500 ∧ State.reset.active = false ∧ State.reset.busState = .recessive ∧ State.reset.participants = []
    ∧ State.reset.period = 0 ∧ State.reset.phase = .stopped ∧ State.reset.halted = false ∧ State.reset.fault = none
    ∧ State.reset.events = []

/-- The block after creation meets the invariants of `StepKeepsInv` and `StepKeepsHostInv`. -/
def Obligations.ResetMeetsInvariants : Prop := Inv State.reset = true ∧ HostInv State.reset = true

/-! ### What a node's step changes -/

/-- R38, R138, R155, R160: the end of a node's step writes its registers, appends its events, stamped with the period and the uid,
issues the commands of the callbacks it invoked, and sets the fault it raised, if it raised one. Nothing else changes. The model's
choice, not the spec's: a callback issues the one fixed list of its handle (log 7), the callbacks invoked are recorded (log 21), and an
event's stamp has the phase too, and no period before activation (log 24). -/
def Obligations.NodeStepEffects : Prop :=
  ∀ (uid : Nat) (a : Act) (s : State),
    commit uid a s =
      { s with
        participants := s.participants.set uid (.node a.node)
        events := s.events ++ a.effects.filterMap fun e =>
          match e with
          | .event k => some { period := if s.active then some s.period else none, phase := s.phase, uid := a.node.uid, kind := k }
          | .call _ => none
        calls := s.calls ++ a.effects.filterMap fun e =>
          match e with
          | .event _ => none
          | .call h => some { period := if s.active then some s.period else none, uid := a.node.uid, handle := h }
        issued := s.issued ++ a.effects.flatMap fun e =>
          match e with
          | .event _ => []
          | .call h => callbackCommands s.hostCode h
        fault := match a.fault with | some r => some r | none => s.fault }

/-! ### Host commands -/

/-- R72, R145, R146, R172: on an inactive bus an attach appends a participant with the next uid (without an upper bound, log 34) and
every register at its reset value, and returns the uid; on an active bus the commands return `NodeAttachError`, the bus operation
`BusAlreadyActive`, and nothing changes. -/
def Obligations.AttachCreates : Prop :=
  ∀ s : State,
    (s.active = false → ∀ (id16 : BitVec 16) (id : Word) (script : List RawOp),
      let withNode (k : Nat) : State :=
        { s with
          participants := s.participants ++ [.node
            { uid := s.participants.length, id := k, st := .errorActive, tec := 0, recCtr := 0, queue := []
              readTrk := { last := .recessive, count := 0 }, writeTrk := { last := .recessive, count := 0 }
              behavior := none, busOffFunc := none, cur := none, role := .receiver, prevRole := .receiver, errorUpdate := .none
              rxId := 0, rxDlc := 0, rxData := [], pos := none }]
          results := s.results ++ [.uid s.participants.length] }
      let withRaw : State :=
        { s with
          participants := s.participants ++ [.raw { uid := s.participants.length, script := script, index := 0, reads := [] }]
          results := s.results ++ [.uid s.participants.length] }
      exec (.attach id16) s = .next (withNode id16.toNat)
        ∧ exec (.busAttach (.node id)) s = .next (withNode id.toNat)
        ∧ exec (.attachRaw script) s = .next withRaw
        ∧ exec (.busAttach (.raw script)) s = .next withRaw)
    ∧ (s.active = true → ∀ (id16 : BitVec 16) (script : List RawOp) (p : Attached),
      exec (.attach id16) s = .next (answerCode .nodeAttachError s)
        ∧ exec (.attachRaw script) s = .next (answerCode .nodeAttachError s)
        ∧ exec (.busAttach p) s = .next (answerCode .busAlreadyActive s))

/-- R147, R148: the handle is stored, 0 meaning none, and the result is `Ok`; nothing else changes, before and after activation. -/
def Obligations.HandlesStored : Prop :=
  ∀ (s : State) (uid : BitVec 8) (h : BitVec 16) (n : Node), nodeAt s uid.toNat = some n →
    exec (.setBehavior uid h) s =
        .next (answerCode .ok (setNode s uid.toNat { n with behavior := if h = 0 then none else some h }))
      ∧ exec (.setBusOffFunc uid h) s =
        .next (answerCode .ok (setNode s uid.toNat { n with busOffFunc := if h = 0 then none else some h }))

/-- R149, R84, R58: ENQUEUE builds a frame of the node's identifier and appends it to the queue; an identifier of 2048 or more is
`InvalidId`, checked before the length, and more than 8 bytes are `PayloadTooLarge`, and then nothing changes. With a finite capacity
a full queue is refused by name (log 15). -/
def Obligations.EnqueueAppends : Prop :=
  ∀ (s : State) (uid : BitVec 8) (data : List Byte) (n : Node), nodeAt s uid.toNat = some n →
    (2048 ≤ n.id → exec (.enqueue uid data) s = .next (answerCode .invalidId s))
      ∧ (n.id < 2048 → 8 < data.length → exec (.enqueue uid data) s = .next (answerCode .payloadTooLarge s))
      ∧ (∀ h : data.length ≤ 8, n.id < 2048 → (∀ c, s.cfg.queueCap = some c → n.queue.length < c) →
          exec (.enqueue uid data) s = .next (answerCode .ok (setNode s uid.toNat
            { n with queue := n.queue ++ [{ id := BitVec.ofNat 11 n.id, data := data, short := h }] })))
      ∧ (∀ c, s.cfg.queueCap = some c → c ≤ n.queue.length → n.id < 2048 → data.length ≤ 8 →
          exec (.enqueue uid data) s = .refused .queueFull)

/-- R150: before activation SEED writes both counters and runs one `updateState()`; after it the result is `BusAlreadyActive` and
nothing changes. With a finite counter width a value that does not fit is the overflow fault (log 14). -/
def Obligations.SeedSetsCounters : Prop :=
  ∀ (s : State) (uid : BitVec 8) (t r : Word) (n : Node), nodeAt s uid.toNat = some n →
    (s.active = true → exec (.seed uid t r) s = .next (answerCode .busAlreadyActive s))
      ∧ (s.active = false → (∀ w, s.cfg.cntW = some w → t.toNat < 2 ^ w ∧ r.toNat < 2 ^ w) →
          exec (.seed uid t r) s = .next (answerCode .ok
            (commit uid.toNat (updateState (actOf { n with tec := t.toNat, recCtr := r.toNat })) s)))
      ∧ (∀ w, s.active = false → s.cfg.cntW = some w → 2 ^ w ≤ t.toNat ∨ 2 ^ w ≤ r.toNat →
          exec (.seed uid t r) s = .next (raiseFault .counterOverflow s))

/-- R151: ACTIVATE makes the bus active, and every node runs from the first line of BusIdle to its first bus call; raw participants
stay at their first entry. It gives no result. On an active bus it returns `BusAlreadyActive` and changes nothing. -/
def Obligations.ActivateStarts : Prop :=
  ∀ s : State,
    (s.active = true → exec .activate s = .next (answerCode .busAlreadyActive s))
      ∧ (s.active = false →
          exec .activate s = .next { s with
            active := true
            participants := s.participants.map fun p =>
              match p with
              | .node n => .node (idled n)
              | .raw r => .raw r })

/-- R152, R69, R65: STATUS returns the packed record and the queue, and changes no register. Each field of word 0 stands where R69
puts it; a uid above 255 or an identifier above 65535 loses its high bits there (log 23); the counters saturate in the packing. R173:
the record shows `cur`, `errorUpdate` and the rx registers too, in the model after the queue (log 33). -/
def Obligations.StatusRecord : Prop :=
  ∀ (s : State) (uid : BitVec 8) (n : Node), nodeAt s uid.toNat = some n →
    ∃ w : Word, exec (.status uid) s = .next (answer
        (.status w (BitVec.ofNat 32 (min n.tec 0xFFFFFFFF)) (BitVec.ofNat 32 (min n.recCtr 0xFFFFFFFF)) n.queue
          { cur := n.cur, errorUpdate := n.errorUpdate, rxId := n.rxId, rxDlc := n.rxDlc, rxData := n.rxData }) s)
      ∧ w.extractLsb' 24 8 = BitVec.ofNat 8 n.uid
      ∧ w.extractLsb' 21 3 = psCode (nodePs n)
      ∧ w.extractLsb' 19 2 = stCode n.st
      ∧ w.extractLsb' 18 1 = roleCode n.role
      ∧ w.extractLsb' 17 1 = roleCode n.prevRole
      ∧ w.extractLsb' 16 1 = 0
      ∧ w.extractLsb' 0 16 = BitVec.ofNat 16 n.id

/-- R153, R154: HALT sets `halted` and answers `Ok`; a reserved opcode answers `ReservedCommand`; nothing else changes. -/
def Obligations.HaltAndReserved : Prop :=
  ∀ s : State,
    exec .halt s = .next (answerCode .ok { s with halted := true })
      ∧ (∀ low, exec (.reserved0 low) s = .next (answerCode .reservedCommand s))
      ∧ (∀ low, exec (.reservedAB low) s = .next (answerCode .reservedCommand s))
      ∧ (∀ low, exec (.reservedCF low) s = .next (answerCode .reservedCommand s))

/-- R142 (for operation packets the model's choice, log 2): a uid that names no node, out of range or a raw participant, answers
`NoSuchNode` and changes nothing. The bus operations take any participant. -/
def Obligations.NoSuchNodeAnswered : Prop :=
  ∀ (s : State) (i : Instr) (u : Nat),
    (nodeOperand i = some u → nodeAt s u = none → exec i s = .next (answerCode .noSuchNode s))
      ∧ (∀ (uid : Word) (b : Bit), s.participants.length ≤ uid.toNat →
          exec (.busWrite uid b) s = .next (answerCode .noSuchNode s)
            ∧ exec (.busRead uid) s = .next (answerCode .noSuchNode s))

/-- R143, R142: the words a host or a callback sends decode to host commands only. A host command leaves the bus word, the period, the
phase, the trace and what the host and the model's port hold as they are, and changes no raw participant. Of a node it changes the
handles (SET_BEHAVIOR, SET_BUSOFF_FUNC), the tail of the queue (ENQUEUE) and, before activation, the counters and `st` (SEED) and
what starting it changes (ACTIVATE); on an active bus nothing else. A host command that fails changes no state: all that is new is its
result. -/
def Obligations.HostCommandsConfined : Prop :=
  (∀ (c : Command) (i : Instr), decode (.command c) = .instr i → isHostCommand i = true)
    ∧ ∀ (i : Instr) (s t : State), isHostCommand i = true → exec i s = .next t →
      t.busState = s.busState ∧ t.period = s.period ∧ t.phase = s.phase ∧ t.trace = s.trace
        ∧ t.host = s.host ∧ t.hostCode = s.hostCode ∧ t.placed = s.placed
        ∧ (∀ (u : Nat) (r : Raw), s.participants[u]? = some (.raw r) → t.participants[u]? = some (.raw r))
        ∧ (∀ (u : Nat) (n : Node), s.active = true ∨ i ≠ .activate → s.participants[u]? = some (.node n) →
            ∃ handle onBusOff more st tec recCtr,
              t.participants[u]? = some (.node
                { n with behavior := handle, busOffFunc := onBusOff, queue := n.queue ++ more, st := st, tec := tec, recCtr := recCtr })
              ∧ (handle = n.behavior ∨ ∃ uid h, i = .setBehavior uid h ∧ uid.toNat = u)
              ∧ (onBusOff = n.busOffFunc ∨ ∃ uid h, i = .setBusOffFunc uid h ∧ uid.toNat = u)
              ∧ (more = [] ∨ ∃ uid data, i = .enqueue uid data ∧ uid.toNat = u)
              ∧ ((st = n.st ∧ tec = n.tec ∧ recCtr = n.recCtr) ∨ s.active = false ∧ ∃ uid v w, i = .seed uid v w ∧ uid.toNat = u))
        ∧ (∀ c, t.results = s.results ++ [.code c] → c ≠ .ok → t = answerCode c s)

/-! ### The bus -/

/-- R73, R74 (taken as they complete, log 3): a write ANDs its bit into the bus word, but a BusOff node's changes nothing; a read
returns the bus word and changes no register; on an inactive bus both are the fault `IoOnInactiveBus`. -/
def Obligations.BusWriteAndRead : Prop :=
  ∀ (s : State) (uid : Word) (b : Bit) (p : Participant), s.participants[uid.toNat]? = some p →
    (∀ n, p = .node n → n.st = .busOff → exec (.busWrite uid b) s = .next s)
      ∧ ((∀ n, p = .node n → n.st ≠ .busOff) → s.active = true →
          exec (.busWrite uid b) s = .next { s with busState := s.busState.and b })
      ∧ ((∀ n, p = .node n → n.st ≠ .busOff) → s.active = false →
          exec (.busWrite uid b) s = .next { s with fault := some .ioOnInactiveBus })
      ∧ (s.active = true → exec (.busRead uid) s = .next (answer (.bit s.busState) s))
      ∧ (s.active = false → exec (.busRead uid) s = .next { s with fault := some .ioOnInactiveBus })

/-- R48 (with R79 and R75): on a running bus a period ends with the bus word equal to the AND of every bit written in its write phase, Recessive if none
was, and every read of the period returned it: each participant's registers are those its turn in the write phase and then its turn in
the read phase leave, the latter with this word as the value read. The trace has a new line with what was written, who read after the
write phase, and this word. -/
def Obligations.PeriodIsWiredAnd : Prop :=
  ∀ s : State, running s = true →
    ∃ t, exec .busPeriod s = .next t
      ∧ ∃ p, t.period = p ∧ p = (if s.phase = .boundary then s.period + 1 else s.period)
      ∧ t.phase = .boundary
      ∧ t.busState = wiredAnd (s.participants.map (writtenBit s.cfg p))
      ∧ t.participants = s.participants.map (fun q =>
          (readTurn s.cfg p (writeTurn s.cfg p q .recessive).part t.busState).part)
      ∧ t.trace = s.trace ++
          [{ period := p
             written := s.participants.map (writtenBit s.cfg p)
             read := s.participants.map (fun q => readsNow s.cfg p (writeTurn s.cfg p q .recessive).part)
             bus := t.busState }]

/-- R75, R153, R141 (log 22): a period leaves the host's results, the handles' commands, the parameters and the flags `active` and
`halted` as they are, and passes the host's batch of the boundary. R38, R155, R160, R165: a period that runs appends the events of the
write phase and then those of the read phase, in each by uid (D41) and then in program order, records the callbacks invoked and issues
their commands in that order, and leaves the last fault raised, or none. The model's choice: the callbacks' order by uid (log 31), that of
the faults of one phase (log 32), the fixed lists (log 7), the record of calls (log 21) and the phase stamp (log 24). On a halted bus, or with a fault set, no period runs:
the loop stops. On an inactive bus nothing but the batch is passed. -/
def Obligations.PeriodFrame : Prop :=
  ∀ s : State, ∃ t, exec .busPeriod s = .next t
    ∧ t.results = s.results ∧ t.hostCode = s.hostCode ∧ t.cfg = s.cfg ∧ t.bitrate = s.bitrate
    ∧ t.active = s.active ∧ t.halted = s.halted ∧ t.placed = s.placed
    ∧ (∀ later, s.host = [] :: later → t.host = later) ∧ ((∀ later, s.host ≠ [] :: later) → t.host = s.host)
    ∧ (running s = true →
        ∃ w r : List (Nat × Effect), w = writeEffects s.cfg t.period s.participants
          ∧ r = readEffects s.cfg t.period s.participants t.busState
          ∧ t.events = s.events
              ++ w.filterMap (fun e =>
                match e.2 with
                | .event k => some { period := some t.period, phase := .write, uid := e.1, kind := k }
                | .call _ => none)
              ++ r.filterMap (fun e =>
                match e.2 with
                | .event k => some { period := some t.period, phase := .read, uid := e.1, kind := k }
                | .call _ => none)
          ∧ t.calls = s.calls ++ (w ++ r).filterMap (fun e =>
              match e.2 with
              | .event _ => none
              | .call h => some { period := some t.period, uid := e.1, handle := h })
          ∧ t.issued = s.issued ++ (w ++ r).flatMap (fun e =>
              match e.2 with
              | .event _ => []
              | .call h => callbackCommands s.hostCode h)
          ∧ t.fault = (periodFaults s.cfg t.period s.participants t.busState).getLast?)
    ∧ (running s = false →
        t.participants = s.participants ∧ t.busState = s.busState ∧ t.fault = s.fault ∧ t.events = s.events
          ∧ t.calls = s.calls ∧ t.issued = s.issued ∧ t.trace = s.trace
          ∧ t.phase = (if s.active then .stopped else s.phase)
          ∧ t.period = (if s.active ∧ s.phase = .boundary then s.period + 1 else s.period))

/-- R49, R75: the order in which the participants take their turns of a phase cannot be seen in their registers or on the bus. -/
def Obligations.PhaseOrderIrrelevant : Prop :=
  ∀ (cfg : Config.Params) (period : Nat) (ps qs : List Participant) (bus : Bit), ps.Perm qs →
    (allTurns (writeTurn cfg period) ps bus).bus = (allTurns (writeTurn cfg period) qs bus).bus
      ∧ ((allTurns (writeTurn cfg period) ps bus).parts.Perm (allTurns (writeTurn cfg period) qs bus).parts)
      ∧ (allTurns (readTurn cfg period) ps bus).bus = bus
      ∧ ((allTurns (readTurn cfg period) ps bus).parts.Perm (allTurns (readTurn cfg period) qs bus).parts)

/-- R81, R36 (log 20): in a period of the default model a raw participant moves past an entry `W(b)`, or records the bus value and
moves past an entry `R`; after a `W(b)` an `R` that follows completes in the same period; after the script it reads for ever. -/
def Obligations.RawScriptRuns : Prop :=
  ∀ (s : State) (u : Nat) (r : Raw), running s = true → s.cfg.missedPhases = false → s.participants[u]? = some (.raw r) →
    ∃ t, exec .busPeriod s = .next t
      ∧ (∀ b, r.script[r.index]? = some (.write b) → r.script[r.index + 1]? = some .read →
          t.participants[u]? = some (.raw { r with index := r.index + 2, reads := r.reads ++ [t.busState] }))
      ∧ (∀ b c, r.script[r.index]? = some (.write b) → r.script[r.index + 1]? = some (.write c) →
          t.participants[u]? = some (.raw { r with index := r.index + 1 }))
      ∧ (∀ b, r.script[r.index]? = some (.write b) → r.script[r.index + 1]? = none →
          t.participants[u]? = some (.raw { r with index := r.index + 1, reads := r.reads ++ [t.busState] }))
      ∧ (r.script[r.index]? = some .read →
          t.participants[u]? = some (.raw { r with index := r.index + 1, reads := r.reads ++ [t.busState] }))
      ∧ (r.script[r.index]? = none →
          t.participants[u]? = some (.raw { r with reads := r.reads ++ [t.busState] }))

/-- R80 (log 12): where missed phases are allowed, a participant that misses both phases of a period is left as it was and
contributes Recessive; where they are not, none is missed. -/
def Obligations.MissedPhaseTakesNoPart : Prop :=
  ∀ (s : State) (u : Nat) (q : Participant), running s = true → uidsDense s = true → s.participants[u]? = some q →
    ∃ t, exec .busPeriod s = .next t
      ∧ (s.cfg.missedPhases = true → Config.miss t.period u false = true → Config.miss t.period u true = true →
          t.participants[u]? = some q ∧ writtenBit s.cfg t.period q = none)
      ∧ (s.cfg.missedPhases = false → ∀ readPhase, missed s.cfg t.period readPhase u = false)

/-- R73, R139, R168: a BusOff node cannot be seen by anyone else: two runs that differ only in the registers of a BusOff node have,
after a period, the same bus word and the same registers of every other participant. -/
def Obligations.BusOffNodeInvisible : Prop :=
  ∀ (s : State) (u : Nat) (n m : Node), running s = true → s.participants[u]? = some (.node n) → n.st = .busOff → m.st = .busOff →
    ∃ t t', exec .busPeriod s = .next t
      ∧ exec .busPeriod { s with participants := s.participants.set u (.node m) } = .next t'
      ∧ t'.busState = t.busState
      ∧ ∀ v, v ≠ u → t'.participants[v]? = t.participants[v]?

/-- R125 (log 13): under `havoc` a BusOff node that takes part in a period stays BusOff, keeps its uid, its identifier and its
handles, writes nothing, and is blocked on a read after it. -/
def Obligations.FreeBusOffNode : Prop :=
  ∀ (s : State) (u : Nat) (n : Node), running s = true → s.cfg.busOffHavoc = true → s.cfg.missedPhases = false →
    s.participants[u]? = some (.node n) → n.st = .busOff → n.pos.isSome = true →
    ∃ t m, exec .busPeriod s = .next t ∧ t.participants[u]? = some (.node m)
      ∧ m.st = .busOff ∧ m.uid = n.uid ∧ m.id = n.id ∧ m.behavior = n.behavior ∧ m.busOffFunc = n.busOffFunc
      ∧ nodeOp m = some .read ∧ writtenBit s.cfg t.period (.node n) = none ∧ m.rxData.length ≤ 15

/-! ### Frames and the queue -/

/-- R84: `Frame.new` builds the frame, or answers `InvalidId` for an identifier of 2048 or more, checked first, or `PayloadTooLarge`
for more than 8 bytes; no register changes. -/
def Obligations.FrameNewResult : Prop :=
  ∀ (s : State) (id : Word) (data : List Byte),
    (2048 ≤ id.toNat → exec (.frameNew id data) s = .next (answerCode .invalidId s))
      ∧ (id.toNat < 2048 → 8 < data.length → exec (.frameNew id data) s = .next (answerCode .payloadTooLarge s))
      ∧ (id.toNat < 2048 → ∀ h : data.length ≤ 8,
          exec (.frameNew id data) s = .next (answer (.frame { id := id.setWidth 11, data := data, short := h }) s))

/-- R85: `size()` returns `11 + 4 + 8·dlc`, a value from 15 to 79; it reads only the frame and no register changes. -/
def Obligations.FrameSizeResult : Prop :=
  ∀ (s : State) (f : Frame),
    exec (.frameSize f) s = .next (answer (.size (11 + 4 + 8 * f.data.length)) s)
      ∧ 15 ≤ 11 + 4 + 8 * f.data.length ∧ 11 + 4 + 8 * f.data.length ≤ 79

/-- R86, R57: `bit(i)` is bit `10 - i` of the identifier for i below 11, bit `14 - i` of the DLC for i from 11 to 14, then bit
`7 - j` of byte `k`, most significant first; an index of `size()` or more is the fault `BitIndexOutOfRange`. -/
def Obligations.FrameBitResult : Prop :=
  ∀ (s : State) (f : Frame) (i : Word),
    (i.toNat < 11 → exec (.frameBit f i) s = .next (answer (.bit (.ofBool (f.id.getLsbD (10 - i.toNat)))) s))
      ∧ (11 ≤ i.toNat → i.toNat < 15 →
          exec (.frameBit f i) s = .next (answer (.bit (.ofBool (f.data.length.testBit (14 - i.toNat)))) s))
      ∧ (∀ (k j : Nat) (h : k < f.data.length), j < 8 → i.toNat = 15 + 8 * k + j →
          exec (.frameBit f i) s = .next (answer (.bit (.ofBool ((f.data[k]'h).getLsbD (7 - j)))) s))
      ∧ (15 + 8 * f.data.length ≤ i.toNat → exec (.frameBit f i) s = .next (raiseFault .bitIndexOutOfRange s))

/-- R87: `toString()` is the 11 identifier bits as characters in wire order, a space, the 4 DLC bits, and then for each data byte a
space and its 8 bits, and nothing else; no register changes. -/
def Obligations.FrameStringResult : Prop :=
  ∀ (s : State) (f : Frame),
    ∃ cs, exec (.frameString f) s = .next (answer (.text cs) s)
      ∧ cs = (List.range 11).map (fun i => if f.id.getLsbD (10 - i) then '1' else '0')
          ++ ' ' :: (List.range 4).map (fun i => if f.data.length.testBit (3 - i) then '1' else '0')
          ++ f.data.flatMap (fun x => ' ' :: (List.range 8).map fun j => if x.getLsbD (7 - j) then '1' else '0')

/-- R88, R89, R90: `pushBack` appends, `pushFront` puts ahead, `popFront` takes the head and returns it, or answers empty and changes
nothing. Only the queue of the node changes. -/
def Obligations.QueueOperations : Prop :=
  ∀ (s : State) (uid : Word) (f : Frame) (n : Node), nodeAt s uid.toNat = some n →
    exec (.queuePushBack uid f) s = .next (setNode s uid.toNat { n with queue := n.queue ++ [f] })
      ∧ exec (.queuePushFront uid f) s = .next (setNode s uid.toNat { n with queue := f :: n.queue })
      ∧ (n.queue = [] → exec (.queuePopFront uid) s = .next (answer .empty s))
      ∧ (∀ g rest, n.queue = g :: rest →
          exec (.queuePopFront uid) s = .next (answer (.frame g) (setNode s uid.toNat { n with queue := rest })))

/-- R92: a step of a node that is in order neither drops nor copies a frame: the frames it delivers (`TxDone`), then the frame it
sends, then its queue, are in this order what they were before. -/
def Obligations.FramesConserved : Prop :=
  ∀ (cfg : Config.Params) (n : Node) (b : Bit), nodeOk true n = true →
    delivered (readStep cfg n b).effects ++ framesOf (readStep cfg n b).node = framesOf n
      ∧ delivered (writeStep n).effects ++ framesOf (writeStep n).node = framesOf n

/-! ### Bit stuffing -/

/-- R94, R95 (taken as they complete, log 3): `writeBit` counts the bit in the write tracker, a longer run or a new run of 1, in every
state `st`, and then writes the bus, unless the node is BusOff; `readBit` counts the bus value in the read tracker and returns it. -/
def Obligations.WriteBitAndReadBit : Prop :=
  ∀ (s : State) (uid : Word) (b : Bit) (n : Node), nodeAt s uid.toNat = some n → s.active = true →
    (n.writeTrk.last = b → exec (.stuffWriteBit uid b) s = .next (setNode
        (if n.st = .busOff then s else { s with busState := s.busState.and b }) uid.toNat
        { n with writeTrk := { last := b, count := n.writeTrk.count + 1 } }))
      ∧ (n.writeTrk.last ≠ b → exec (.stuffWriteBit uid b) s = .next (setNode
        (if n.st = .busOff then s else { s with busState := s.busState.and b }) uid.toNat
        { n with writeTrk := { last := b, count := 1 } }))
      ∧ (n.readTrk.last = s.busState → exec (.stuffReadBit uid) s = .next (answer (.bit s.busState) (setNode s uid.toNat
        { n with readTrk := { last := s.busState, count := n.readTrk.count + 1 } })))
      ∧ (n.readTrk.last ≠ s.busState → exec (.stuffReadBit uid) s = .next (answer (.bit s.busState) (setNode s uid.toNat
        { n with readTrk := { last := s.busState, count := 1 } })))

/-- R96, R97 (taken as they complete, log 3): with a write run of 5 `maybeWriteStuff` writes a bit of the opposite polarity, which
starts a run of 1, and returns true, else it returns false; with a read run of 5 `maybeReadStuff` consumes a bit and returns whether it
differs from the run's polarity, else it returns true. -/
def Obligations.StuffBits : Prop :=
  ∀ (s : State) (uid : Word) (n : Node), nodeAt s uid.toNat = some n → s.active = true →
    (n.writeTrk.count = 5 → exec (.stuffMaybeWriteStuff uid) s = .next (answer (.truth true) (setNode
        (if n.st = .busOff then s else { s with busState := s.busState.and n.writeTrk.last.flip }) uid.toNat
        { n with writeTrk := { last := n.writeTrk.last.flip, count := 1 } })))
      ∧ (n.writeTrk.count ≠ 5 → exec (.stuffMaybeWriteStuff uid) s = .next (answer (.truth false) s))
      ∧ (n.readTrk.count = 5 → s.busState ≠ n.readTrk.last →
          exec (.stuffMaybeReadStuff uid) s = .next (answer (.truth true) (setNode s uid.toNat
            { n with readTrk := { last := s.busState, count := 1 } })))
      ∧ (n.readTrk.count = 5 → s.busState = n.readTrk.last →
          exec (.stuffMaybeReadStuff uid) s = .next (answer (.truth false) (setNode s uid.toNat
            { n with readTrk := { last := s.busState, count := 6 } })))
      ∧ (n.readTrk.count ≠ 5 → exec (.stuffMaybeReadStuff uid) s = .next (answer (.truth true) s))

/-- R59, R99: the encoding of a region has no six equal bits in a row. -/
def Obligations.StuffedHasNoSix : Prop := ∀ region : List Bit, longestRun (stuffEncode region) ≤ 5

/-- R61: a stuffed region of L bits has at most `(L - 2) / 4` stuff bits, and loses none of its own; for the region of a frame,
`L = 16 + 8·dlc`. -/
def Obligations.StuffBound : Prop :=
  (∀ region : List Bit,
      region.length ≤ (stuffEncode region).length
        ∧ (stuffEncode region).length ≤ region.length + (region.length - 2) / 4)
    ∧ ∀ f : Frame, (stuffedRegion f).length = 16 + 8 * f.data.length

/-! ### The protocol state machine -/

/-- R96, R97, R109, R112, R86: one iteration of a Transmitter for frame bit `i`. A due stuff bit is written first, and the same `i` is
redone (a BusOff node goes on at once); a due stuff bit is then read; then the frame bit is written. A bit index outside the frame is
the programmer error of R86 (log 18). -/
def Obligations.TransmitterIteration : Prop :=
  ∀ (f : Field) (i : Nat) (a : Act),
    (a.node.writeTrk.count = 5 → a.node.st ≠ .busOff →
        txIter f i a = { a with node := { a.node with
          writeTrk := { last := a.node.writeTrk.last.flip, count := 1 }
          pos := some (.txSW f i a.node.writeTrk.last.flip) } })
      ∧ (a.node.writeTrk.count = 5 → a.node.st = .busOff →
          txIter f i a = txIter f i { a with node := { a.node with
            writeTrk := { last := a.node.writeTrk.last.flip, count := 1 } } })
      ∧ (a.node.writeTrk.count ≠ 5 → a.node.readTrk.count = 5 →
          txIter f i a = { a with node := { a.node with pos := some (.txSR f i) } })
      ∧ (∀ c b, a.node.writeTrk.count ≠ 5 → a.node.readTrk.count ≠ 5 → a.node.cur = some c → frameBit? c i = some b →
          txIter f i a = { a with node := wrote b (.txW f i b) (.txR f i b) a.node })
      ∧ (a.node.writeTrk.count ≠ 5 → a.node.readTrk.count ≠ 5 → (∀ c, a.node.cur = some c → frameSize c ≤ i) →
          txIter f i a = { a with fault := some .bitIndexOutOfRange })

/-- R108, R111, R113, R114, R115: the loop tests. Arbitration has 11 identifier bits, then DLC 4, then Data `8·dlc`, then EOF, for a
Transmitter by the DLC of its frame, for a Receiver by `rxDlc`, which may be 9 to 15. -/
def Obligations.LoopTests : Prop :=
  ∀ (a : Act) (i : Nat),
    (i < 11 → a.node.role = .transmitter → arbIter i a = txIter .identifier i a)
      ∧ (i < 11 → a.node.role = .receiver → arbIter i a = { a with node := checked (.arbRxSR i) (.arbRxR i) a.node })
      ∧ (11 ≤ i → a.node.role = .transmitter → arbIter i a = txIter .dlc 11 a)
      ∧ (11 ≤ i → a.node.role = .receiver → arbIter i a = { a with node := checked (.dlcRxSR 0) (.dlcRxR 0) a.node })
      ∧ (i < 15 → dlcTx i a = txIter .dlc i a) ∧ (15 ≤ i → dlcTx i a = enterData a)
      ∧ (i < 4 → dlcRx i a = { a with node := checked (.dlcRxSR i) (.dlcRxR i) a.node }) ∧ (4 ≤ i → dlcRx i a = enterData a)
      ∧ (∀ f, a.node.role = .transmitter → a.node.cur = some f → 0 < f.data.length → enterData a = txIter .data 15 a)
      ∧ (∀ f, a.node.role = .transmitter → a.node.cur = some f → f.data = [] → enterData a = enterEof a)
      ∧ (∀ f, a.node.cur = some f → i < 15 + 8 * f.data.length → dataTx i a = txIter .data i a)
      ∧ (∀ f, a.node.cur = some f → 15 + 8 * f.data.length ≤ i → dataTx i a = enterEof a)
      ∧ (a.node.role = .receiver → 0 < a.node.rxDlc.toNat →
          enterData a = { a with node := checked (.dataRxSR 0 0 0) (.dataRxR 0 0 0) a.node })
      ∧ (a.node.role = .receiver → a.node.rxDlc.toNat = 0 → enterData a = enterEof a)
      ∧ (i < a.node.rxDlc.toNat → dataByte i a = { a with node := checked (.dataRxSR i 0 0) (.dataRxR i 0 0) a.node })
      ∧ (a.node.rxDlc.toNat ≤ i → dataByte i a = enterEof a)
      ∧ (a.node.role = .transmitter → enterEof a = { a with node := wrote .recessive (.eofTxW 0) (.eofTxR 0) a.node })
      ∧ (a.node.role = .receiver → enterEof a = { a with node := { a.node with pos := some (.eofRxR 0) } })

/-- R118, R161, R120, R121: whatever the kind of the error, entry into Error sets the deferred update of the role, puts a
Transmitter's frame back at the head of its queue, chooses the flag by `st`, and changes nothing else. -/
def Obligations.ErrorEntry : Prop :=
  ∀ (kind : ErrorKind) (a : Act), detect kind a = { a with node := erred a.node }

/-- R105, R106 and R107 (log 4 for the first line): the operations Intermission and SuspendTransmission on a node of an active bus:
a write completes, a read is counted and restarts, continues or ends the run, and a node in another state starts at the first line. -/
def Obligations.IntermissionAndSuspend : Prop :=
  ∀ (s : State) (uid : Word) (n m : Node), nodeAt s uid.toNat = some n → s.active = true →
    m = { n with readTrk := track n.readTrk s.busState } →
    (∀ k, n.pos = some (.intW k) →
        exec (.fsmIntermission uid) s = .next (moved uid.toNat { n with pos := some (.intR k) } [] (writeBy n.st .recessive s)))
      ∧ (∀ k, n.pos = some (.intR k) → s.busState = .dominant →
          exec (.fsmIntermission uid) s = .next (moved uid.toNat (wrote .recessive (.intW 0) (.intR 0) m) [] s))
      ∧ (∀ k, n.pos = some (.intR k) → s.busState = .recessive → k + 1 < 3 →
          exec (.fsmIntermission uid) s = .next (moved uid.toNat (wrote .recessive (.intW (k + 1)) (.intR (k + 1)) m) [] s))
      ∧ (∀ k, n.pos = some (.intR k) → s.busState = .recessive → 3 ≤ k + 1 → n.st = .errorPassive → n.prevRole = .transmitter →
          exec (.fsmIntermission uid) s = .next (moved uid.toNat (wrote .recessive (.susW 0) (.susR 0) m) [] s))
      ∧ (∀ k, n.pos = some (.intR k) → s.busState = .recessive → 3 ≤ k + 1 → (n.st ≠ .errorPassive ∨ n.prevRole = .receiver) →
          exec (.fsmIntermission uid) s = .next (moved uid.toNat (idled m) [] s))
      ∧ (isIn .intermission n = false → exec (.fsmIntermission uid) s = .next (moved uid.toNat (rested n) [] s))
      ∧ (∀ k, n.pos = some (.susW k) →
          exec (.fsmSuspendTransmission uid) s =
            .next (moved uid.toNat { n with pos := some (.susR k) } [] (writeBy n.st .recessive s)))
      ∧ (∀ k, n.pos = some (.susR k) → s.busState = .dominant →
          exec (.fsmSuspendTransmission uid) s = .next (moved uid.toNat (heardSof m) [] s))
      ∧ (∀ k, n.pos = some (.susR k) → s.busState = .recessive → k + 1 < 8 →
          exec (.fsmSuspendTransmission uid) s =
            .next (moved uid.toNat (wrote .recessive (.susW (k + 1)) (.susR (k + 1)) m) [] s))
      ∧ (∀ k, n.pos = some (.susR k) → s.busState = .recessive → 8 ≤ k + 1 →
          exec (.fsmSuspendTransmission uid) s = .next (moved uid.toNat (idled m) [] s))
      ∧ (isIn .suspendTransmission n = false →
          exec (.fsmSuspendTransmission uid) s = .next (moved uid.toNat (wrote .recessive (.susW 0) (.susR 0) n) [] s))

/-- R107, R108 (log 4 for the first line): the operation BusIdle on a node of an active bus: an idle node that reads Dominant becomes
a Receiver, one that reads Recessive looks at its queue; a sender's SOF is written and read back unchecked, and then Arbitration starts
at bit 0. -/
def Obligations.BusIdleResult : Prop :=
  ∀ (s : State) (uid : Word) (n m : Node), nodeAt s uid.toNat = some n → s.active = true →
    m = { n with readTrk := track n.readTrk s.busState } →
    (n.pos = some .idleR → s.busState = .dominant →
        exec (.fsmBusIdle uid) s = .next (moved uid.toNat (heardSof m) [] s))
      ∧ (n.pos = some .idleR → s.busState = .recessive →
          exec (.fsmBusIdle uid) s = .next (moved uid.toNat (idled m) [] s))
      ∧ (n.pos = some .idleSofW →
          exec (.fsmBusIdle uid) s =
            .next (moved uid.toNat { n with pos := some .idleSofR } [] (writeBy n.st .dominant s)))
      ∧ (n.pos = some .idleSofR →
          exec (.fsmBusIdle uid) s = .next (commit uid.toNat (arbIter 0 (actOf m)) s))
      ∧ (isIn .busIdle n = false → exec (.fsmBusIdle uid) s = .next (moved uid.toNat (idled n) [] s))

/-- R108 to R111 (log 4 for the first line): the operation Arbitration on a node of an active bus. A Transmitter's bits go into `rxId`
as read; a bit read back that is not the bit sent makes it a Receiver and puts its frame back, without an error; a stuff bit of the
wrong polarity is an error in both roles. -/
def Obligations.ArbitrationResult : Prop :=
  ∀ (s : State) (uid : Word) (n m : Node) (i : Nat), nodeAt s uid.toNat = some n → s.active = true →
    m = { n with readTrk := track n.readTrk s.busState } →
    (∀ b, n.pos = some (.txSW .identifier i b) →
        exec (.fsmArbitration uid) s = .next (commit uid.toNat (txIter .identifier i (actOf n)) (writeBy n.st b s)))
      ∧ (n.pos = some (.txSR .identifier i) → s.busState = n.readTrk.last →
          exec (.fsmArbitration uid) s = .next (commit uid.toNat (detect .stuff (actOf m)) s))
      ∧ (∀ c b, n.pos = some (.txSR .identifier i) → s.busState ≠ n.readTrk.last → n.cur = some c → frameBit? c i = some b →
          exec (.fsmArbitration uid) s =
            .next (moved uid.toNat (wrote b (.txW .identifier i b) (.txR .identifier i b) m) [] s))
      ∧ (∀ b, n.pos = some (.txW .identifier i b) →
          exec (.fsmArbitration uid) s =
            .next (moved uid.toNat { n with pos := some (.txR .identifier i b) } [] (writeBy n.st b s)))
      ∧ (n.pos = some (.txR .identifier i s.busState) →
          exec (.fsmArbitration uid) s = .next (commit uid.toNat
            (arbIter (i + 1) (actOf { m with rxId := n.rxId <<< 1 ||| BitVec.ofNat 11 s.busState.toBool.toNat })) s))
      ∧ (∀ c b, n.pos = some (.txR .identifier i b) → b ≠ s.busState → n.cur = some c →
          exec (.fsmArbitration uid) s = .next (commit uid.toNat
            (arbIter (i + 1) (actOf { m with
              rxId := n.rxId <<< 1 ||| BitVec.ofNat 11 s.busState.toBool.toNat
              role := .receiver
              queue := c :: n.queue
              cur := none })) s))
      ∧ (n.pos = some (.arbRxSR i) → s.busState = n.readTrk.last →
          exec (.fsmArbitration uid) s = .next (commit uid.toNat (detect .stuff (actOf m)) s))
      ∧ (n.pos = some (.arbRxSR i) → s.busState ≠ n.readTrk.last →
          exec (.fsmArbitration uid) s = .next (moved uid.toNat { m with pos := some (.arbRxR i) } [] s))
      ∧ (n.pos = some (.arbRxR i) →
          exec (.fsmArbitration uid) s = .next (commit uid.toNat
            (arbIter (i + 1) (actOf { m with rxId := n.rxId <<< 1 ||| BitVec.ofNat 11 s.busState.toBool.toNat })) s))
      ∧ (isIn .arbitration n = false →
          exec (.fsmArbitration uid) s = .next (commit uid.toNat (arbIter 0 (actOf n)) s))

/-- R112, R113 (log 4 for the first line): the operation DLC on a node of an active bus. A Transmitter that reads back another bit than
it sent has a bit error; a Receiver shifts the bit into `rxDlc`; a stuff bit of the wrong polarity is an error in both roles. -/
def Obligations.DlcResult : Prop :=
  ∀ (s : State) (uid : Word) (n m : Node) (i : Nat), nodeAt s uid.toNat = some n → s.active = true →
    m = { n with readTrk := track n.readTrk s.busState } →
    (∀ b, n.pos = some (.txSW .dlc i b) →
        exec (.fsmDlc uid) s = .next (commit uid.toNat (txIter .dlc i (actOf n)) (writeBy n.st b s)))
      ∧ (n.pos = some (.txSR .dlc i) → s.busState = n.readTrk.last →
          exec (.fsmDlc uid) s = .next (commit uid.toNat (detect .stuff (actOf m)) s))
      ∧ (∀ c b, n.pos = some (.txSR .dlc i) → s.busState ≠ n.readTrk.last → n.cur = some c → frameBit? c i = some b →
          exec (.fsmDlc uid) s = .next (moved uid.toNat (wrote b (.txW .dlc i b) (.txR .dlc i b) m) [] s))
      ∧ (∀ b, n.pos = some (.txW .dlc i b) →
          exec (.fsmDlc uid) s = .next (moved uid.toNat { n with pos := some (.txR .dlc i b) } [] (writeBy n.st b s)))
      ∧ (n.pos = some (.txR .dlc i s.busState) →
          exec (.fsmDlc uid) s = .next (commit uid.toNat (dlcTx (i + 1) (actOf m)) s))
      ∧ (∀ b, n.pos = some (.txR .dlc i b) → b ≠ s.busState →
          exec (.fsmDlc uid) s = .next (commit uid.toNat (detect .bit (actOf m)) s))
      ∧ (n.pos = some (.dlcRxSR i) → s.busState = n.readTrk.last →
          exec (.fsmDlc uid) s = .next (commit uid.toNat (detect .stuff (actOf m)) s))
      ∧ (n.pos = some (.dlcRxSR i) → s.busState ≠ n.readTrk.last →
          exec (.fsmDlc uid) s = .next (moved uid.toNat { m with pos := some (.dlcRxR i) } [] s))
      ∧ (n.pos = some (.dlcRxR i) →
          exec (.fsmDlc uid) s = .next (commit uid.toNat
            (dlcRx (i + 1) (actOf { m with rxDlc := n.rxDlc <<< 1 ||| BitVec.ofNat 4 s.busState.toBool.toNat })) s))
      ∧ (isIn .dlc n = false → n.role = .transmitter →
          exec (.fsmDlc uid) s = .next (commit uid.toNat (dlcTx 11 (actOf n)) s))
      ∧ (isIn .dlc n = false → n.role = .receiver →
          exec (.fsmDlc uid) s = .next (commit uid.toNat (dlcRx 0 (actOf n)) s))

/-- R112, R114 (log 4 for the first line): the operation Data on a node of an active bus. A Receiver shifts each bit into `acc` and
appends every eighth one's byte to `rxData`; a Transmitter verifies each bit it sends. -/
def Obligations.DataResult : Prop :=
  ∀ (s : State) (uid : Word) (n m : Node) (i : Nat), nodeAt s uid.toNat = some n → s.active = true →
    m = { n with readTrk := track n.readTrk s.busState } →
    (∀ b, n.pos = some (.txSW .data i b) →
        exec (.fsmData uid) s = .next (commit uid.toNat (txIter .data i (actOf n)) (writeBy n.st b s)))
      ∧ (n.pos = some (.txSR .data i) → s.busState = n.readTrk.last →
          exec (.fsmData uid) s = .next (commit uid.toNat (detect .stuff (actOf m)) s))
      ∧ (∀ c b, n.pos = some (.txSR .data i) → s.busState ≠ n.readTrk.last → n.cur = some c → frameBit? c i = some b →
          exec (.fsmData uid) s = .next (moved uid.toNat (wrote b (.txW .data i b) (.txR .data i b) m) [] s))
      ∧ (∀ b, n.pos = some (.txW .data i b) →
          exec (.fsmData uid) s = .next (moved uid.toNat { n with pos := some (.txR .data i b) } [] (writeBy n.st b s)))
      ∧ (n.pos = some (.txR .data i s.busState) →
          exec (.fsmData uid) s = .next (commit uid.toNat (dataTx (i + 1) (actOf m)) s))
      ∧ (∀ b, n.pos = some (.txR .data i b) → b ≠ s.busState →
          exec (.fsmData uid) s = .next (commit uid.toNat (detect .bit (actOf m)) s))
      ∧ (∀ k acc, n.pos = some (.dataRxSR i k acc) → s.busState = n.readTrk.last →
          exec (.fsmData uid) s = .next (commit uid.toNat (detect .stuff (actOf m)) s))
      ∧ (∀ k acc, n.pos = some (.dataRxSR i k acc) → s.busState ≠ n.readTrk.last →
          exec (.fsmData uid) s = .next (moved uid.toNat { m with pos := some (.dataRxR i k acc) } [] s))
      ∧ (∀ k (acc x : Byte), x = acc <<< 1 ||| BitVec.ofNat 8 s.busState.toBool.toNat →
          n.pos = some (.dataRxR i k acc) → k + 1 < 8 →
          exec (.fsmData uid) s =
            .next (moved uid.toNat (checked (.dataRxSR i (k + 1) x) (.dataRxR i (k + 1) x) m) [] s))
      ∧ (∀ k (acc x : Byte), x = acc <<< 1 ||| BitVec.ofNat 8 s.busState.toBool.toNat →
          n.pos = some (.dataRxR i k acc) → 8 ≤ k + 1 →
          exec (.fsmData uid) s = .next (commit uid.toNat (dataByte (i + 1) (actOf { m with rxData := n.rxData ++ [x] })) s))
      ∧ (isIn .data n = false → exec (.fsmData uid) s = .next (commit uid.toNat (enterData (actOf n)) s))

/-- R115, R132, R133 (log 4 for the first line): the operation EOF on a node of an active bus. A Dominant bit is a bit error of a
Transmitter and a form error of a Receiver; the seventh Recessive bit delivers the frame: `TxDone` and then rule 7, or `RxFrame` and
then rule 8, and the node rests in Intermission with `prevRole` its role. -/
def Obligations.EofResult : Prop :=
  ∀ (s : State) (uid : Word) (n m : Node) (k : Nat), nodeAt s uid.toNat = some n → s.active = true →
    m = { n with readTrk := track n.readTrk s.busState } →
    (n.pos = some (.eofTxW k) →
        exec (.fsmEof uid) s = .next (moved uid.toNat { n with pos := some (.eofTxR k) } [] (writeBy n.st .recessive s)))
      ∧ (n.pos = some (.eofTxR k) → s.busState = .dominant →
          exec (.fsmEof uid) s = .next (commit uid.toNat (detect .bit (actOf m)) s))
      ∧ (n.pos = some (.eofTxR k) → s.busState = .recessive → k + 1 < 7 →
          exec (.fsmEof uid) s = .next (moved uid.toNat (wrote .recessive (.eofTxW (k + 1)) (.eofTxR (k + 1)) m) [] s))
      ∧ (∀ f, n.pos = some (.eofTxR k) → s.busState = .recessive → 7 ≤ k + 1 → n.cur = some f → n.tec = 0 →
          exec (.fsmEof uid) s =
            .next (moved uid.toNat (rested { m with cur := none, prevRole := n.role }) [.event (.txDone f)] s))
      ∧ (∀ f a, n.pos = some (.eofTxR k) → s.busState = .recessive → 7 ≤ k + 1 → n.cur = some f → 0 < n.tec →
          a = updateState { node := { m with cur := none, tec := n.tec - 1 }, effects := [.event (.txDone f)], fault := none } →
          exec (.fsmEof uid) s = .next (moved uid.toNat (rested { a.node with prevRole := n.role }) a.effects s))
      ∧ (n.pos = some (.eofRxR k) → s.busState = .dominant →
          exec (.fsmEof uid) s = .next (commit uid.toNat (detect .form (actOf m)) s))
      ∧ (n.pos = some (.eofRxR k) → s.busState = .recessive → k + 1 < 7 →
          exec (.fsmEof uid) s = .next (moved uid.toNat { m with pos := some (.eofRxR (k + 1)) } [] s))
      ∧ (n.pos = some (.eofRxR k) → s.busState = .recessive → 7 ≤ k + 1 → n.recCtr = 0 →
          exec (.fsmEof uid) s = .next (moved uid.toNat (rested { m with prevRole := n.role })
            [.event (.rxFrame n.rxId n.rxDlc n.rxData)] s))
      ∧ (∀ a, n.pos = some (.eofRxR k) → s.busState = .recessive → 7 ≤ k + 1 → 0 < n.recCtr →
          a = updateState
            { node := { m with recCtr := if 127 < n.recCtr then s.cfg.rule8Clamp else n.recCtr - 1 }
              effects := [.event (.rxFrame n.rxId n.rxDlc n.rxData)], fault := none } →
          exec (.fsmEof uid) s = .next (moved uid.toNat (rested { a.node with prevRole := n.role }) a.effects s))
      ∧ (isIn .eof n = false → n.role = .transmitter →
          exec (.fsmEof uid) s = .next (moved uid.toNat (wrote .recessive (.eofTxW 0) (.eofTxR 0) n) [] s))
      ∧ (isIn .eof n = false → n.role = .receiver →
          exec (.fsmEof uid) s = .next (moved uid.toNat { n with pos := some (.eofRxR 0) } [] s))

/-- R121, R130, R131 (log 4 for the first line; the overflow of a finite counter width is log 14): the flags of the operation Error on
a node of an active bus: an active flag is 6 Dominant bits and goes on, whatever is read, with rules 4 and 5 on a Recessive read; a
passive flag ends after 6 Recessive reads in a row, with rule 2 on its first bit for a Receiver. -/
def Obligations.ErrorFlagResult : Prop :=
  ∀ (s : State) (uid : Word) (n m : Node) (k : Nat), nodeAt s uid.toNat = some n → s.active = true → s.cfg.cntW = none →
    m = { n with readTrk := track n.readTrk s.busState } →
    (n.pos = some (.errAfW k) →
        exec (.fsmError uid) s = .next (moved uid.toNat { n with pos := some (.errAfR k) } [] (writeBy n.st .dominant s)))
      ∧ (n.pos = some (.errAfR k) → s.busState = .dominant → k + 1 < 6 →
          exec (.fsmError uid) s = .next (moved uid.toNat (wrote .dominant (.errAfW (k + 1)) (.errAfR (k + 1)) m) [] s))
      ∧ (n.pos = some (.errAfR k) → s.busState = .dominant → 6 ≤ k + 1 →
          exec (.fsmError uid) s = .next (moved uid.toNat (wrote .recessive .errD1W .errD1R m) [] s))
      ∧ (∀ a, n.pos = some (.errAfR k) → s.busState = .recessive →
          a = updateState (actOf (if n.role = .transmitter then { m with tec := n.tec + 8 } else { m with recCtr := n.recCtr + 8 })) →
          exec (.fsmError uid) s = .next (moved uid.toNat
            (if k + 1 < 6 then wrote .dominant (.errAfW (k + 1)) (.errAfR (k + 1)) a.node
             else wrote .recessive .errD1W .errD1R a.node) a.effects s))
      ∧ (∀ first, n.pos = some (.errPfW k first) →
          exec (.fsmError uid) s =
            .next (moved uid.toNat { n with pos := some (.errPfR k first) } [] (writeBy n.st .recessive s)))
      ∧ (∀ first, n.pos = some (.errPfR k first) → s.busState = .recessive → k + 1 < 6 →
          exec (.fsmError uid) s =
            .next (moved uid.toNat (wrote .recessive (.errPfW (k + 1) false) (.errPfR (k + 1) false) m) [] s))
      ∧ (∀ first, n.pos = some (.errPfR k first) → s.busState = .recessive → 6 ≤ k + 1 →
          exec (.fsmError uid) s = .next (moved uid.toNat (wrote .recessive .errD1W .errD1R m) [] s))
      ∧ (∀ first, n.pos = some (.errPfR k first) → s.busState = .dominant → (first = false ∨ n.role = .transmitter) →
          exec (.fsmError uid) s = .next (moved uid.toNat (wrote .recessive (.errPfW 0 false) (.errPfR 0 false) m) [] s))
      ∧ (∀ a, n.pos = some (.errPfR k true) → s.busState = .dominant → n.role = .receiver →
          a = updateState (actOf { m with recCtr := n.recCtr + 8 }) →
          exec (.fsmError uid) s =
            .next (moved uid.toNat (wrote .recessive (.errPfW 0 false) (.errPfR 0 false) a.node) a.effects s))
      ∧ (isIn .error n = false → exec (.fsmError uid) s = .next (moved uid.toNat
          (if n.st = .errorActive then wrote .dominant (.errAfW 0) (.errAfR 0) n
           else wrote .recessive (.errPfW 0 true) (.errPfR 0 true) n) [] s))

/-- R122, R162, R128, R129 (the overflow of a finite counter width is log 14): the delimiter of the operation Error on a node of an
active bus: Recessive is written until one Recessive bit is read, then 7 more bits, unchecked; then the deferred update is applied and
cleared, `prevRole` is the role, and the node rests in Intermission. -/
def Obligations.ErrorReturnResult : Prop :=
  ∀ (s : State) (uid : Word) (n m : Node) (k : Nat), nodeAt s uid.toNat = some n → s.active = true → s.cfg.cntW = none →
    m = { n with readTrk := track n.readTrk s.busState } →
    (n.pos = some .errD1W →
        exec (.fsmError uid) s = .next (moved uid.toNat { n with pos := some .errD1R } [] (writeBy n.st .recessive s)))
      ∧ (n.pos = some .errD1R → s.busState = .dominant →
          exec (.fsmError uid) s = .next (moved uid.toNat (wrote .recessive .errD1W .errD1R m) [] s))
      ∧ (n.pos = some .errD1R → s.busState = .recessive →
          exec (.fsmError uid) s = .next (moved uid.toNat (wrote .recessive (.errD2W 0) (.errD2R 0) m) [] s))
      ∧ (n.pos = some (.errD2W k) →
          exec (.fsmError uid) s = .next (moved uid.toNat { n with pos := some (.errD2R k) } [] (writeBy n.st .recessive s)))
      ∧ (n.pos = some (.errD2R k) → k + 1 < 7 →
          exec (.fsmError uid) s = .next (moved uid.toNat (wrote .recessive (.errD2W (k + 1)) (.errD2R (k + 1)) m) [] s))
      ∧ (∀ a, n.pos = some (.errD2R k) → 7 ≤ k + 1 →
          a = (match n.errorUpdate with
            | .none => actOf m
            | .recPlus1 => updateState (actOf { m with recCtr := n.recCtr + 1 })
            | .tecPlus8 => updateState (actOf { m with tec := n.tec + 8 })) →
          exec (.fsmError uid) s = .next (moved uid.toNat
            (rested { a.node with errorUpdate := .none, prevRole := n.role }) a.effects s))

/-- R73, R74, R160 (log 4 for a state's operation, log 3 for the stuffing primitives): on an inactive bus the bus call at which a step
starts or ends is the fault `IoOnInactiveBus`. At a blocking point of the state nothing else happens. A node elsewhere, in a run one that
has not started, runs from the state's first line to its first bus call, and the fault is raised there; a Transmitter without a frame can
meet the programmer error of log 18 before it. The trackers are counted before the bus write (R94), a BusOff node's write is no bus
I/O (R73), and a call that faults returns nothing. -/
def Obligations.InactiveBusFaults : Prop :=
  ∀ (s : State) (uid : Word) (n : Node), nodeAt s uid.toNat = some n → s.active = false →
    -- a stuff bit to write or to read comes before the first frame bit
    let stuffFirst : Prop := n.readTrk.count = 5 ∨ (n.writeTrk.count = 5 ∧ n.st ≠ .busOff)
    (isIn .intermission n = true → exec (.fsmIntermission uid) s = .next (raiseFault .ioOnInactiveBus s))
      ∧ (isIn .suspendTransmission n = true → exec (.fsmSuspendTransmission uid) s = .next (raiseFault .ioOnInactiveBus s))
      ∧ (isIn .busIdle n = true → exec (.fsmBusIdle uid) s = .next (raiseFault .ioOnInactiveBus s))
      ∧ (isIn .arbitration n = true → exec (.fsmArbitration uid) s = .next (raiseFault .ioOnInactiveBus s))
      ∧ (isIn .dlc n = true → exec (.fsmDlc uid) s = .next (raiseFault .ioOnInactiveBus s))
      ∧ (isIn .data n = true → exec (.fsmData uid) s = .next (raiseFault .ioOnInactiveBus s))
      ∧ (isIn .eof n = true → exec (.fsmEof uid) s = .next (raiseFault .ioOnInactiveBus s))
      ∧ (isIn .error n = true → exec (.fsmError uid) s = .next (raiseFault .ioOnInactiveBus s))
      -- a node elsewhere
      ∧ (isIn .intermission n = false →
          exec (.fsmIntermission uid) s = .next (raiseFault .ioOnInactiveBus (moved uid.toNat (rested n) [] s)))
      ∧ (isIn .suspendTransmission n = false → exec (.fsmSuspendTransmission uid) s =
          .next (raiseFault .ioOnInactiveBus (moved uid.toNat (wrote .recessive (.susW 0) (.susR 0) n) [] s)))
      ∧ (isIn .busIdle n = false →
          exec (.fsmBusIdle uid) s = .next (raiseFault .ioOnInactiveBus (moved uid.toNat (idled n) [] s)))
      ∧ (isIn .arbitration n = false → (n.role = .receiver ∨ n.cur.isSome = true ∨ stuffFirst) → exec (.fsmArbitration uid) s =
          .next (raiseFault .ioOnInactiveBus (commit uid.toNat (arbIter 0 (actOf n)) s)))
      ∧ (isIn .arbitration n = false → n.role = .transmitter → n.cur = none → ¬ stuffFirst →
          (arbIter 0 (actOf n)).fault = some .bitIndexOutOfRange
            ∧ exec (.fsmArbitration uid) s = .next (commit uid.toNat (arbIter 0 (actOf n)) s))
      ∧ (isIn .dlc n = false → n.role = .receiver → exec (.fsmDlc uid) s =
          .next (raiseFault .ioOnInactiveBus (commit uid.toNat (dlcRx 0 (actOf n)) s)))
      ∧ (isIn .dlc n = false → n.role = .transmitter → (n.cur.isSome = true ∨ stuffFirst) → exec (.fsmDlc uid) s =
          .next (raiseFault .ioOnInactiveBus (commit uid.toNat (dlcTx 11 (actOf n)) s)))
      ∧ (isIn .dlc n = false → n.role = .transmitter → n.cur = none → ¬ stuffFirst →
          (dlcTx 11 (actOf n)).fault = some .bitIndexOutOfRange
            ∧ exec (.fsmDlc uid) s = .next (commit uid.toNat (dlcTx 11 (actOf n)) s))
      ∧ (isIn .data n = false → exec (.fsmData uid) s =
          .next (raiseFault .ioOnInactiveBus (commit uid.toNat (enterData (actOf n)) s)))
      ∧ (isIn .eof n = false → exec (.fsmEof uid) s = .next (raiseFault .ioOnInactiveBus (moved uid.toNat
          (if n.role = .transmitter then wrote .recessive (.eofTxW 0) (.eofTxR 0) n else { n with pos := some (.eofRxR 0) }) [] s)))
      ∧ (isIn .error n = false → exec (.fsmError uid) s = .next (raiseFault .ioOnInactiveBus (moved uid.toNat
          (if n.st = .errorActive then wrote .dominant (.errAfW 0) (.errAfR 0) n
           else wrote .recessive (.errPfW 0 true) (.errPfR 0 true) n) [] s)))
      -- the stuffing primitives
      ∧ exec (.stuffReadBit uid) s = .next (raiseFault .ioOnInactiveBus s)
      ∧ (n.readTrk.count = 5 → exec (.stuffMaybeReadStuff uid) s = .next (raiseFault .ioOnInactiveBus s))
      ∧ (n.readTrk.count ≠ 5 → exec (.stuffMaybeReadStuff uid) s = .next (answer (.truth true) s))
      ∧ (n.st ≠ .busOff → ∀ b, exec (.stuffWriteBit uid b) s =
          .next (raiseFault .ioOnInactiveBus (setNode s uid.toNat { n with writeTrk := track n.writeTrk b })))
      ∧ (n.st = .busOff → ∀ b, exec (.stuffWriteBit uid b) s =
          .next (setNode s uid.toNat { n with writeTrk := track n.writeTrk b }))
      ∧ (n.writeTrk.count = 5 → n.st ≠ .busOff → exec (.stuffMaybeWriteStuff uid) s =
          .next (raiseFault .ioOnInactiveBus (setNode s uid.toNat
            { n with writeTrk := { last := n.writeTrk.last.flip, count := 1 } })))
      ∧ (n.writeTrk.count = 5 → n.st = .busOff → exec (.stuffMaybeWriteStuff uid) s =
          .next (answer (.truth true) (setNode s uid.toNat { n with writeTrk := { last := n.writeTrk.last.flip, count := 1 } })))
      ∧ (n.writeTrk.count ≠ 5 → exec (.stuffMaybeWriteStuff uid) s = .next (answer (.truth false) s))

/-- R102: after a read completes a node is in its protocol state or in one the table of R102 leads to, where a step may pass through
Data, from DLC to EOF, when there are no data bits; after a write completes it is in the same state. -/
def Obligations.TransitionTable : Prop :=
  ∀ (cfg : Config.Params) (n : Node) (b : Bit) (p q : Point), n.pos = some p →
    ((readStep cfg n b).node.pos = some q → pointPs q ∈ nextPs (pointPs p))
      ∧ ((writeStep n).node.pos = some q → pointPs q = pointPs p)

/-! ### Fault confinement -/

/-- R136, R137, and R134 and R135 for the rest: `updateState()` makes at most one transition, the one its table gives, with its
events: from ErrorPassive to BusOff if `tec > 255`, whatever `rec`, and back to ErrorActive if both counters are below 128. Nothing else
changes, and BusOff has no transition. -/
def Obligations.StateTransitions : Prop :=
  ∀ (s : State) (uid : Word) (n : Node), nodeAt s uid.toNat = some n →
    (n.st = .errorActive → (127 < n.tec ∨ 127 < n.recCtr) →
        exec (.fcUpdateState uid) s = .next (moved uid.toNat { n with st := .errorPassive }
          [.event (.stateChange .errorActive .errorPassive n.tec n.recCtr)] s))
      ∧ (n.st = .errorPassive → 255 < n.tec →
          exec (.fcUpdateState uid) s = .next (moved uid.toNat { n with st := .busOff }
            (.event (.stateChange .errorPassive .busOff n.tec n.recCtr) :: .event .busOff :: (n.busOffFunc.toList.map .call)) s))
      ∧ (n.st = .errorPassive → n.tec < 128 → n.recCtr < 128 →
          exec (.fcUpdateState uid) s = .next (moved uid.toNat { n with st := .errorActive }
            [.event (.stateChange .errorPassive .errorActive n.tec n.recCtr)] s))
      ∧ ((n.st = .errorActive ∧ n.tec ≤ 127 ∧ n.recCtr ≤ 127) ∨ (n.st = .errorPassive ∧ n.tec ≤ 255 ∧ (127 < n.tec ∨ 127 < n.recCtr))
            ∨ n.st = .busOff → exec (.fcUpdateState uid) s = .next s)

/-- R126, R128 to R133: each counter rule changes its counter by its amount and then runs `updateState()`; rules 7 and 8 do nothing to
a counter of 0; an increment past a finite width is the fault `CounterOverflow` (log 14). -/
def Obligations.CounterRules : Prop :=
  ∀ (s : State) (uid : Word) (n : Node), nodeAt s uid.toNat = some n →
    let tecUp : Node := { n with tec := n.tec + 8 }
    let recUp (k : Nat) : Node := { n with recCtr := n.recCtr + k }
    let fits (v : Nat) : Prop := ∀ w, s.cfg.cntW = some w → v < 2 ^ w
    (fits (n.tec + 8) → exec (.fcTecPlus8 uid) s = .next (commit uid.toNat (updateState (actOf tecUp)) s))
      ∧ (¬ fits (n.tec + 8) → exec (.fcTecPlus8 uid) s = .next (raiseFault .counterOverflow s))
      ∧ (fits (n.recCtr + 1) → exec (.fcRecPlus1 uid) s = .next (commit uid.toNat (updateState (actOf (recUp 1))) s))
      ∧ (¬ fits (n.recCtr + 1) → exec (.fcRecPlus1 uid) s = .next (raiseFault .counterOverflow s))
      ∧ (fits (n.recCtr + 8) → exec (.fcRule2 uid) s = .next (commit uid.toNat (updateState (actOf (recUp 8))) s))
      ∧ (¬ fits (n.recCtr + 8) → exec (.fcRule2 uid) s = .next (raiseFault .counterOverflow s))
      ∧ (n.role = .transmitter → fits (n.tec + 8) →
          exec (.fcRule45 uid) s = .next (commit uid.toNat (updateState (actOf tecUp)) s))
      ∧ (n.role = .transmitter → ¬ fits (n.tec + 8) → exec (.fcRule45 uid) s = .next (raiseFault .counterOverflow s))
      ∧ (n.role = .receiver → fits (n.recCtr + 8) →
          exec (.fcRule45 uid) s = .next (commit uid.toNat (updateState (actOf (recUp 8))) s))
      ∧ (n.role = .receiver → ¬ fits (n.recCtr + 8) → exec (.fcRule45 uid) s = .next (raiseFault .counterOverflow s))
      ∧ (n.tec = 0 → exec (.fcRule7 uid) s = .next s)
      ∧ (0 < n.tec → exec (.fcRule7 uid) s = .next (commit uid.toNat (updateState (actOf { n with tec := n.tec - 1 })) s))
      ∧ (n.recCtr = 0 → exec (.fcRule8 uid) s = .next s)
      ∧ (0 < n.recCtr → n.recCtr ≤ 127 →
          exec (.fcRule8 uid) s = .next (commit uid.toNat (updateState (actOf { n with recCtr := n.recCtr - 1 })) s))
      ∧ (127 < n.recCtr →
          exec (.fcRule8 uid) s = .next (commit uid.toNat (updateState (actOf { n with recCtr := s.cfg.rule8Clamp })) s))

/-- R135 to R138: the operations that are parts of `updateState()`. Rules 9, 10 and 11 make the one transition of their rule under its
condition, with the events of `updateState()` (log 5), and change nothing otherwise. `enterBusOff()` emits `BusOff` and invokes the
callback, if one is installed; no register of the node changes. The model's choice, not R155's: the callback issues the fixed list of
its handle (log 7), at a boundary for this very boundary (log 25); the call is recorded (log 21), the stamp has the phase (log 24). -/
def Obligations.TransitionOperations : Prop :=
  ∀ (s : State) (uid : Word) (n : Node), nodeAt s uid.toNat = some n →
    (n.st = .errorActive → (127 < n.tec ∨ 127 < n.recCtr) →
        exec (.fcRule9 uid) s = .next (moved uid.toNat { n with st := .errorPassive }
          [.event (.stateChange .errorActive .errorPassive n.tec n.recCtr)] s))
      ∧ (n.st ≠ .errorActive ∨ (n.tec ≤ 127 ∧ n.recCtr ≤ 127) → exec (.fcRule9 uid) s = .next s)
      ∧ (n.st = .errorPassive → 255 < n.tec →
          exec (.fcRule10 uid) s = .next (moved uid.toNat { n with st := .busOff }
            (.event (.stateChange .errorPassive .busOff n.tec n.recCtr) :: .event .busOff :: (n.busOffFunc.toList.map .call)) s))
      ∧ (n.st ≠ .errorPassive ∨ n.tec ≤ 255 → exec (.fcRule10 uid) s = .next s)
      ∧ (n.st = .errorPassive → n.tec < 128 → n.recCtr < 128 →
          exec (.fcRule11 uid) s = .next (moved uid.toNat { n with st := .errorActive }
            [.event (.stateChange .errorPassive .errorActive n.tec n.recCtr)] s))
      ∧ (n.st ≠ .errorPassive ∨ 127 < n.tec ∨ 127 < n.recCtr → exec (.fcRule11 uid) s = .next s)
      ∧ exec (.fcBusOff uid) s = .next { s with
          events := s.events ++
            [{ period := if s.active then some s.period else none, phase := s.phase, uid := n.uid, kind := .busOff }]
          calls := s.calls ++ n.busOffFunc.toList.map fun h =>
            { period := if s.active then some s.period else none, uid := n.uid, handle := h }
          issued := s.issued ++ n.busOffFunc.toList.flatMap (callbackCommands s.hostCode) }

/-- R140: after every `updateState()`, an ErrorActive node's counters are at most 127, and a node that became BusOff has
`tec > 255`. -/
def Obligations.CountersAfterUpdate : Prop :=
  ∀ a : Act,
    ((updateState a).node.st = .errorActive → (updateState a).node.tec ≤ 127 ∧ (updateState a).node.recCtr ≤ 127)
      ∧ ((updateState a).node.st = .busOff → a.node.st ≠ .busOff → 255 < (updateState a).node.tec)
      ∧ (updateState a).node.tec = a.node.tec ∧ (updateState a).node.recCtr = a.node.recCtr

/-- R139: nothing moves a node out of BusOff, whatever the instruction. -/
def Obligations.BusOffPermanent : Prop :=
  ∀ (i : Instr) (s t : State) (u : Nat) (n : Node), exec i s = .next t → s.participants[u]? = some (.node n) → n.st = .busOff →
    ∃ m, t.participants[u]? = some (.node m) ∧ m.st = .busOff

/-! ### The whole machine -/

/-- R16, R17, R20, R21, R36, R38, R153, R160: whatever the instruction, no participant is removed and none changes its uid, its
identifier or its script; `active` and `halted` are never cleared, nor is a fault; the period count never goes back; the streams only
grow; the parameters stay. -/
def Obligations.IdentitiesKept : Prop :=
  ∀ (i : Instr) (s t : State), exec i s = .next t →
    s.participants.map identityOf <+: t.participants.map identityOf
      ∧ (s.active = true → t.active = true) ∧ (s.halted = true → t.halted = true)
      ∧ (s.fault.isSome = true → t.fault.isSome = true)
      ∧ s.period ≤ t.period
      ∧ s.events <+: t.events ∧ s.calls <+: t.calls ∧ s.results <+: t.results ∧ s.trace <+: t.trace
      ∧ t.cfg = s.cfg ∧ t.bitrate = s.bitrate ∧ t.hostCode = s.hostCode

/-- R16, R140, R75, R156, R141: every step, whatever packet it runs, keeps the uids dense, the counters of every ErrorActive node at most
127, the loop stopped or at a boundary, one line of the trace for each period, and no period before activation. -/
def Obligations.StepKeepsInv : Prop := ∀ s t : State, Inv s = true → step s = .next t → Inv t = true

/-- R105 to R123, R35, R29, R86, R160: in a run driven by host commands every step keeps every node at a blocking point its role, its
frame, its deferred update and its loop counters fit, a BusOff node at a read, and raises no programmer error. -/
def Obligations.StepKeepsHostInv : Prop := ∀ s t : State, HostInv s = true → step s = .next t → HostInv t = true

/-- R60, R116, R124: a transmitter alone on the bus, about to send SOF, puts the stuffed region of its frame and 7 Recessive bits on the
wire, one bit a period, and then has emitted `TxDone` for it in the last of these periods. -/
def Obligations.LoneFrameOnWire : Prop :=
  ∀ (s : State) (n : Node) (f : Frame),
    running s = true → s.cfg.missedPhases = false → s.participants = [.node n] → nodeOk true n = true → n.st ≠ .busOff →
    n.pos = some .idleSofW → n.cur = some f → n.writeTrk = { last := .dominant, count := 1 } → n.readTrk.last = .recessive →
    ∃ t, runPeriods ((stuffEncode (stuffedRegion f)).length + 7) s = some t
      ∧ t.trace.map (·.bus) = s.trace.map (·.bus) ++ stuffEncode (stuffedRegion f) ++ List.replicate 7 .recessive
      ∧ ∃ more, t.events =
          s.events ++ { period := some t.period, phase := .read, uid := n.uid, kind := .txDone f } :: more

/-- R101, R111, R113, R114, R115: a Receiver that has read SOF and then reads the rest of a frame's stuffed region and 7 Recessive bits
reports exactly the frame: its identifier, its DLC and its bytes, with no stuff bit among them. -/
def Obligations.ReceiverGetsFrame : Prop :=
  ∀ (cfg : Config.Params) (n : Node) (f : Frame),
    n.pos = some (.arbRxR 0) → n.role = .receiver → n.readTrk = { last := .dominant, count := 1 } →
    n.rxId = 0 → n.rxDlc = 0 → n.rxData = [] →
    ∃ more, (readAll cfg n ((stuffEncode (stuffedRegion f)).tail ++ List.replicate 7 .recessive)).2 =
      .event (.rxFrame f.id (frameDlc f) f.data) :: more
end

