-- ==== Sys2Proof/Laws/Node.lean ====
section
/-! SUPPORT. What the shared operations of a node's step do, each said once in the words of Sys2Proof/Safety.lean, and how an
operation on a protocol state reaches them. -/

namespace Sys2Proof.Machine

/-! ### Bits, trackers and frames -/

/-- A bit is not its opposite (R7). -/
theorem Bit.ne_flip (b : Bit) : ¬ b = b.flip := by cases b <;> decide

/-- A bit that is not another is its opposite (R7). -/
theorem Bit.eq_flip_of_ne {a b : Bit} (h : a ≠ b) : a = b.flip := by cases a <;> cases b <;> simp_all [Bit.flip]

/-- The tracker after an equal bit (R94, R95). -/
theorem track_same {t : Tracker} {b : Bit} (h : t.last = b) : track t b = { last := b, count := t.count + 1 } := by
  subst h; simp [track]

/-- The tracker after another bit (R94, R95). -/
theorem track_other {t : Tracker} {b : Bit} (h : t.last ≠ b) : track t b = { last := b, count := 1 } := by simp [track, h]

/-- A stuff bit starts a run of 1 (R96). -/
theorem track_flip (t : Tracker) : track t t.last.flip = { last := t.last.flip, count := 1 } :=
  track_other (Bit.ne_flip t.last)

/-- When a stuff bit is due (R93). -/
theorem stuffDue_iff (t : Tracker) : stuffDue t = true ↔ t.count = 5 := by simp [stuffDue, Config.stuffRun]

/-- A frame's DLC is its payload's length (R57). -/
theorem frameDlc_toNat (f : Frame) : (frameDlc f).toNat = f.data.length := by
  have := f.short
  simp [frameDlc]; omega

/-- Every index below `size()` has a bit (R86). -/
theorem frameBit?_isSome {f : Frame} {i : Nat} (h : i < frameSize f) : ∃ b, frameBit? f i = some b := by
  unfold frameBit?; rw [if_pos h]
  split
  · exact ⟨_, rfl⟩
  · split <;> exact ⟨_, rfl⟩

/-- No index from `size()` on has a bit (R86). -/
theorem frameBit?_none {f : Frame} {i : Nat} (h : frameSize f ≤ i) : frameBit? f i = none := by
  unfold frameBit?; rw [if_neg (by omega)]

/-! ### Blocking -/

/-- A write and its read-back, as registers (R94, R73). -/
theorem writeThenRead_eq (b : Bit) (w r : Point) (a : Act) : writeThenRead b w r a = { a with node := wrote b w r a.node } := by
  unfold writeThenRead writeBit wrote blockAt onRegs trackWrite
  cases h : a.node.st <;> simp

/-- A Receiver's stuff check, as registers (R97). -/
theorem check_eq (sr r : Point) (a : Act) :
    (if stuffDue a.node.readTrk then blockAt sr a else blockAt r a) = { a with node := checked sr r a.node } := by
  simp only [stuffDue, Config.stuffRun, checked, blockAt, onRegs, beq_iff_eq]
  split <;> rfl

theorem arbCheck_eq (i : Nat) (a : Act) : arbCheck i a = { a with node := checked (.arbRxSR i) (.arbRxR i) a.node } :=
  check_eq _ _ a

theorem dlcCheck_eq (k : Nat) (a : Act) : dlcCheck k a = { a with node := checked (.dlcRxSR k) (.dlcRxR k) a.node } :=
  check_eq _ _ a

theorem dataCheck_eq (j k : Nat) (acc : Byte) (a : Act) :
    dataCheck j k acc a = { a with node := checked (.dataRxSR j k acc) (.dataRxR j k acc) a.node } := check_eq _ _ a

/-! ### First lines -/

/-- The first line of BusIdle (R107). -/
theorem enterBusIdle_eq (a : Act) : enterBusIdle a = { a with node := idled a.node } := by
  unfold enterBusIdle popFront idled
  cases h : a.node.queue <;> simp [writeThenRead_eq, blockAt, onRegs, rxInit, h]

/-- A node that hears another's SOF (R106, R107). -/
theorem receive_eq (a : Act) : receive a = { a with node := heardSof a.node } := by
  unfold receive enterArbitration arbIter
  simp only [onRegs, rxInit, Config.idBits, Nat.zero_lt_succ, if_true, arbCheck_eq, heardSof]

/-- The first line of Intermission (R105). -/
theorem enterIntermission_eq (a : Act) : enterIntermission a = { a with node := rested a.node } := by
  simp [enterIntermission, intermissionBit, writeThenRead_eq, onRegs, resetFrame, rested, Tracker.reset]

/-- The first line of Error (R121). -/
theorem enterError_eq (a : Act) :
    enterError a = { a with node :=
      (if a.node.st = .errorActive then wrote .dominant (.errAfW 0) (.errAfR 0) a.node
       else wrote .recessive (.errPfW 0 true) (.errPfR 0 true) a.node) } := by
  unfold enterError activeFlag passiveFlag
  simp only [writeThenRead_eq]
  cases h : a.node.st <;> simp

/-! ### The fault-confinement tail -/

/-- What `updateState()` does to the registers and the effects, for every act (R134). -/
theorem updateState_eq (a : Act) :
    updateState a = { a with
      node := { a.node with st := updateTarget a.node }
      effects := a.effects ++
        (if updateTarget a.node = a.node.st then []
         else Effect.event (.stateChange a.node.st (updateTarget a.node) a.node.tec a.node.recCtr) ::
          (if updateTarget a.node = .busOff then Effect.event .busOff :: a.node.busOffFunc.toList.map Effect.call
           else [])) } := by
  unfold updateState moveTo
  split
  · rename_i h; rw [h]; simp
  · by_cases h : updateTarget a.node = .busOff
    · cases hf : a.node.busOffFunc <;> simp [h, enterBusOff, emit, onRegs, hf]
    · simp [h, emit, onRegs]

/-! ### From an operation on a protocol state to the node's step -/

theorem isIn_eq_true {ps : Ps} {n : Node} : isIn ps n = true ↔ ∃ p, n.pos = some p ∧ pointPs p = ps := by
  unfold isIn; cases n.pos <;> simp

/-- A node at a read point of the state, on an active bus (R74, R76). -/
theorem stateStep_read (ps : Ps) {uid : Word} {s : State} {n : Node} {p : Point} (hn : nodeAt s uid.toNat = some n)
    (ha : s.active = true) (hp : n.pos = some p) (hps : pointPs p = ps) (hr : pointOp p = .read) :
    stateStep ps uid s = .next (commit uid.toNat
      (fromRead s.cfg p n.readTrk.last s.busState (actOf { n with readTrk := track n.readTrk s.busState })) s) := by
  simp [stateStep, hn, hp, hps, hr, resumeNode, ha, readStep, trackRead]

/-- A node at a write point of the state, on an active bus (R73, R76). -/
theorem stateStep_write (ps : Ps) {uid : Word} {s : State} {n : Node} {p : Point} {b : Bit}
    (hn : nodeAt s uid.toNat = some n) (ha : s.active = true) (hp : n.pos = some p) (hps : pointPs p = ps)
    (hr : pointOp p = .write b) :
    stateStep ps uid s = .next (commit uid.toNat (fromWrite p (actOf n)) (writeBy n.st b s)) := by
  simp [stateStep, hn, hp, hps, hr, resumeNode, ha, writeStep]

/-- A node that is not in the state, on an active bus (log 4). -/
theorem stateStep_start (ps : Ps) {uid : Word} {s : State} {n : Node} (hn : nodeAt s uid.toNat = some n)
    (ha : s.active = true) (hi : isIn ps n = false) :
    stateStep ps uid s = .next (commit uid.toNat (enterPs ps (actOf n)) s) := by
  unfold stateStep
  simp only [hn]
  cases hp : n.pos with
  | none => simp [startState, busCall, ha]
  | some p => simp [isIn, hp] at hi; simp [hi, startState, busCall, ha]

/-! ### The state around a node's step -/

/-- The node a uid names is the participant there (R142). -/
theorem nodeAt_eq_some {s : State} {u : Nat} {n : Node} : nodeAt s u = some n ↔ s.participants[u]? = some (.node n) := by
  unfold nodeAt
  cases s.participants[u]? with
  | none => simp
  | some p => cases p <;> simp

/-- Writing back the registers a node has changes nothing. -/
theorem setNode_self {s : State} {u : Nat} {n : Node} (h : nodeAt s u = some n) : setNode s u n = s := by
  rw [nodeAt_eq_some, List.getElem?_eq_some_iff] at h
  obtain ⟨hl, he⟩ := h
  unfold setNode
  rw [← he, List.set_getElem_self]

/-- A step without effects and fault only writes the node's registers. -/
theorem commit_actOf (u : Nat) (n : Node) (s : State) : commit u (actOf n) s = setNode s u n := by
  simp [commit, actOf, raiseAny, absorb]

/-- A step that only raises a fault only writes the registers and sets the fault (R160). -/
theorem commit_of_fault (u : Nat) (n : Node) (r : FaultReason) (s : State) :
    commit u { node := n, effects := [], fault := some r } s = raiseFault r (setNode s u n) := by
  simp [commit, raiseAny, absorb]

/-! ### Whether a counter fits its width (R126) -/

theorem counterFits_iff (cfg : Config.Params) (v : Nat) : counterFits cfg v = true ↔ ∀ w, cfg.cntW = some w → v < 2 ^ w := by
  unfold counterFits; cases cfg.cntW <;> simp

end Sys2Proof.Machine
end

