-- ==== Sys2Proof/Laws/Keep.lean ====
section
/-! SUPPORT. What every step of a node keeps: its uid, its identifier, its handles, BusOff, and R140. Said once for each function of
the pseudocode, so that no later proof unfolds one for it. -/

namespace Sys2Proof.Machine

/-- What of a node no instruction changes, and what it cannot leave (R20, R21, R139, R140). -/
structure Kept (n m : Node) : Prop where
  uid : m.uid = n.uid
  id : m.id = n.id
  busOff : n.st = .busOff → m.st = .busOff
  counters : countersOk n = true → countersOk m = true

theorem Kept.refl (n : Node) : Kept n n := ⟨rfl, rfl, fun e => e, fun e => e⟩

theorem Kept.trans {n m k : Node} (h : Kept n m) (g : Kept m k) : Kept n k :=
  ⟨g.uid.trans h.uid, g.id.trans h.id, fun e => g.busOff (h.busOff e), fun e => g.counters (h.counters e)⟩

/-- A change of registers other than the uid, the identifier and those of fault confinement keeps all of them. -/
theorem Kept.of_eq {n m : Node} (h1 : m.uid = n.uid) (h2 : m.id = n.id) (h5 : m.st = n.st) (h6 : m.tec = n.tec)
    (h7 : m.recCtr = n.recCtr) : Kept n m :=
  ⟨h1, h2, fun e => h5.trans e, fun e => by unfold countersOk at e ⊢; rw [h5, h6, h7]; exact e⟩

/-- Registers agree on everything a step of the protocol state machine leaves to fault confinement. -/
def Quiet (n m : Node) : Prop :=
  m.uid = n.uid ∧ m.id = n.id ∧ m.behavior = n.behavior ∧ m.busOffFunc = n.busOffFunc ∧ m.st = n.st ∧ m.tec = n.tec
    ∧ m.recCtr = n.recCtr

theorem Quiet.kept {n m : Node} (h : Quiet n m) : Kept n m :=
  Kept.of_eq h.1 h.2.1 h.2.2.2.2.1 h.2.2.2.2.2.1 h.2.2.2.2.2.2

theorem Quiet.refl (n : Node) : Quiet n n := ⟨rfl, rfl, rfl, rfl, rfl, rfl, rfl⟩

theorem Quiet.trans {n m k : Node} (h : Quiet n m) (g : Quiet m k) : Quiet n k := by
  unfold Quiet at *; simp_all

/-! ### Quiet functions -/

theorem wrote_quiet (b : Bit) (w r : Point) (n : Node) : Quiet n (wrote b w r n) := Quiet.refl n

theorem checked_quiet (sr r : Point) (n : Node) : Quiet n (checked sr r n) := Quiet.refl n

theorem rested_quiet (n : Node) : Quiet n (rested n) := Quiet.refl n

theorem heardSof_quiet (n : Node) : Quiet n (heardSof n) := Quiet.refl n

theorem idled_quiet (n : Node) : Quiet n (idled n) := by unfold idled; split <;> exact Quiet.refl n

theorem pushback_quiet (n : Node) : Quiet n (pushback n) := by unfold pushback; split <;> exact Quiet.refl n

theorem txSend_quiet (f : Field) (i : Nat) (a : Act) : Quiet a.node (txSend f i a).node := by
  unfold txSend; split
  · exact Quiet.refl _
  · rw [writeThenRead_eq]; exact Quiet.refl _

theorem txCheck_quiet (f : Field) (i : Nat) (a : Act) : Quiet a.node (txCheck f i a).node := by
  unfold txCheck; split
  · exact Quiet.refl _
  · exact txSend_quiet f i a

theorem txIter_quiet (f : Field) (i : Nat) (a : Act) : Quiet a.node (txIter f i a).node := by
  unfold txIter; split
  · unfold writeBit; split
    · exact (Quiet.refl a.node).trans (txCheck_quiet f i _)
    · exact Quiet.refl _
    · exact Quiet.refl _
  · exact txCheck_quiet f i a

theorem enterEof_quiet (a : Act) : Quiet a.node (enterEof a).node := by
  unfold enterEof eofWrite; split
  · rw [writeThenRead_eq]; exact Quiet.refl _
  · exact Quiet.refl _

theorem dataByte_quiet (j : Nat) (a : Act) : Quiet a.node (dataByte j a).node := by
  unfold dataByte; split
  · rw [dataCheck_eq]; exact Quiet.refl _
  · exact enterEof_quiet a

theorem dataTx_quiet (i : Nat) (a : Act) : Quiet a.node (dataTx i a).node := by
  unfold dataTx; split
  · exact txIter_quiet _ _ a
  · exact enterEof_quiet a

theorem enterData_quiet (a : Act) : Quiet a.node (enterData a).node := by
  unfold enterData; split
  · exact dataTx_quiet _ a
  · exact dataByte_quiet _ a

theorem dlcTx_quiet (i : Nat) (a : Act) : Quiet a.node (dlcTx i a).node := by
  unfold dlcTx; split
  · exact txIter_quiet _ _ a
  · exact enterData_quiet a

theorem dlcRx_quiet (k : Nat) (a : Act) : Quiet a.node (dlcRx k a).node := by
  unfold dlcRx; split
  · rw [dlcCheck_eq]; exact Quiet.refl _
  · exact enterData_quiet a

theorem enterDlc_quiet (a : Act) : Quiet a.node (enterDlc a).node := by
  unfold enterDlc; split
  · exact dlcTx_quiet _ a
  · exact dlcRx_quiet _ a

theorem arbIter_quiet (i : Nat) (a : Act) : Quiet a.node (arbIter i a).node := by
  unfold arbIter; split
  · split
    · exact txIter_quiet _ _ a
    · rw [arbCheck_eq]; exact Quiet.refl _
  · exact enterDlc_quiet a

theorem enterBusIdle_quiet (a : Act) : Quiet a.node (enterBusIdle a).node := by
  rw [enterBusIdle_eq]; exact idled_quiet _

theorem receive_quiet (a : Act) : Quiet a.node (receive a).node := by rw [receive_eq]; exact heardSof_quiet _

theorem enterIntermission_quiet (a : Act) : Quiet a.node (enterIntermission a).node := by
  rw [enterIntermission_eq]; exact rested_quiet _

theorem enterError_quiet (a : Act) : Quiet a.node (enterError a).node := by
  rw [enterError_eq]; dsimp only; split <;> exact Quiet.refl _

theorem saveError_quiet (n : Node) : Quiet n (saveError n) := by
  unfold saveError; split
  · exact pushback_quiet _
  · exact Quiet.refl _

theorem detect_quiet (kind : ErrorKind) (a : Act) : Quiet a.node (detect kind a).node :=
  (saveError_quiet a.node).trans (enterError_quiet _)

theorem writeThenRead_quiet (b : Bit) (w r : Point) (a : Act) : Quiet a.node (writeThenRead b w r a).node := by
  rw [writeThenRead_eq]; exact Quiet.refl _

/-! ### Fault confinement -/

/-- After any transition R134 allows, an ErrorActive node's counters are at most 127 (R140). -/
theorem updateTarget_counters (n : Node) : countersOk { n with st := updateTarget n } = true := by
  unfold updateTarget countersOk
  split
  · unfold rule9Target; split
    · rfl
    · rename_i h1 h2; simp_all [Config.passiveLimit]
  · unfold rule10Target rule11Target; split
    · split <;> simp_all
    · split
      · rename_i h; simp [h.2.1, h.2.2]
      · simp_all
  · rfl

theorem updateTarget_busOff {n : Node} (h : n.st = .busOff) : updateTarget n = .busOff := by unfold updateTarget; simp [h]

/-- `updateState()` after a change of the counters (R23, R134): whatever they were changed to, R140 holds. -/
theorem updateState_kept (n : Node) (a : Act) (h1 : a.node.uid = n.uid) (h2 : a.node.id = n.id) (h5 : a.node.st = n.st) :
    Kept n (updateState a).node := by
  rw [updateState_eq]
  exact ⟨h1, h2, fun h => updateTarget_busOff (h5.trans h), fun _ => updateTarget_counters a.node⟩

/-- The one transition of rules 9, 10 and 11 taken alone (log 5). -/
theorem moveTo_node (next : FcState) (a : Act) : (moveTo next a).node = { a.node with st := next } := by
  unfold moveTo; split
  · rename_i h; rw [h]
  · dsimp only; split
    · unfold enterBusOff; split <;> rfl
    · rfl

theorem addTec_kept (cfg : Config.Params) (k : Nat) (a : Act) : Kept a.node (addTec cfg k a).node := by
  unfold addTec; split
  · exact updateState_kept _ _ rfl rfl rfl
  · exact Kept.refl _

theorem addRec_kept (cfg : Config.Params) (k : Nat) (a : Act) : Kept a.node (addRec cfg k a).node := by
  unfold addRec; split
  · exact updateState_kept _ _ rfl rfl rfl
  · exact Kept.refl _

theorem rule45_kept (cfg : Config.Params) (a : Act) : Kept a.node (rule45 cfg a).node := by
  unfold rule45; split
  · exact addTec_kept cfg 8 a
  · exact addRec_kept cfg 8 a

theorem rule7_kept (a : Act) : Kept a.node (rule7 a).node := by
  unfold rule7; split
  · exact updateState_kept _ _ rfl rfl rfl
  · exact Kept.refl _

theorem rule8_kept (cfg : Config.Params) (a : Act) : Kept a.node (rule8 cfg a).node := by
  unfold rule8; split
  · exact updateState_kept _ _ rfl rfl rfl
  · exact Kept.refl _

theorem applyErrorUpdate_kept (cfg : Config.Params) (a : Act) : Kept a.node (applyErrorUpdate cfg a).node := by
  unfold applyErrorUpdate; split
  · exact Kept.refl _
  · exact addTec_kept cfg 8 a
  · exact addRec_kept cfg 1 a

theorem andThen_kept {n : Node} {a : Act} {f : Act → Act} (h : Kept n a.node) (g : Kept a.node (f a).node) :
    Kept n (andThen a f).node := by
  unfold andThen; split
  · exact h.trans g
  · exact h

/-! ### A node's whole step -/

theorem onRegs_quiet {f : Node → Node} (a : Act) (h : Quiet a.node (f a.node)) : Quiet a.node (onRegs f a).node := h

theorem endIntermission_quiet (a : Act) : Quiet a.node (endIntermission a).node := by
  unfold endIntermission; split
  · exact writeThenRead_quiet _ _ _ a
  · exact enterBusIdle_quiet a

theorem endFrame_quiet (a : Act) : Quiet a.node (endFrame a).node :=
  (Quiet.refl a.node).trans (enterIntermission_quiet (onRegs _ a))

theorem deliver_quiet (a : Act) : Quiet a.node (deliver a).node := by unfold deliver; split <;> exact Quiet.refl _

theorem afterTxBit_quiet (f : Field) (i : Nat) (sent b : Bit) (a : Act) : Quiet a.node (afterTxBit f i sent b a).node := by
  unfold afterTxBit
  split <;> split
  · exact (Quiet.refl a.node).trans (arbIter_quiet _ (onRegs (shiftId b) a))
  · refine Quiet.trans (m := arbitrationLost (shiftId b a.node)) ?_ (arbIter_quiet _ (onRegs _ a))
    exact (Quiet.refl a.node).trans (pushback_quiet _)
  · exact dlcTx_quiet _ a
  · exact detect_quiet _ a
  · exact dataTx_quiet _ a
  · exact detect_quiet _ a

/-- A node's step from a read keeps what every step keeps. -/
theorem fromRead_kept (cfg : Config.Params) (p : Point) (prev b : Bit) (a : Act) : Kept a.node (fromRead cfg p prev b a).node := by
  unfold fromRead
  cases p <;> dsimp only
  case intR k =>
    apply Quiet.kept; unfold afterIntermission; split
    · exact writeThenRead_quiet _ _ _ a
    · split
      · exact writeThenRead_quiet _ _ _ a
      · exact endIntermission_quiet a
  case susR k =>
    apply Quiet.kept; unfold afterSuspend; split
    · exact receive_quiet a
    · split
      · exact writeThenRead_quiet _ _ _ a
      · exact enterBusIdle_quiet a
  case idleR =>
    apply Quiet.kept; unfold afterIdle; split
    · exact receive_quiet a
    · exact enterBusIdle_quiet a
  case idleSofR => exact (arbIter_quiet 0 a).kept
  case txSR f i =>
    apply Quiet.kept; unfold afterTxStuff; split
    · exact detect_quiet _ a
    · exact txSend_quiet f i a
  case txR f i sent => exact (afterTxBit_quiet f i sent b a).kept
  case arbRxSR i =>
    apply Quiet.kept; unfold afterRxStuff; split
    · exact detect_quiet _ a
    · exact Quiet.refl _
  case arbRxR i => exact (Quiet.trans (Quiet.refl a.node) (arbIter_quiet (i + 1) (onRegs (shiftId b) a))).kept
  case dlcRxSR k =>
    apply Quiet.kept; unfold afterRxStuff; split
    · exact detect_quiet _ a
    · exact Quiet.refl _
  case dlcRxR k => exact (Quiet.trans (Quiet.refl a.node) (dlcRx_quiet (k + 1) (onRegs (shiftDlc b) a))).kept
  case dataRxSR j k acc =>
    apply Quiet.kept; unfold afterRxStuff; split
    · exact detect_quiet _ a
    · exact Quiet.refl _
  case dataRxR j k acc =>
    apply Quiet.kept; unfold afterDataBit; split
    · rw [dataCheck_eq]; exact Quiet.refl _
    · exact Quiet.trans (Quiet.refl a.node) (dataByte_quiet (j + 1) (onRegs _ a))
  case eofTxR k =>
    unfold afterEofTx; split
    · exact (detect_quiet _ a).kept
    · split
      · exact (writeThenRead_quiet _ _ _ a).kept
      · exact ((deliver_quiet a).kept.trans (rule7_kept _)).trans (endFrame_quiet _).kept
  case eofRxR k =>
    unfold afterEofRx; split
    · exact (detect_quiet _ a).kept
    · split
      · exact Quiet.kept (show Quiet a.node (blockAt _ a).node from Quiet.refl a.node)
      · exact (rule8_kept cfg (emit _ a)).trans (endFrame_quiet _).kept
  case errAfR k =>
    have hn : ∀ c, Quiet c.node (nextActive k c).node := by
      intro c; unfold nextActive; split <;> exact writeThenRead_quiet _ _ _ c
    unfold afterActive; split
    · exact (hn a).kept
    · exact andThen_kept (rule45_kept cfg a) (hn _).kept
  case errPfR k first =>
    unfold afterPassive; split
    · split
      · exact andThen_kept (addRec_kept cfg 8 a) (writeThenRead_quiet _ _ _ _).kept
      · exact (writeThenRead_quiet _ _ _ a).kept
    · split <;> exact (writeThenRead_quiet _ _ _ a).kept
  case errD1R =>
    apply Quiet.kept; unfold afterWait; split <;> exact writeThenRead_quiet _ _ _ a
  case errD2R k =>
    unfold afterDelimiter; split
    · exact (writeThenRead_quiet _ _ _ a).kept
    · unfold leaveError
      refine andThen_kept (applyErrorUpdate_kept cfg a) ?_
      exact (Quiet.trans (Quiet.refl (applyErrorUpdate cfg a).node) (enterIntermission_quiet (onRegs closeError _))).kept
  all_goals exact Kept.refl _

theorem readStep_kept (cfg : Config.Params) (n : Node) (b : Bit) : Kept n (readStep cfg n b).node := by
  unfold readStep; split
  · exact Kept.refl _
  · exact Kept.trans (m := (actOf (trackRead b n)).node) (Quiet.kept (show Quiet n (trackRead b n) from Quiet.refl n)) (fromRead_kept cfg _ _ b (actOf (trackRead b n)))

theorem fromWrite_quiet (p : Point) (a : Act) : Quiet a.node (fromWrite p a).node := by
  unfold fromWrite; cases p <;> dsimp only <;> first | exact Quiet.refl _ | exact txIter_quiet _ _ a

theorem writeStep_quiet (n : Node) : Quiet n (writeStep n).node := by
  unfold writeStep; split
  · exact Quiet.refl _
  · exact fromWrite_quiet _ (actOf n)

theorem enterPs_quiet (ps : Ps) (a : Act) : Quiet a.node (enterPs ps a).node := by
  unfold enterPs; cases ps <;> dsimp only
  · exact enterIntermission_quiet a
  · exact writeThenRead_quiet _ _ _ a
  · exact enterBusIdle_quiet a
  · exact arbIter_quiet 0 a
  · exact enterDlc_quiet a
  · exact enterData_quiet a
  · exact enterEof_quiet a
  · exact enterError_quiet a

end Sys2Proof.Machine
end

