-- ==== Sys2Proof/Laws/State.lean ====
section
/-! SUPPORT. Every field of State after each named update of the state: what the update writes, and that it leaves the rest. -/

namespace Sys2Proof.Machine

variable (s : State)

/-! ### `setNode` -/

@[simp] theorem setNode_cfg (u : Nat) (n : Node) : (setNode s u n).cfg = s.cfg := rfl
@[simp] theorem setNode_bitrate (u : Nat) (n : Node) : (setNode s u n).bitrate = s.bitrate := rfl
@[simp] theorem setNode_active (u : Nat) (n : Node) : (setNode s u n).active = s.active := rfl
@[simp] theorem setNode_busState (u : Nat) (n : Node) : (setNode s u n).busState = s.busState := rfl
@[simp] theorem setNode_participants (u : Nat) (n : Node) : (setNode s u n).participants = s.participants.set u (.node n) := rfl
@[simp] theorem setNode_period (u : Nat) (n : Node) : (setNode s u n).period = s.period := rfl
@[simp] theorem setNode_phase (u : Nat) (n : Node) : (setNode s u n).phase = s.phase := rfl
@[simp] theorem setNode_halted (u : Nat) (n : Node) : (setNode s u n).halted = s.halted := rfl
@[simp] theorem setNode_fault (u : Nat) (n : Node) : (setNode s u n).fault = s.fault := rfl
@[simp] theorem setNode_events (u : Nat) (n : Node) : (setNode s u n).events = s.events := rfl
@[simp] theorem setNode_calls (u : Nat) (n : Node) : (setNode s u n).calls = s.calls := rfl
@[simp] theorem setNode_results (u : Nat) (n : Node) : (setNode s u n).results = s.results := rfl
@[simp] theorem setNode_trace (u : Nat) (n : Node) : (setNode s u n).trace = s.trace := rfl
@[simp] theorem setNode_issued (u : Nat) (n : Node) : (setNode s u n).issued = s.issued := rfl
@[simp] theorem setNode_host (u : Nat) (n : Node) : (setNode s u n).host = s.host := rfl
@[simp] theorem setNode_placed (u : Nat) (n : Node) : (setNode s u n).placed = s.placed := rfl
@[simp] theorem setNode_hostCode (u : Nat) (n : Node) : (setNode s u n).hostCode = s.hostCode := rfl

/-! ### `answer` -/

@[simp] theorem answer_cfg (r : Result) : (answer r s).cfg = s.cfg := rfl
@[simp] theorem answer_bitrate (r : Result) : (answer r s).bitrate = s.bitrate := rfl
@[simp] theorem answer_active (r : Result) : (answer r s).active = s.active := rfl
@[simp] theorem answer_busState (r : Result) : (answer r s).busState = s.busState := rfl
@[simp] theorem answer_participants (r : Result) : (answer r s).participants = s.participants := rfl
@[simp] theorem answer_period (r : Result) : (answer r s).period = s.period := rfl
@[simp] theorem answer_phase (r : Result) : (answer r s).phase = s.phase := rfl
@[simp] theorem answer_halted (r : Result) : (answer r s).halted = s.halted := rfl
@[simp] theorem answer_fault (r : Result) : (answer r s).fault = s.fault := rfl
@[simp] theorem answer_events (r : Result) : (answer r s).events = s.events := rfl
@[simp] theorem answer_calls (r : Result) : (answer r s).calls = s.calls := rfl
@[simp] theorem answer_results (r : Result) : (answer r s).results = s.results ++ [r] := rfl
@[simp] theorem answer_trace (r : Result) : (answer r s).trace = s.trace := rfl
@[simp] theorem answer_issued (r : Result) : (answer r s).issued = s.issued := rfl
@[simp] theorem answer_host (r : Result) : (answer r s).host = s.host := rfl
@[simp] theorem answer_placed (r : Result) : (answer r s).placed = s.placed := rfl
@[simp] theorem answer_hostCode (r : Result) : (answer r s).hostCode = s.hostCode := rfl

/-! ### `answerCode` -/

@[simp] theorem answerCode_cfg (c : ResultCode) : (answerCode c s).cfg = s.cfg := rfl
@[simp] theorem answerCode_bitrate (c : ResultCode) : (answerCode c s).bitrate = s.bitrate := rfl
@[simp] theorem answerCode_active (c : ResultCode) : (answerCode c s).active = s.active := rfl
@[simp] theorem answerCode_busState (c : ResultCode) : (answerCode c s).busState = s.busState := rfl
@[simp] theorem answerCode_participants (c : ResultCode) : (answerCode c s).participants = s.participants := rfl
@[simp] theorem answerCode_period (c : ResultCode) : (answerCode c s).period = s.period := rfl
@[simp] theorem answerCode_phase (c : ResultCode) : (answerCode c s).phase = s.phase := rfl
@[simp] theorem answerCode_halted (c : ResultCode) : (answerCode c s).halted = s.halted := rfl
@[simp] theorem answerCode_fault (c : ResultCode) : (answerCode c s).fault = s.fault := rfl
@[simp] theorem answerCode_events (c : ResultCode) : (answerCode c s).events = s.events := rfl
@[simp] theorem answerCode_calls (c : ResultCode) : (answerCode c s).calls = s.calls := rfl
@[simp] theorem answerCode_results (c : ResultCode) : (answerCode c s).results = s.results ++ [.code c] := rfl
@[simp] theorem answerCode_trace (c : ResultCode) : (answerCode c s).trace = s.trace := rfl
@[simp] theorem answerCode_issued (c : ResultCode) : (answerCode c s).issued = s.issued := rfl
@[simp] theorem answerCode_host (c : ResultCode) : (answerCode c s).host = s.host := rfl
@[simp] theorem answerCode_placed (c : ResultCode) : (answerCode c s).placed = s.placed := rfl
@[simp] theorem answerCode_hostCode (c : ResultCode) : (answerCode c s).hostCode = s.hostCode := rfl

/-! ### `raiseFault` -/

@[simp] theorem raiseFault_cfg (r : FaultReason) : (raiseFault r s).cfg = s.cfg := rfl
@[simp] theorem raiseFault_bitrate (r : FaultReason) : (raiseFault r s).bitrate = s.bitrate := rfl
@[simp] theorem raiseFault_active (r : FaultReason) : (raiseFault r s).active = s.active := rfl
@[simp] theorem raiseFault_busState (r : FaultReason) : (raiseFault r s).busState = s.busState := rfl
@[simp] theorem raiseFault_participants (r : FaultReason) : (raiseFault r s).participants = s.participants := rfl
@[simp] theorem raiseFault_period (r : FaultReason) : (raiseFault r s).period = s.period := rfl
@[simp] theorem raiseFault_phase (r : FaultReason) : (raiseFault r s).phase = s.phase := rfl
@[simp] theorem raiseFault_halted (r : FaultReason) : (raiseFault r s).halted = s.halted := rfl
@[simp] theorem raiseFault_fault (r : FaultReason) : (raiseFault r s).fault = some r := rfl
@[simp] theorem raiseFault_events (r : FaultReason) : (raiseFault r s).events = s.events := rfl
@[simp] theorem raiseFault_calls (r : FaultReason) : (raiseFault r s).calls = s.calls := rfl
@[simp] theorem raiseFault_results (r : FaultReason) : (raiseFault r s).results = s.results := rfl
@[simp] theorem raiseFault_trace (r : FaultReason) : (raiseFault r s).trace = s.trace := rfl
@[simp] theorem raiseFault_issued (r : FaultReason) : (raiseFault r s).issued = s.issued := rfl
@[simp] theorem raiseFault_host (r : FaultReason) : (raiseFault r s).host = s.host := rfl
@[simp] theorem raiseFault_placed (r : FaultReason) : (raiseFault r s).placed = s.placed := rfl
@[simp] theorem raiseFault_hostCode (r : FaultReason) : (raiseFault r s).hostCode = s.hostCode := rfl

/-! ### `absorb` -/

@[simp] theorem absorb_cfg (es : List (Nat × Effect)) : (absorb es s).cfg = s.cfg := rfl
@[simp] theorem absorb_bitrate (es : List (Nat × Effect)) : (absorb es s).bitrate = s.bitrate := rfl
@[simp] theorem absorb_active (es : List (Nat × Effect)) : (absorb es s).active = s.active := rfl
@[simp] theorem absorb_busState (es : List (Nat × Effect)) : (absorb es s).busState = s.busState := rfl
@[simp] theorem absorb_participants (es : List (Nat × Effect)) : (absorb es s).participants = s.participants := rfl
@[simp] theorem absorb_period (es : List (Nat × Effect)) : (absorb es s).period = s.period := rfl
@[simp] theorem absorb_phase (es : List (Nat × Effect)) : (absorb es s).phase = s.phase := rfl
@[simp] theorem absorb_halted (es : List (Nat × Effect)) : (absorb es s).halted = s.halted := rfl
@[simp] theorem absorb_fault (es : List (Nat × Effect)) : (absorb es s).fault = s.fault := rfl
@[simp] theorem absorb_events (es : List (Nat × Effect)) : (absorb es s).events = s.events ++ es.filterMap (eventOf s) := rfl
@[simp] theorem absorb_calls (es : List (Nat × Effect)) : (absorb es s).calls = s.calls ++ es.filterMap (callOf s) := rfl
@[simp] theorem absorb_results (es : List (Nat × Effect)) : (absorb es s).results = s.results := rfl
@[simp] theorem absorb_trace (es : List (Nat × Effect)) : (absorb es s).trace = s.trace := rfl
@[simp] theorem absorb_issued (es : List (Nat × Effect)) : (absorb es s).issued = s.issued ++ es.flatMap (issuedBy s) := rfl
@[simp] theorem absorb_host (es : List (Nat × Effect)) : (absorb es s).host = s.host := rfl
@[simp] theorem absorb_placed (es : List (Nat × Effect)) : (absorb es s).placed = s.placed := rfl
@[simp] theorem absorb_hostCode (es : List (Nat × Effect)) : (absorb es s).hostCode = s.hostCode := rfl

/-! ### `endPeriod` -/

@[simp] theorem endPeriod_cfg (l : TraceLine) : (endPeriod l s).cfg = s.cfg := rfl
@[simp] theorem endPeriod_bitrate (l : TraceLine) : (endPeriod l s).bitrate = s.bitrate := rfl
@[simp] theorem endPeriod_active (l : TraceLine) : (endPeriod l s).active = s.active := rfl
@[simp] theorem endPeriod_busState (l : TraceLine) : (endPeriod l s).busState = s.busState := rfl
@[simp] theorem endPeriod_participants (l : TraceLine) : (endPeriod l s).participants = s.participants := rfl
@[simp] theorem endPeriod_period (l : TraceLine) : (endPeriod l s).period = s.period := rfl
@[simp] theorem endPeriod_phase (l : TraceLine) : (endPeriod l s).phase = .boundary := rfl
@[simp] theorem endPeriod_halted (l : TraceLine) : (endPeriod l s).halted = s.halted := rfl
@[simp] theorem endPeriod_fault (l : TraceLine) : (endPeriod l s).fault = s.fault := rfl
@[simp] theorem endPeriod_events (l : TraceLine) : (endPeriod l s).events = s.events := rfl
@[simp] theorem endPeriod_calls (l : TraceLine) : (endPeriod l s).calls = s.calls := rfl
@[simp] theorem endPeriod_results (l : TraceLine) : (endPeriod l s).results = s.results := rfl
@[simp] theorem endPeriod_trace (l : TraceLine) : (endPeriod l s).trace = s.trace ++ [l] := rfl
@[simp] theorem endPeriod_issued (l : TraceLine) : (endPeriod l s).issued = s.issued := rfl
@[simp] theorem endPeriod_host (l : TraceLine) : (endPeriod l s).host = s.host := rfl
@[simp] theorem endPeriod_placed (l : TraceLine) : (endPeriod l s).placed = s.placed := rfl
@[simp] theorem endPeriod_hostCode (l : TraceLine) : (endPeriod l s).hostCode = s.hostCode := rfl

/-! ### `raiseAny` -/

@[simp] theorem raiseAny_cfg (r : Option FaultReason) : (raiseAny r s).cfg = s.cfg := by
  cases r <;> rfl
@[simp] theorem raiseAny_bitrate (r : Option FaultReason) : (raiseAny r s).bitrate = s.bitrate := by
  cases r <;> rfl
@[simp] theorem raiseAny_active (r : Option FaultReason) : (raiseAny r s).active = s.active := by
  cases r <;> rfl
@[simp] theorem raiseAny_busState (r : Option FaultReason) : (raiseAny r s).busState = s.busState := by
  cases r <;> rfl
@[simp] theorem raiseAny_participants (r : Option FaultReason) : (raiseAny r s).participants = s.participants := by
  cases r <;> rfl
@[simp] theorem raiseAny_period (r : Option FaultReason) : (raiseAny r s).period = s.period := by
  cases r <;> rfl
@[simp] theorem raiseAny_phase (r : Option FaultReason) : (raiseAny r s).phase = s.phase := by
  cases r <;> rfl
@[simp] theorem raiseAny_halted (r : Option FaultReason) : (raiseAny r s).halted = s.halted := by
  cases r <;> rfl
@[simp] theorem raiseAny_fault (r : Option FaultReason) : (raiseAny r s).fault = laterFault s.fault r := by
  cases r <;> rfl
@[simp] theorem raiseAny_events (r : Option FaultReason) : (raiseAny r s).events = s.events := by
  cases r <;> rfl
@[simp] theorem raiseAny_calls (r : Option FaultReason) : (raiseAny r s).calls = s.calls := by
  cases r <;> rfl
@[simp] theorem raiseAny_results (r : Option FaultReason) : (raiseAny r s).results = s.results := by
  cases r <;> rfl
@[simp] theorem raiseAny_trace (r : Option FaultReason) : (raiseAny r s).trace = s.trace := by
  cases r <;> rfl
@[simp] theorem raiseAny_issued (r : Option FaultReason) : (raiseAny r s).issued = s.issued := by
  cases r <;> rfl
@[simp] theorem raiseAny_host (r : Option FaultReason) : (raiseAny r s).host = s.host := by
  cases r <;> rfl
@[simp] theorem raiseAny_placed (r : Option FaultReason) : (raiseAny r s).placed = s.placed := by
  cases r <;> rfl
@[simp] theorem raiseAny_hostCode (r : Option FaultReason) : (raiseAny r s).hostCode = s.hostCode := by
  cases r <;> rfl

/-! ### `closeBoundary` -/

@[simp] theorem closeBoundary_cfg : (closeBoundary s).cfg = s.cfg := by
  unfold closeBoundary; split <;> simp_all
@[simp] theorem closeBoundary_bitrate : (closeBoundary s).bitrate = s.bitrate := by
  unfold closeBoundary; split <;> simp_all
@[simp] theorem closeBoundary_active : (closeBoundary s).active = s.active := by
  unfold closeBoundary; split <;> simp_all
@[simp] theorem closeBoundary_busState : (closeBoundary s).busState = s.busState := by
  unfold closeBoundary; split <;> simp_all
@[simp] theorem closeBoundary_participants : (closeBoundary s).participants = s.participants := by
  unfold closeBoundary; split <;> simp_all
@[simp] theorem closeBoundary_period : (closeBoundary s).period = s.period := by
  unfold closeBoundary; split <;> simp_all
@[simp] theorem closeBoundary_phase : (closeBoundary s).phase = s.phase := by
  unfold closeBoundary; split <;> simp_all
@[simp] theorem closeBoundary_halted : (closeBoundary s).halted = s.halted := by
  unfold closeBoundary; split <;> simp_all
@[simp] theorem closeBoundary_fault : (closeBoundary s).fault = s.fault := by
  unfold closeBoundary; split <;> simp_all
@[simp] theorem closeBoundary_events : (closeBoundary s).events = s.events := by
  unfold closeBoundary; split <;> simp_all
@[simp] theorem closeBoundary_calls : (closeBoundary s).calls = s.calls := by
  unfold closeBoundary; split <;> simp_all
@[simp] theorem closeBoundary_results : (closeBoundary s).results = s.results := by
  unfold closeBoundary; split <;> simp_all
@[simp] theorem closeBoundary_trace : (closeBoundary s).trace = s.trace := by
  unfold closeBoundary; split <;> simp_all
@[simp] theorem closeBoundary_issued : (closeBoundary s).issued = s.issued := by
  unfold closeBoundary; split <;> simp_all
theorem closeBoundary_host_passed {later : List (List Command)} (h : s.host = [] :: later) : (closeBoundary s).host = later := by
  simp [closeBoundary, h]
theorem closeBoundary_host_kept (h : ∀ later, s.host ≠ [] :: later) : (closeBoundary s).host = s.host := by
  unfold closeBoundary; split <;> simp_all
@[simp] theorem closeBoundary_placed : (closeBoundary s).placed = s.placed := by
  unfold closeBoundary; split <;> simp_all
@[simp] theorem closeBoundary_hostCode : (closeBoundary s).hostCode = s.hostCode := by
  unfold closeBoundary; split <;> simp_all

/-! ### `nextPeriod` -/

@[simp] theorem nextPeriod_cfg : (nextPeriod s).cfg = s.cfg := by
  unfold nextPeriod; split <;> simp_all
@[simp] theorem nextPeriod_bitrate : (nextPeriod s).bitrate = s.bitrate := by
  unfold nextPeriod; split <;> simp_all
@[simp] theorem nextPeriod_active : (nextPeriod s).active = s.active := by
  unfold nextPeriod; split <;> simp_all
@[simp] theorem nextPeriod_busState : (nextPeriod s).busState = s.busState := by
  unfold nextPeriod; split <;> simp_all
@[simp] theorem nextPeriod_participants : (nextPeriod s).participants = s.participants := by
  unfold nextPeriod; split <;> simp_all
@[simp] theorem nextPeriod_period : (nextPeriod s).period = if s.phase = .boundary then s.period + 1 else s.period := by
  unfold nextPeriod; split <;> simp_all
@[simp] theorem nextPeriod_phase : (nextPeriod s).phase = s.phase := by
  unfold nextPeriod; split <;> simp_all
@[simp] theorem nextPeriod_halted : (nextPeriod s).halted = s.halted := by
  unfold nextPeriod; split <;> simp_all
@[simp] theorem nextPeriod_fault : (nextPeriod s).fault = s.fault := by
  unfold nextPeriod; split <;> simp_all
@[simp] theorem nextPeriod_events : (nextPeriod s).events = s.events := by
  unfold nextPeriod; split <;> simp_all
@[simp] theorem nextPeriod_calls : (nextPeriod s).calls = s.calls := by
  unfold nextPeriod; split <;> simp_all
@[simp] theorem nextPeriod_results : (nextPeriod s).results = s.results := by
  unfold nextPeriod; split <;> simp_all
@[simp] theorem nextPeriod_trace : (nextPeriod s).trace = s.trace := by
  unfold nextPeriod; split <;> simp_all
@[simp] theorem nextPeriod_issued : (nextPeriod s).issued = s.issued := by
  unfold nextPeriod; split <;> simp_all
@[simp] theorem nextPeriod_host : (nextPeriod s).host = (closeBoundary s).host := by unfold nextPeriod; split <;> rfl
@[simp] theorem nextPeriod_placed : (nextPeriod s).placed = s.placed := by
  unfold nextPeriod; split <;> simp_all
@[simp] theorem nextPeriod_hostCode : (nextPeriod s).hostCode = s.hostCode := by
  unfold nextPeriod; split <;> simp_all

/-! ### `driveBus` -/

@[simp] theorem driveBus_cfg (b : Bit) : (driveBus b s).cfg = s.cfg := by
  unfold driveBus; split <;> simp_all [raiseFault]
@[simp] theorem driveBus_bitrate (b : Bit) : (driveBus b s).bitrate = s.bitrate := by
  unfold driveBus; split <;> simp_all [raiseFault]
@[simp] theorem driveBus_active (b : Bit) : (driveBus b s).active = s.active := by
  unfold driveBus; split <;> simp_all [raiseFault]
@[simp] theorem driveBus_busState (b : Bit) : (driveBus b s).busState = if s.active then s.busState.and b else s.busState := by
  unfold driveBus; split <;> simp_all [raiseFault]
@[simp] theorem driveBus_participants (b : Bit) : (driveBus b s).participants = s.participants := by
  unfold driveBus; split <;> simp_all [raiseFault]
@[simp] theorem driveBus_period (b : Bit) : (driveBus b s).period = s.period := by
  unfold driveBus; split <;> simp_all [raiseFault]
@[simp] theorem driveBus_phase (b : Bit) : (driveBus b s).phase = s.phase := by
  unfold driveBus; split <;> simp_all [raiseFault]
@[simp] theorem driveBus_halted (b : Bit) : (driveBus b s).halted = s.halted := by
  unfold driveBus; split <;> simp_all [raiseFault]
@[simp] theorem driveBus_fault (b : Bit) : (driveBus b s).fault = if s.active then s.fault else some .ioOnInactiveBus := by
  unfold driveBus; split <;> simp_all [raiseFault]
@[simp] theorem driveBus_events (b : Bit) : (driveBus b s).events = s.events := by
  unfold driveBus; split <;> simp_all [raiseFault]
@[simp] theorem driveBus_calls (b : Bit) : (driveBus b s).calls = s.calls := by
  unfold driveBus; split <;> simp_all [raiseFault]
@[simp] theorem driveBus_results (b : Bit) : (driveBus b s).results = s.results := by
  unfold driveBus; split <;> simp_all [raiseFault]
@[simp] theorem driveBus_trace (b : Bit) : (driveBus b s).trace = s.trace := by
  unfold driveBus; split <;> simp_all [raiseFault]
@[simp] theorem driveBus_issued (b : Bit) : (driveBus b s).issued = s.issued := by
  unfold driveBus; split <;> simp_all [raiseFault]
@[simp] theorem driveBus_host (b : Bit) : (driveBus b s).host = s.host := by
  unfold driveBus; split <;> simp_all [raiseFault]
@[simp] theorem driveBus_placed (b : Bit) : (driveBus b s).placed = s.placed := by
  unfold driveBus; split <;> simp_all [raiseFault]
@[simp] theorem driveBus_hostCode (b : Bit) : (driveBus b s).hostCode = s.hostCode := by
  unfold driveBus; split <;> simp_all [raiseFault]

/-! ### `writeBy` -/

@[simp] theorem writeBy_cfg (st : FcState) (b : Bit) : (writeBy st b s).cfg = s.cfg := by
  cases st <;> simp [writeBy]
@[simp] theorem writeBy_bitrate (st : FcState) (b : Bit) : (writeBy st b s).bitrate = s.bitrate := by
  cases st <;> simp [writeBy]
@[simp] theorem writeBy_active (st : FcState) (b : Bit) : (writeBy st b s).active = s.active := by
  cases st <;> simp [writeBy]
@[simp] theorem writeBy_busState (st : FcState) (b : Bit) : (writeBy st b s).busState = if st ≠ .busOff ∧ s.active then s.busState.and b else s.busState := by
  cases st <;> simp [writeBy]
@[simp] theorem writeBy_participants (st : FcState) (b : Bit) : (writeBy st b s).participants = s.participants := by
  cases st <;> simp [writeBy]
@[simp] theorem writeBy_period (st : FcState) (b : Bit) : (writeBy st b s).period = s.period := by
  cases st <;> simp [writeBy]
@[simp] theorem writeBy_phase (st : FcState) (b : Bit) : (writeBy st b s).phase = s.phase := by
  cases st <;> simp [writeBy]
@[simp] theorem writeBy_halted (st : FcState) (b : Bit) : (writeBy st b s).halted = s.halted := by
  cases st <;> simp [writeBy]
@[simp] theorem writeBy_fault (st : FcState) (b : Bit) : (writeBy st b s).fault = if st = .busOff ∨ s.active then s.fault else some .ioOnInactiveBus := by
  cases st <;> simp [writeBy]
@[simp] theorem writeBy_events (st : FcState) (b : Bit) : (writeBy st b s).events = s.events := by
  cases st <;> simp [writeBy]
@[simp] theorem writeBy_calls (st : FcState) (b : Bit) : (writeBy st b s).calls = s.calls := by
  cases st <;> simp [writeBy]
@[simp] theorem writeBy_results (st : FcState) (b : Bit) : (writeBy st b s).results = s.results := by
  cases st <;> simp [writeBy]
@[simp] theorem writeBy_trace (st : FcState) (b : Bit) : (writeBy st b s).trace = s.trace := by
  cases st <;> simp [writeBy]
@[simp] theorem writeBy_issued (st : FcState) (b : Bit) : (writeBy st b s).issued = s.issued := by
  cases st <;> simp [writeBy]
@[simp] theorem writeBy_host (st : FcState) (b : Bit) : (writeBy st b s).host = s.host := by
  cases st <;> simp [writeBy]
@[simp] theorem writeBy_placed (st : FcState) (b : Bit) : (writeBy st b s).placed = s.placed := by
  cases st <;> simp [writeBy]
@[simp] theorem writeBy_hostCode (st : FcState) (b : Bit) : (writeBy st b s).hostCode = s.hostCode := by
  cases st <;> simp [writeBy]

/-! ### `commit` -/

@[simp] theorem commit_cfg (u : Nat) (a : Act) : (commit u a s).cfg = s.cfg := by
  simp [commit]
@[simp] theorem commit_bitrate (u : Nat) (a : Act) : (commit u a s).bitrate = s.bitrate := by
  simp [commit]
@[simp] theorem commit_active (u : Nat) (a : Act) : (commit u a s).active = s.active := by
  simp [commit]
@[simp] theorem commit_busState (u : Nat) (a : Act) : (commit u a s).busState = s.busState := by
  simp [commit]
@[simp] theorem commit_participants (u : Nat) (a : Act) : (commit u a s).participants = s.participants.set u (.node a.node) := by
  simp [commit]
@[simp] theorem commit_period (u : Nat) (a : Act) : (commit u a s).period = s.period := by
  simp [commit]
@[simp] theorem commit_phase (u : Nat) (a : Act) : (commit u a s).phase = s.phase := by
  simp [commit]
@[simp] theorem commit_halted (u : Nat) (a : Act) : (commit u a s).halted = s.halted := by
  simp [commit]
@[simp] theorem commit_fault (u : Nat) (a : Act) : (commit u a s).fault = laterFault s.fault a.fault := by
  simp [commit]
@[simp] theorem commit_results (u : Nat) (a : Act) : (commit u a s).results = s.results := by
  simp [commit]
@[simp] theorem commit_trace (u : Nat) (a : Act) : (commit u a s).trace = s.trace := by
  simp [commit]
@[simp] theorem commit_host (u : Nat) (a : Act) : (commit u a s).host = s.host := by
  simp [commit]
@[simp] theorem commit_placed (u : Nat) (a : Act) : (commit u a s).placed = s.placed := by
  simp [commit]
@[simp] theorem commit_hostCode (u : Nat) (a : Act) : (commit u a s).hostCode = s.hostCode := by
  simp [commit]

/-! ### `applyRound` -/

@[simp] theorem applyRound_cfg (turn : Participant → Bit → Turn) : (applyRound turn s).cfg = s.cfg := by
  simp [applyRound]
@[simp] theorem applyRound_bitrate (turn : Participant → Bit → Turn) : (applyRound turn s).bitrate = s.bitrate := by
  simp [applyRound]
@[simp] theorem applyRound_active (turn : Participant → Bit → Turn) : (applyRound turn s).active = s.active := by
  simp [applyRound]
@[simp] theorem applyRound_busState (turn : Participant → Bit → Turn) : (applyRound turn s).busState = (allTurns turn s.participants s.busState).bus := by
  simp [applyRound]
@[simp] theorem applyRound_participants (turn : Participant → Bit → Turn) : (applyRound turn s).participants = (allTurns turn s.participants s.busState).parts := by
  simp [applyRound]
@[simp] theorem applyRound_period (turn : Participant → Bit → Turn) : (applyRound turn s).period = s.period := by
  simp [applyRound]
@[simp] theorem applyRound_phase (turn : Participant → Bit → Turn) : (applyRound turn s).phase = s.phase := by
  simp [applyRound]
@[simp] theorem applyRound_halted (turn : Participant → Bit → Turn) : (applyRound turn s).halted = s.halted := by
  simp [applyRound]
@[simp] theorem applyRound_events (turn : Participant → Bit → Turn) : (applyRound turn s).events = s.events ++ (allTurns turn s.participants s.busState).effects.filterMap (eventOf s) := by
  simp only [applyRound, raiseAny_events, absorb_events]; rfl
@[simp] theorem applyRound_calls (turn : Participant → Bit → Turn) : (applyRound turn s).calls = s.calls ++ (allTurns turn s.participants s.busState).effects.filterMap (callOf s) := by
  simp only [applyRound, raiseAny_calls, absorb_calls]; rfl
@[simp] theorem applyRound_issued (turn : Participant → Bit → Turn) : (applyRound turn s).issued = s.issued ++ (allTurns turn s.participants s.busState).effects.flatMap (issuedBy s) := by
  simp only [applyRound, raiseAny_issued, absorb_issued]; rfl
@[simp] theorem applyRound_fault (turn : Participant → Bit → Turn) : (applyRound turn s).fault = laterFault s.fault (allTurns turn s.participants s.busState).fault := by
  cases h : (allTurns turn s.participants s.busState).fault <;> simp [applyRound, h, laterFault]
@[simp] theorem applyRound_results (turn : Participant → Bit → Turn) : (applyRound turn s).results = s.results := by
  simp [applyRound]
@[simp] theorem applyRound_trace (turn : Participant → Bit → Turn) : (applyRound turn s).trace = s.trace := by
  simp [applyRound]
@[simp] theorem applyRound_host (turn : Participant → Bit → Turn) : (applyRound turn s).host = s.host := by
  simp [applyRound]
@[simp] theorem applyRound_placed (turn : Participant → Bit → Turn) : (applyRound turn s).placed = s.placed := by
  simp [applyRound]
@[simp] theorem applyRound_hostCode (turn : Participant → Bit → Turn) : (applyRound turn s).hostCode = s.hostCode := by
  simp [applyRound]

end Sys2Proof.Machine
end

