-- ==== Sys2Proof/Laws/Bus.lean ====
section
/-! SUPPORT. What a round of turns does, for each kind of turn, and what every instruction keeps of every participant. -/

namespace Sys2Proof.Machine

/-! ### One turn -/

/-- The bus word after a turn of the write phase: the bit written, if one was, has been ANDed in (R73, R79). -/
theorem writeTurn_bus (cfg : Config.Params) (period : Nat) (p : Participant) (bus : Bit) :
    (writeTurn cfg period p bus).bus = (match writtenBit cfg period p with | none => bus | some b => bus.and b) := by
  cases p with
  | node n =>
    simp only [writeTurn, nodeWriteTurn, writtenBit]
    by_cases h0 : missed cfg period false n.uid = true
    · simp [h0, idleTurn]
    by_cases h1 : isFree cfg n = true
    · simp [h0, h1, freeWriteTurn, nodeTurn]
    · simp only [Bool.not_eq_true] at h0 h1
      simp only [h0, h1, Bool.false_or, Bool.false_eq_true, if_false]
      cases hp : nodeOp n with
      | none => simp [idleTurn]
      | some o =>
        cases o with
        | read => simp [idleTurn]
        | write b => cases hs : n.st <;> simp [nodeTurn, driven]
  | raw r =>
    simp only [writeTurn, rawWriteTurn, writtenBit]
    split
    · rfl
    · cases rawOp r <;> rfl

/-- A turn of the write phase leaves the participant the same registers whatever the bus word was (R49). -/
theorem writeTurn_part (cfg : Config.Params) (period : Nat) (p : Participant) (b c : Bit) :
    (writeTurn cfg period p b).part = (writeTurn cfg period p c).part := by
  cases p with
  | node n =>
    simp only [writeTurn, nodeWriteTurn]
    split
    · rfl
    · split
      · rfl
      · split <;> rfl
  | raw r =>
    simp only [writeTurn, rawWriteTurn]
    split
    · rfl
    · split <;> rfl

/-- A turn of the write phase gives the same effects and raises the same fault whatever the bus word was (R49). -/
theorem writeTurn_gives (cfg : Config.Params) (period : Nat) (p : Participant) (b c : Bit) :
    (writeTurn cfg period p b).effects = (writeTurn cfg period p c).effects
      ∧ (writeTurn cfg period p b).fault = (writeTurn cfg period p c).fault := by
  cases p with
  | node n =>
    simp only [writeTurn, nodeWriteTurn]
    split
    · exact ⟨rfl, rfl⟩
    · split
      · exact ⟨rfl, rfl⟩
      · split <;> exact ⟨rfl, rfl⟩
  | raw r =>
    simp only [writeTurn, rawWriteTurn]
    split
    · exact ⟨rfl, rfl⟩
    · split <;> exact ⟨rfl, rfl⟩

/-- A turn of the read phase does not touch the bus word (R74). -/
theorem readTurn_bus (cfg : Config.Params) (period : Nat) (p : Participant) (bus : Bit) :
    (readTurn cfg period p bus).bus = bus := by
  cases p with
  | node n =>
    simp only [readTurn, nodeReadTurn]
    split
    · rfl
    · split <;> rfl
  | raw r =>
    simp only [readTurn, rawReadTurn]
    split
    · rfl
    · split <;> rfl

/-- Starting a participant does not touch the bus word (R151). -/
theorem startTurn_bus (p : Participant) (bus : Bit) : (startTurn p bus).bus = bus := by cases p <;> rfl

/-! ### A round -/

/-- A round of turns whose registers do not depend on the bus word: each participant takes its turn (R49, R76). -/
theorem allTurns_parts_of_const {turn : Participant → Bit → Turn} (h : ∀ p b c, (turn p b).part = (turn p c).part)
    (ps : List Participant) (bus c : Bit) : (allTurns turn ps bus).parts = ps.map fun p => (turn p c).part := by
  induction ps generalizing bus with
  | nil => rfl
  | cons p rest ih => simp only [allTurns, List.map_cons, ih]; rw [h p bus c]

/-- A round of turns that leave the bus word: each participant takes its turn with that word, and the word stays (R74, R49). -/
theorem allTurns_of_bus {turn : Participant → Bit → Turn} (h : ∀ p b, (turn p b).bus = b) (ps : List Participant) (bus : Bit) :
    (allTurns turn ps bus).parts = ps.map (fun p => (turn p bus).part) ∧ (allTurns turn ps bus).bus = bus := by
  induction ps with
  | nil => exact ⟨rfl, rfl⟩
  | cons p rest ih => simp only [allTurns, List.map_cons, h]; exact ⟨by rw [ih.1], ih.2⟩

/-- The last of a list's values, one more put in front. -/
theorem laterFault_getLast (first : Option FaultReason) (rest : List FaultReason) :
    laterFault first rest.getLast? = (first.toList ++ rest).getLast? := by
  cases first <;> cases h : rest.getLast? <;> simp [laterFault, h, List.getLast?_cons]

/-- What a round of turns gives when the turns do not depend on the bus word: each participant's effects, in uid order, and the last
fault (R49, R76; log 31). -/
theorem allTurns_gives_of_const {turn : Participant → Bit → Turn} (h : ∀ p b c, (turn p b).effects = (turn p c).effects
    ∧ (turn p b).fault = (turn p c).fault) (ps : List Participant) (bus c : Bit) :
    (allTurns turn ps bus).effects = ps.flatMap (fun p => (turn p c).effects.map fun e => (participantUid p, e))
      ∧ (allTurns turn ps bus).fault = (ps.filterMap fun p => (turn p c).fault).getLast? := by
  induction ps generalizing bus with
  | nil => exact ⟨rfl, rfl⟩
  | cons p rest ih =>
    simp only [allTurns, List.flatMap_cons, (ih _).1, (ih _).2, (h p bus c).1, (h p bus c).2, laterFault_getLast, true_and]
    cases hf : (turn p c).fault <;> simp [hf]

/-- The same of a round of turns that leave the bus word (R74). -/
theorem allTurns_gives_of_bus {turn : Participant → Bit → Turn} (h : ∀ p b, (turn p b).bus = b) (ps : List Participant) (bus : Bit) :
    (allTurns turn ps bus).effects = ps.flatMap (fun p => (turn p bus).effects.map fun e => (participantUid p, e))
      ∧ (allTurns turn ps bus).fault = (ps.filterMap fun p => (turn p bus).fault).getLast? := by
  induction ps with
  | nil => exact ⟨rfl, rfl⟩
  | cons p rest ih =>
    simp only [allTurns, List.flatMap_cons, h, ih.1, ih.2, laterFault_getLast, true_and]
    cases hf : (turn p bus).fault <;> simp [hf]

/-- The bus word after the write phase: every bit written has been ANDed in, in turn order (R79). -/
theorem allTurns_write_bus (cfg : Config.Params) (period : Nat) (ps : List Participant) (bus : Bit) :
    (allTurns (writeTurn cfg period) ps bus).bus = ((ps.map (writtenBit cfg period)).filterMap id).foldl Bit.and bus := by
  induction ps generalizing bus with
  | nil => rfl
  | cons p rest ih =>
    simp only [allTurns, List.map_cons, ih, writeTurn_bus]
    cases writtenBit cfg period p <;> rfl

/-- A round has as many participants after it as before. -/
theorem allTurns_length (turn : Participant → Bit → Turn) (ps : List Participant) (bus : Bit) :
    (allTurns turn ps bus).parts.length = ps.length := by
  induction ps generalizing bus with
  | nil => rfl
  | cons p rest ih => simp only [allTurns, List.length_cons, ih]

/-! ### What is kept of a participant -/

/-- What no instruction changes of a participant, and what it cannot leave: a node's `Kept`, a raw participant's uid and script. -/
inductive PartKept : Participant → Participant → Prop where
  | node {n m : Node} (h : Kept n m) : PartKept (.node n) (.node m)
  | raw {r q : Raw} (h1 : q.uid = r.uid) (h2 : q.script = r.script) : PartKept (.raw r) (.raw q)

theorem PartKept.refl (p : Participant) : PartKept p p := by
  cases p
  · exact .node (Kept.refl _)
  · exact .raw rfl rfl

theorem PartKept.trans {p q r : Participant} (h : PartKept p q) (g : PartKept q r) : PartKept p r := by
  cases h with
  | node h => cases g with | node g => exact .node (h.trans g)
  | raw h1 h2 => cases g with | raw g1 g2 => exact .raw (g1.trans h1) (g2.trans h2)

theorem writeTurn_kept (cfg : Config.Params) (period : Nat) (p : Participant) (bus : Bit) :
    PartKept p (writeTurn cfg period p bus).part := by
  cases p with
  | node n =>
    simp only [writeTurn, nodeWriteTurn]
    split
    · exact PartKept.refl _
    · split
      · exact PartKept.refl _
      · split
        · exact .node (writeStep_quiet n).kept
        · exact PartKept.refl _
        · exact PartKept.refl _
  | raw r =>
    simp only [writeTurn, rawWriteTurn]
    split
    · exact PartKept.refl _
    · split
      · exact .raw rfl rfl
      · exact PartKept.refl _

/-- A node with free registers keeps all that R125 keeps. -/
theorem freeNode_kept (v : Config.Havoc) {n : Node} (h : n.st = .busOff) : Kept n (freeNode v n) :=
  ⟨rfl, rfl, fun e => e, fun _ => by simp [countersOk, freeNode, h]⟩

theorem isFree_busOff {cfg : Config.Params} {n : Node} (h : isFree cfg n = true) : n.st = .busOff := by
  simp only [isFree, Bool.and_eq_true, beq_iff_eq] at h; exact h.2

/-- The end of a step in the read phase keeps all that R125 keeps. -/
theorem freed_kept (cfg : Config.Params) (period : Nat) (a : Act) : Kept a.node (freed cfg period a).node := by
  unfold freed
  split
  · rename_i h; exact freeNode_kept _ (isFree_busOff h)
  · exact Kept.refl _

theorem ruledRead_kept (cfg : Config.Params) (n : Node) (op : BusOp) (bus : Bit) : Kept n (ruledRead cfg n op bus).node := by
  unfold ruledRead
  split
  · exact Kept.refl _
  · split
    · exact readStep_kept cfg n bus
    · exact Kept.refl _

theorem readTurn_kept (cfg : Config.Params) (period : Nat) (p : Participant) (bus : Bit) :
    PartKept p (readTurn cfg period p bus).part := by
  cases p with
  | node n =>
    simp only [readTurn, nodeReadTurn]
    split
    · exact PartKept.refl _
    · split
      · exact .node ((ruledRead_kept cfg n _ bus).trans (freed_kept cfg period _))
      · exact PartKept.refl _
  | raw r =>
    simp only [readTurn, rawReadTurn]
    split
    · exact PartKept.refl _
    · split
      · exact .raw rfl rfl
      · exact PartKept.refl _

theorem startTurn_kept (p : Participant) (bus : Bit) : PartKept p (startTurn p bus).part := by
  cases p with
  | node n => exact .node (enterBusIdle_quiet (actOf n)).kept
  | raw r => exact PartKept.refl _

/-- Every participant of a list is kept, at its place, in another. -/
def PartsKept (ps qs : List Participant) : Prop :=
  ∀ (u : Nat) (p : Participant), ps[u]? = some p → ∃ q, qs[u]? = some q ∧ PartKept p q

theorem PartsKept.refl (ps : List Participant) : PartsKept ps ps := fun _ p h => ⟨p, h, PartKept.refl p⟩

theorem PartsKept.trans {ps qs rs : List Participant} (h : PartsKept ps qs) (g : PartsKept qs rs) : PartsKept ps rs := by
  intro u p hp
  obtain ⟨q, hq, h1⟩ := h u p hp
  obtain ⟨r, hr, h2⟩ := g u q hq
  exact ⟨r, hr, h1.trans h2⟩

theorem PartsKept.append (ps : List Participant) (p : Participant) : PartsKept ps (ps ++ [p]) := by
  intro u q h
  refine ⟨q, ?_, PartKept.refl q⟩
  have hl : u < ps.length := by
    rw [List.getElem?_eq_some_iff] at h; exact h.1
  rw [List.getElem?_append_left hl, h]

/-- Writing back a node's kept registers keeps every participant. -/
theorem PartsKept.set {s : State} {u : Nat} {n m : Node} (hn : nodeAt s u = some n) (h : Kept n m) :
    PartsKept s.participants (s.participants.set u (.node m)) := by
  intro v p hp
  rw [nodeAt_eq_some] at hn
  by_cases huv : u = v
  · subst huv
    rw [hn] at hp
    cases hp
    refine ⟨.node m, ?_, .node h⟩
    rw [List.getElem?_eq_some_iff] at hn
    rw [List.getElem?_set_self hn.1]
  · exact ⟨p, by rw [List.getElem?_set_ne huv, hp], PartKept.refl p⟩

theorem allTurns_kept {turn : Participant → Bit → Turn} (h : ∀ p b, PartKept p (turn p b).part) (ps : List Participant) (bus : Bit) :
    PartsKept ps (allTurns turn ps bus).parts := by
  induction ps generalizing bus with
  | nil => intro u p hp; simp at hp
  | cons q rest ih =>
    intro u p hp
    cases u with
    | zero =>
      simp only [List.getElem?_cons_zero, Option.some.injEq] at hp
      subst hp
      exact ⟨_, rfl, h _ _⟩
    | succ v => exact ih _ v p (by simpa using hp)

end Sys2Proof.Machine
end

