-- ==== Sys2Proof/Laws/Decode.lean ====
section
/-! SUPPORT. The encoder's pieces read back by the decoder's pieces: packed bytes, packed scripts and header fields (R66). -/

namespace Sys2Proof

/-! ### Bytes -/

theorem wordBytes_append (a b c d : Byte) : wordBytes (a ++ b ++ c ++ d) = [a, b, c, d] := by
  simp only [wordBytes, List.cons.injEq, and_true]
  refine ⟨?_, ?_, ?_, ?_⟩ <;>
    (apply BitVec.eq_of_getLsbD_eq; intro i hi
     interval_cases i <;> simp only [BitVec.getLsbD_extractLsb', BitVec.getLsbD_append] <;> rfl)

theorem byteCodes_append (a b c d : BitVec 2) : byteCodes (a ++ b ++ c ++ d) = [a, b, c, d] := by
  simp only [byteCodes, List.cons.injEq, and_true]
  refine ⟨?_, ?_, ?_, ?_⟩ <;>
    (apply BitVec.eq_of_getLsbD_eq; intro i hi
     interval_cases i <;> simp only [BitVec.getLsbD_extractLsb', BitVec.getLsbD_append] <;> rfl)

theorem append_zeros {w : Nat} (x : BitVec w) (j k : Nat) :
    ((x ++ (0 : BitVec j)) ++ (0 : BitVec k)) = (x ++ (0 : BitVec (j + k))).cast (by omega) := by
  apply BitVec.eq_of_getLsbD_eq; intro i hi
  simp only [BitVec.getLsbD_append, BitVec.getLsbD_cast]
  by_cases h1 : i < k
  · simp [h1, show i < j + k by omega]
  · by_cases h2 : i < j + k
    · simp [h1, h2, show i - k < j by omega]
    · simp [h1, h2, show ¬ i - k < j by omega, show i - k - j = i - (j + k) by omega]

/-- Packed bytes read back: the bytes, then padding. -/
theorem packBytes_bytes (ds : List Byte) : ∃ pad, (packBytes ds).flatMap wordBytes = ds ++ pad := by
  induction ds using packBytes.induct with
  | case1 => exact ⟨[], rfl⟩
  | case2 a =>
    refine ⟨[0, 0, 0], ?_⟩
    have h : a ++ (0 : BitVec 24) = a ++ (0 : Byte) ++ (0 : Byte) ++ (0 : Byte) := by
      rw [append_zeros, BitVec.cast_eq, append_zeros, BitVec.cast_eq]
    simp only [packBytes, List.flatMap_cons, List.flatMap_nil, List.append_nil, h, wordBytes_append]; rfl
  | case3 a b =>
    refine ⟨[0, 0], ?_⟩
    have h : a ++ b ++ (0 : BitVec 16) = a ++ b ++ (0 : Byte) ++ (0 : Byte) := by rw [append_zeros, BitVec.cast_eq]
    simp only [packBytes, List.flatMap_cons, List.flatMap_nil, List.append_nil, h, wordBytes_append]; rfl
  | case4 a b c =>
    refine ⟨[0], ?_⟩
    simp only [packBytes, List.flatMap_cons, List.flatMap_nil, List.append_nil, wordBytes_append]; rfl
  | case5 a b c d rest ih =>
    obtain ⟨pad, h⟩ := ih
    exact ⟨pad, by simp only [packBytes, List.flatMap_cons, wordBytes_append, h]; rfl⟩

/-- The bytes packed are the bytes unpacked. -/
theorem unpackBytes_packBytes (ds : List Byte) : unpackBytes ds.length (packBytes ds) = ds := by
  obtain ⟨pad, h⟩ := packBytes_bytes ds
  rw [unpackBytes, h, List.take_left']
  rfl

/-- Four bytes a word. -/
theorem packBytes_length (ds : List Byte) : (packBytes ds).length = wordsFor ds.length 4 := by
  induction ds using packBytes.induct with
  | case1 => rfl
  | case2 a => simp [packBytes, wordsFor]
  | case3 a b => simp [packBytes, wordsFor]
  | case4 a b c => simp [packBytes, wordsFor]
  | case5 a b c d rest ih => simp only [packBytes, List.length_cons, ih, wordsFor]; omega

/-! ### Scripts -/

/-- Packed codes read back: the codes, then padding. -/
theorem packCodes_codes (cs : List (BitVec 2)) : ∃ pad, (packCodes cs).flatMap byteCodes = cs ++ pad := by
  induction cs using packCodes.induct with
  | case1 => exact ⟨[], rfl⟩
  | case2 a =>
    refine ⟨[0, 0, 0], ?_⟩
    have h : a ++ (0 : BitVec 6) = a ++ (0 : BitVec 2) ++ (0 : BitVec 2) ++ (0 : BitVec 2) := by
      rw [append_zeros, BitVec.cast_eq, append_zeros, BitVec.cast_eq]
    simp only [packCodes, List.flatMap_cons, List.flatMap_nil, List.append_nil, h, byteCodes_append]; rfl
  | case3 a b =>
    refine ⟨[0, 0], ?_⟩
    have h : a ++ b ++ (0 : BitVec 4) = a ++ b ++ (0 : BitVec 2) ++ (0 : BitVec 2) := by rw [append_zeros, BitVec.cast_eq]
    simp only [packCodes, List.flatMap_cons, List.flatMap_nil, List.append_nil, h, byteCodes_append]; rfl
  | case4 a b c =>
    refine ⟨[0], ?_⟩
    simp only [packCodes, List.flatMap_cons, List.flatMap_nil, List.append_nil, byteCodes_append]; rfl
  | case5 a b c d rest ih =>
    obtain ⟨pad, h⟩ := ih
    exact ⟨pad, by simp only [packCodes, List.flatMap_cons, byteCodes_append, h]; rfl⟩

/-- Four codes a byte. -/
theorem packCodes_length (cs : List (BitVec 2)) : (packCodes cs).length = wordsFor cs.length 4 := by
  induction cs using packCodes.induct with
  | case1 => rfl
  | case2 a => simp [packCodes, wordsFor]
  | case3 a b => simp [packCodes, wordsFor]
  | case4 a b c => simp [packCodes, wordsFor]
  | case5 a b c d rest ih => simp only [packCodes, List.length_cons, ih, wordsFor]; omega

/-- A script entry is the one its code stands for. -/
theorem codeScript_scriptCode (op : RawOp) : codeScript (scriptCode op) = some op := by
  cases op with
  | read => rfl
  | write b => cases b <;> rfl

theorem scriptOfCodes_map (script : List RawOp) : scriptOfCodes (script.map scriptCode) = some script := by
  induction script with
  | nil => rfl
  | cons op rest ih => simp [scriptOfCodes, codeScript_scriptCode, ih]

/-- The script packed is the script unpacked. -/
theorem unpackScript_packScript (script : List RawOp) : unpackScript script.length (packScript script) = some script := by
  obtain ⟨pad, h⟩ := packBytes_bytes (packCodes (script.map scriptCode))
  obtain ⟨more, g⟩ := packCodes_codes (script.map scriptCode)
  rw [unpackScript, packScript, h, List.flatMap_append, g, List.append_assoc, List.take_left' (by simp)]
  exact scriptOfCodes_map script

/-- Sixteen entries a word. -/
theorem packScript_length (script : List RawOp) : (packScript script).length = wordsFor script.length 16 := by
  simp only [packScript, packBytes_length, packCodes_length, List.length_map, wordsFor]; omega

/-! ### Headers -/

theorem headerOp_header (op : BitVec 4) (uid : BitVec 8) (len : BitVec 4) (arg : BitVec 16) :
    headerOp (header op uid len arg) = op := by
  apply BitVec.eq_of_getLsbD_eq; intro i hi
  interval_cases i <;> simp only [headerOp, header, BitVec.getLsbD_extractLsb', BitVec.getLsbD_append] <;> rfl

theorem headerUid_header (op : BitVec 4) (uid : BitVec 8) (len : BitVec 4) (arg : BitVec 16) :
    headerUid (header op uid len arg) = uid := by
  apply BitVec.eq_of_getLsbD_eq; intro i hi
  interval_cases i <;> simp only [headerUid, header, BitVec.getLsbD_extractLsb', BitVec.getLsbD_append] <;> rfl

theorem headerLen_header (op : BitVec 4) (uid : BitVec 8) (len : BitVec 4) (arg : BitVec 16) :
    headerLen (header op uid len arg) = len := by
  apply BitVec.eq_of_getLsbD_eq; intro i hi
  interval_cases i <;> simp only [headerLen, header, BitVec.getLsbD_extractLsb', BitVec.getLsbD_append] <;> rfl

theorem headerArg_header (op : BitVec 4) (uid : BitVec 8) (len : BitVec 4) (arg : BitVec 16) :
    headerArg (header op uid len arg) = arg := by
  apply BitVec.eq_of_getLsbD_eq; intro i hi
  interval_cases i <;> simp only [headerArg, header, BitVec.getLsbD_extractLsb', BitVec.getLsbD_append] <;> rfl

/-- A header is its four fields. -/
theorem header_fields (h : Word) : header (headerOp h) (headerUid h) (headerLen h) (headerArg h) = h := by
  apply BitVec.eq_of_getLsbD_eq; intro i hi
  simp only [header, BitVec.getLsbD_append, headerArg, headerLen, headerUid, headerOp, BitVec.getLsbD_extractLsb']
  interval_cases i <;> rfl

end Sys2Proof
end

