-- ==== Sys2Proof/Laws/Exec.lean ====
section
/-! SUPPORT. What the shared state operations answer, said once: an operation on a node, a step of a protocol state, a bit period; and
that every instruction keeps every participant; and what a host command can do. -/

namespace Sys2Proof.Machine

/-! ### Shared operations -/

/-- An operation on a node answers `NoSuchNode`, or commits the step of the node (log 2). -/
theorem onNode_next {uid : Word} {f : Node → Act} {s t : State} (h : onNode uid f s = .next t) :
    (nodeAt s uid.toNat = none ∧ t = answerCode .noSuchNode s)
      ∨ ∃ n, nodeAt s uid.toNat = some n ∧ t = commit uid.toNat (f n) s := by
  unfold onNode at h
  split at h
  · rename_i hn; exact .inl ⟨hn, by simpa using h.symm⟩
  · rename_i n hn; exact .inr ⟨n, hn, by simpa using h.symm⟩

/-- A command on a node's registers answers `NoSuchNode`, or writes them and answers `Ok` (R142). -/
theorem nodeCommand_next {uid : BitVec 8} {f : Node → Node} {s t : State} (h : nodeCommand uid f s = .next t) :
    (nodeAt s uid.toNat = none ∧ t = answerCode .noSuchNode s)
      ∨ ∃ n, nodeAt s uid.toNat = some n ∧ t = answerCode .ok (setNode s uid.toNat (f n)) := by
  unfold nodeCommand at h
  split at h
  · rename_i hn; exact .inl ⟨hn, by simpa using h.symm⟩
  · rename_i n hn; exact .inr ⟨n, hn, by simpa using h.symm⟩

/-- An attach command answers `NodeAttachError`, or appends the participant (R145, R146). -/
theorem attachCommand_next {p : Attached} {s t : State} (h : attachCommand p s = .next t) :
    (s.active = true ∧ t = answerCode .nodeAttachError s) ∨ (s.active = false ∧ t = attachTo p s) := by
  unfold attachCommand at h
  split at h
  · rename_i ha; exact .inl ⟨ha, by simpa using h.symm⟩
  · rename_i ha; exact .inr ⟨by simpa using ha, by simpa using h.symm⟩

/-- A step of a protocol state answers `NoSuchNode`, raises the fault of an inactive bus, or commits a step that keeps what every
step keeps, on the bus word or on the bus word with the node's bit ANDed in (R73, R74; log 4). -/
theorem stateStep_next {ps : Ps} {uid : Word} {s t : State} (h : stateStep ps uid s = .next t) :
    (nodeAt s uid.toNat = none ∧ t = answerCode .noSuchNode s)
      ∨ (s.active = false ∧ t = raiseFault .ioOnInactiveBus s)
      ∨ ∃ n a s', nodeAt s uid.toNat = some n ∧ Kept n a.node ∧ t = commit uid.toNat a s'
          ∧ (s' = s ∨ ∃ b, s.active = true ∧ s' = writeBy n.st b s) := by
  unfold stateStep at h
  split at h
  · rename_i hn; exact .inl ⟨hn, by simpa using h.symm⟩
  · rename_i n hn
    have start : ∀ t, t = startState ps uid.toNat n s → ∃ n a s', nodeAt s uid.toNat = some n ∧ Kept n a.node
        ∧ t = commit uid.toNat a s' ∧ (s' = s ∨ ∃ b, s.active = true ∧ s' = writeBy n.st b s) := by
      intro t ht
      refine ⟨n, _, s, hn, ?_, ht, .inl rfl⟩
      unfold busCall
      split
      · exact (enterPs_quiet ps (actOf n)).kept
      · exact andThen_kept (enterPs_quiet ps (actOf n)).kept (Kept.refl _)
    split at h
    · exact .inr (.inr (start t (by simpa using h.symm)))
    · split at h
      · rename_i p _ _
        unfold resumeNode at h
        split at h
        · rename_i b _
          split at h
          · rename_i ha
            exact .inr (.inr ⟨n, _, _, hn, (writeStep_quiet n).kept, by simpa using h.symm, .inr ⟨b, ha, rfl⟩⟩)
          · rename_i ha
            exact .inr (.inl ⟨by simpa using ha, by simpa using h.symm⟩)
        · split at h
          · exact .inr (.inr ⟨n, _, _, hn, readStep_kept _ n _, by simpa using h.symm, .inl rfl⟩)
          · rename_i ha
            exact .inr (.inl ⟨by simpa using ha, by simpa using h.symm⟩)
      · exact .inr (.inr (start t (by simpa using h.symm)))

/-- The participants after a bit period that runs: each has taken its turn in the write phase, then its turn in the read phase with
the bus word of the write phase (R75). -/
theorem runPeriod_participants (s : State) :
    (runPeriod s).participants = s.participants.map fun p =>
      (readTurn s.cfg s.period (writeTurn s.cfg s.period p .recessive).part (writePhase s).busState).part := by
  have h1 : (writePhase s).participants = s.participants.map fun p => (writeTurn s.cfg s.period p .recessive).part := by
    simp only [writePhase, applyRound_participants]
    exact allTurns_parts_of_const (writeTurn_part _ _) _ _ _
  have h2 : (writePhase s).cfg = s.cfg := by simp [writePhase]
  have h3 : (writePhase s).period = s.period := by simp [writePhase]
  simp only [runPeriod, endPeriod_participants, readPhase, applyRound_participants]
  rw [(allTurns_of_bus (readTurn_bus _ _) _ _).1, h1, h2, h3, List.map_map]
  rfl

/-- The bus word after a bit period that runs: the AND of what was written (R79). -/
theorem runPeriod_busState (s : State) :
    (runPeriod s).busState = ((s.participants.map (writtenBit s.cfg s.period)).filterMap id).foldl Bit.and .recessive := by
  simp only [runPeriod, endPeriod_busState, readPhase, applyRound_busState]
  rw [(allTurns_of_bus (readTurn_bus _ _) _ _).2]
  simp only [writePhase, applyRound_busState]
  exact allTurns_write_bus _ _ _ _

theorem runPeriod_kept (s : State) : PartsKept s.participants (runPeriod s).participants := by
  simp only [runPeriod, endPeriod_participants, readPhase, applyRound_participants]
  refine PartsKept.trans ?_ (allTurns_kept (readTurn_kept _ _) _ _)
  simp only [writePhase, applyRound_participants]
  exact allTurns_kept (writeTurn_kept _ _) _ _

/-! ### Every instruction keeps every participant -/

theorem commit_kept {s : State} {u : Nat} {n : Node} {a : Act} (hn : nodeAt s u = some n) (h : Kept n a.node) :
    PartsKept s.participants (commit u a s).participants := by
  rw [commit_participants]; exact PartsKept.set hn h

theorem onNode_kept {uid : Word} {f : Node → Act} {s t : State} (h : onNode uid f s = .next t)
    (hf : ∀ n, Kept n (f n).node) : PartsKept s.participants t.participants := by
  obtain ⟨-, rfl⟩ | ⟨n, hn, rfl⟩ := onNode_next h
  · exact PartsKept.refl _
  · exact commit_kept hn (hf n)

theorem stateStep_kept {ps : Ps} {uid : Word} {s t : State} (h : stateStep ps uid s = .next t) :
    PartsKept s.participants t.participants := by
  obtain ⟨-, rfl⟩ | ⟨-, rfl⟩ | ⟨n, a, s', hn, hk, rfl, rfl | ⟨b, -, rfl⟩⟩ := stateStep_next h
  · exact PartsKept.refl _
  · exact PartsKept.refl _
  · exact commit_kept hn hk
  · rw [commit_participants, writeBy_participants]; exact PartsKept.set hn hk

/-- Rules 9, 10 and 11 taken alone keep what every step keeps (R135, R136, R137; log 5). -/
theorem moveTo_rule_kept {n : Node} (next : FcState) (hb : n.st = .busOff → next = .busOff)
    (hc : countersOk n = true → countersOk { n with st := next } = true) : Kept n (moveTo next (actOf n)).node := by
  rw [moveTo_node]
  exact ⟨rfl, rfl, hb, hc⟩

theorem enterBusOff_node (a : Act) : (enterBusOff a).node = a.node := by unfold enterBusOff; split <;> rfl

/-- Every instruction that answers a next state keeps every participant at its place. -/
theorem exec_kept {i : Instr} {s t : State} (h : exec i s = .next t) : PartsKept s.participants t.participants := by
  cases i <;> simp only [exec] at h
  case attach id =>
    obtain ⟨-, rfl⟩ | ⟨-, rfl⟩ := attachCommand_next h
    · exact PartsKept.refl _
    · exact PartsKept.append _ _
  case attachRaw script =>
    obtain ⟨-, rfl⟩ | ⟨-, rfl⟩ := attachCommand_next h
    · exact PartsKept.refl _
    · exact PartsKept.append _ _
  case setBehavior uid k =>
    obtain ⟨-, rfl⟩ | ⟨n, hn, rfl⟩ := nodeCommand_next h
    · exact PartsKept.refl _
    · exact PartsKept.set hn (Kept.of_eq rfl rfl rfl rfl rfl)
  case setBusOffFunc uid k =>
    obtain ⟨-, rfl⟩ | ⟨n, hn, rfl⟩ := nodeCommand_next h
    · exact PartsKept.refl _
    · exact PartsKept.set hn (Kept.of_eq rfl rfl rfl rfl rfl)
  case enqueue uid data =>
    unfold execEnqueue at h
    split at h
    · cases h; exact PartsKept.refl _
    · rename_i n hn
      split at h
      · cases h; exact PartsKept.refl _
      · cases h; exact PartsKept.refl _
      · split at h
        · cases h
        · cases h; exact PartsKept.set hn (Kept.of_eq rfl rfl rfl rfl rfl)
  case seed uid x y =>
    unfold execSeed at h
    split at h
    · cases h; exact PartsKept.refl _
    · rename_i n hn
      split at h
      · cases h; exact PartsKept.refl _
      · split at h
        · cases h
          simp only [answerCode_participants]
          exact commit_kept hn (updateState_kept n _ rfl rfl rfl)
        · cases h; exact PartsKept.refl _
  case activate =>
    unfold execActivate at h
    split at h
    · cases h; exact PartsKept.refl _
    · cases h; rw [applyRound_participants]; exact allTurns_kept startTurn_kept _ _
  case status uid =>
    unfold execStatus at h
    split at h <;> (cases h; exact PartsKept.refl _)
  case halt => cases h; exact PartsKept.refl _
  case reserved0 low => cases h; exact PartsKept.refl _
  case reservedAB low => cases h; exact PartsKept.refl _
  case reservedCF low => cases h; exact PartsKept.refl _
  case busAttach p =>
    unfold execBusAttach at h
    split at h
    · cases h; exact PartsKept.refl _
    · cases h; exact PartsKept.append _ _
  case busWrite uid b =>
    unfold execBusWrite at h
    split at h
    · cases h; exact PartsKept.refl _
    · cases h; rw [writeBy_participants]; exact PartsKept.refl _
    · cases h; rw [driveBus_participants]; exact PartsKept.refl _
  case busRead uid =>
    unfold execBusRead at h
    split at h
    · cases h; exact PartsKept.refl _
    · split at h <;> (cases h; exact PartsKept.refl _)
  case busPeriod =>
    unfold execBusPeriod at h
    split at h
    · split at h
      · cases h; simp only [nextPeriod_participants]; exact PartsKept.refl _
      · cases h
        have := runPeriod_kept (nextPeriod s)
        rwa [nextPeriod_participants] at this
    · cases h; rw [closeBoundary_participants]; exact PartsKept.refl _
  case frameNew id data => cases h; exact PartsKept.refl _
  case frameSize f => cases h; exact PartsKept.refl _
  case frameBit f k =>
    unfold execFrameBit at h
    split at h <;> (cases h; exact PartsKept.refl _)
  case frameString f => cases h; exact PartsKept.refl _
  case queuePushBack uid f => exact onNode_kept h fun n => Kept.of_eq rfl rfl rfl rfl rfl
  case queuePopFront uid =>
    unfold execQueuePopFront at h
    split at h
    · cases h; exact PartsKept.refl _
    · rename_i n hn
      cases h
      refine PartsKept.set hn ?_
      unfold popFront
      split <;> exact Kept.of_eq rfl rfl rfl rfl rfl
  case queuePushFront uid f => exact onNode_kept h fun n => Kept.of_eq rfl rfl rfl rfl rfl
  case stuffWriteBit uid b =>
    unfold execStuffWriteBit at h
    split at h
    · cases h; exact PartsKept.refl _
    · rename_i n hn
      cases h
      rw [writeNow, writeBy_participants]
      exact PartsKept.set hn (Kept.of_eq rfl rfl rfl rfl rfl)
  case stuffReadBit uid =>
    unfold execStuffReadBit at h
    split at h
    · cases h; exact PartsKept.refl _
    · rename_i n hn
      split at h
      · cases h; exact PartsKept.set hn (Kept.of_eq rfl rfl rfl rfl rfl)
      · cases h; exact PartsKept.refl _
  case stuffMaybeWriteStuff uid =>
    unfold execStuffMaybeWriteStuff at h
    split at h
    · cases h; exact PartsKept.refl _
    · rename_i n hn
      split at h
      · split at h
        · cases h
          rw [answer_participants, writeNow, writeBy_participants]
          exact PartsKept.set hn (Kept.of_eq rfl rfl rfl rfl rfl)
        · cases h
          rw [writeNow, writeBy_participants]
          exact PartsKept.set hn (Kept.of_eq rfl rfl rfl rfl rfl)
      · cases h; exact PartsKept.refl _
  case stuffMaybeReadStuff uid =>
    unfold execStuffMaybeReadStuff at h
    split at h
    · cases h; exact PartsKept.refl _
    · rename_i n hn
      split at h
      · split at h
        · cases h; exact PartsKept.set hn (Kept.of_eq rfl rfl rfl rfl rfl)
        · cases h; exact PartsKept.refl _
      · cases h; exact PartsKept.refl _
  case fcUpdateState uid => exact onNode_kept h fun n => updateState_kept n _ rfl rfl rfl
  case fcRecPlus1 uid => exact onNode_kept h fun n => addRec_kept _ 1 (actOf n)
  case fcRule2 uid => exact onNode_kept h fun n => addRec_kept _ 8 (actOf n)
  case fcTecPlus8 uid => exact onNode_kept h fun n => addTec_kept _ 8 (actOf n)
  case fcRule45 uid => exact onNode_kept h fun n => rule45_kept _ (actOf n)
  case fcRule7 uid => exact onNode_kept h fun n => rule7_kept (actOf n)
  case fcRule8 uid => exact onNode_kept h fun n => rule8_kept _ (actOf n)
  case fcRule9 uid =>
    refine onNode_kept h fun n => moveTo_rule_kept _ ?_ ?_ <;> unfold rule9Target
    · intro e; simp [e]
    · intro e; split
      · rfl
      · simpa using e
  case fcRule10 uid =>
    refine onNode_kept h fun n => moveTo_rule_kept _ ?_ ?_ <;> unfold rule10Target
    · intro e; simp [e]
    · intro e; split
      · rfl
      · simpa using e
  case fcRule11 uid =>
    refine onNode_kept h fun n => moveTo_rule_kept _ ?_ ?_ <;> unfold rule11Target
    · intro e; simp [e]
    · intro e; split
      · rename_i g; simp [countersOk, g.2.1, g.2.2]
      · simpa using e
  case fcBusOff uid =>
    refine onNode_kept h fun n => ?_
    rw [enterBusOff_node]; exact Kept.refl _
  all_goals exact stateStep_kept h

/-! ### Host commands (R142, R143) -/

/-- What a host command can do: answer; attach; start the bus; write a node's handles, the tail of its queue or its counters; set
`halted`; or find a seed too wide (log 14). -/
inductive HostStep (s : State) : Instr → State → Prop
  | answered (i : Instr) (r : Result) (ok : r ≠ .code .ok) : HostStep s i (answer r s)
  | attached (i : Instr) (p : Attached) (still : s.active = false) : HostStep s i (attachTo p s)
  | started (still : s.active = false) : HostStep s .activate (applyRound startTurn { s with active := true })
  | behaves (uid : BitVec 8) (h : BitVec 16) (n : Node) (at_uid : nodeAt s uid.toNat = some n) :
    HostStep s (.setBehavior uid h) (answerCode .ok (setNode s uid.toNat { n with behavior := handleOf h }))
  | calls (uid : BitVec 8) (h : BitVec 16) (n : Node) (at_uid : nodeAt s uid.toNat = some n) :
    HostStep s (.setBusOffFunc uid h) (answerCode .ok (setNode s uid.toNat { n with busOffFunc := handleOf h }))
  | enqueued (uid : BitVec 8) (data : List Byte) (f : Frame) (n : Node) (at_uid : nodeAt s uid.toNat = some n) :
    HostStep s (.enqueue uid data) (answerCode .ok (setNode s uid.toNat (pushBack f n)))
  | seeded (uid : BitVec 8) (v w : Word) (n : Node) (at_uid : nodeAt s uid.toNat = some n) (still : s.active = false) :
    HostStep s (.seed uid v w) (answerCode .ok (commit uid.toNat (seedStep v.toNat w.toNat n) s))
  | tooWide (i : Instr) : HostStep s i (raiseFault .counterOverflow s)
  | halts : HostStep s .halt (answerCode .ok { s with halted := true })

theorem attachCommand_step {p : Attached} {i : Instr} {s t : State} (h : attachCommand p s = .next t) : HostStep s i t := by
  rcases attachCommand_next h with ⟨_, rfl⟩ | ⟨ha, rfl⟩
  · exact .answered _ _ (by decide)
  · exact .attached _ _ ha

theorem execEnqueue_step {uid : BitVec 8} {data : List Byte} {s t : State} (h : execEnqueue uid data s = .next t) :
    HostStep s (.enqueue uid data) t := by
  unfold execEnqueue at h
  split at h
  · cases h; exact .answered _ _ (by decide)
  · rename_i n hn
    split at h
    · cases h; exact .answered _ _ (by decide)
    · cases h; exact .answered _ _ (by decide)
    · split at h
      · cases h
      · cases h; exact .enqueued _ _ _ _ hn

theorem execSeed_step {uid : BitVec 8} {v w : Word} {s t : State} (h : execSeed uid v w s = .next t) : HostStep s (.seed uid v w) t := by
  unfold execSeed at h
  split at h
  · cases h; exact .answered _ _ (by decide)
  · rename_i n hn
    split at h
    · cases h; exact .answered _ _ (by decide)
    · rename_i ha
      split at h
      · cases h; exact .seeded _ _ _ _ hn (by simpa using ha)
      · cases h; exact .tooWide _

/-- A host command that answers a next state does one of these (R143). -/
theorem hostCommand_step {i : Instr} {s t : State} (hi : isHostCommand i = true) (h : exec i s = .next t) : HostStep s i t := by
  cases i <;> simp only [isHostCommand, Bool.false_eq_true] at hi <;> simp only [exec] at h
  case attach => exact attachCommand_step h
  case attachRaw => exact attachCommand_step h
  case setBehavior =>
    rcases nodeCommand_next h with ⟨_, rfl⟩ | ⟨n, hn, rfl⟩
    · exact .answered _ _ (by decide)
    · exact .behaves _ _ n hn
  case setBusOffFunc =>
    rcases nodeCommand_next h with ⟨_, rfl⟩ | ⟨n, hn, rfl⟩
    · exact .answered _ _ (by decide)
    · exact .calls _ _ n hn
  case enqueue => exact execEnqueue_step h
  case seed => exact execSeed_step h
  case activate =>
    unfold execActivate at h
    split at h
    · cases h; exact .answered _ _ (by decide)
    · rename_i ha; cases h; exact .started (by simpa using ha)
  case status =>
    unfold execStatus at h
    split at h <;> cases h
    · exact .answered _ _ (by decide)
    · exact .answered _ _ (by simp [statusResult])
  case halt => cases h; exact .halts
  case reserved0 => cases h; exact .answered _ _ (by decide)
  case reservedAB => cases h; exact .answered _ _ (by decide)
  case reservedCF => cases h; exact .answered _ _ (by decide)

/-! ### The step -/

/-- The next command of the boundary is a callback's, or, when none is left, the host's own (R155). -/
theorem nextCommand?_some {s t : State} {c : Command} (h : nextCommand? s = some (c, t)) :
    (∃ rest, s.issued = c :: rest ∧ t = { s with issued := rest })
      ∨ ∃ rest later, s.issued = [] ∧ s.host = (c :: rest) :: later ∧ t = { s with host := rest :: later } := by
  unfold nextCommand? at h
  split at h
  · rename_i q rest hq
    simp only [Option.some.injEq, Prod.mk.injEq] at h
    exact .inl ⟨rest, by rw [hq, h.1], h.2.symm⟩
  · rename_i hi
    split at h
    · rename_i q rest later hq
      simp only [Option.some.injEq, Prod.mk.injEq] at h
      exact .inr ⟨rest, later, hi, by rw [hq, h.1], h.2.symm⟩
    · cases h
    · cases h

/-- The next packet is a placed one, or, when none is left, the next command of the boundary (log 6, R155). -/
theorem fetch?_some {s t : State} {p : Packet} (h : fetch? s = some (p, t)) :
    (∃ rest, s.placed = p :: rest ∧ t = { s with placed := rest })
      ∨ ∃ c, s.placed = [] ∧ p = .command c ∧ nextCommand? s = some (c, t) := by
  unfold fetch? at h
  split at h
  · rename_i q rest hq
    simp only [Option.some.injEq, Prod.mk.injEq] at h
    exact .inl ⟨rest, by rw [hq, h.1], h.2.symm⟩
  · rename_i hp
    obtain ⟨⟨c, u⟩, hc, he⟩ := Option.map_eq_some_iff.1 h
    simp only [Prod.mk.injEq] at he
    exact .inr ⟨c, hp, he.1.symm, by rw [hc, he.2]⟩

/-- A packet runs the instruction it spells, or is answered `ReservedCommand` (R142, R154). -/
theorem runPacket_next {p : Packet} {s t : State} (h : runPacket p s = .next t) :
    (∃ i, decode p = .instr i ∧ exec i s = .next t)
      ∨ ((decode p = .rejected .reservedField ∨ decode p = .rejected .reservedScriptCode)
          ∧ t = answerCode .reservedCommand s) := by
  unfold runPacket at h
  split at h
  · rename_i i hi; exact .inl ⟨i, hi, h⟩
  · rename_i e he
    unfold rejectPacket at h
    cases e with
    | reservedField => exact .inr ⟨.inl he, by simpa using h.symm⟩
    | reservedScriptCode => exact .inr ⟨.inr he, by simpa using h.symm⟩
    | empty => cases h
    | wordCount => cases h
    | unknownOpid => cases h
    | badOperand => cases h

/-- A step runs the next packet, or a bit period (R141). -/
theorem step_next {s t : State} (h : step s = .next t) :
    (∃ p u, fetch? s = some (p, u) ∧ runPacket p u = .next t) ∨ (fetch? s = none ∧ exec .busPeriod s = .next t) := by
  unfold step at h
  split at h
  · cases h
  · split at h
    · rename_i p u hp; exact .inl ⟨p, u, hp, h⟩
    · rename_i hp; exact .inr ⟨hp, h⟩

/-- A bit period passes the batch of an inactive bus, stops the loop, or runs (R75; log 22). -/
theorem busPeriod_next {s t : State} (h : exec .busPeriod s = .next t) :
    (s.active = false ∧ t = closeBoundary s)
      ∨ (s.active = true ∧ loopStops s = true ∧ t = { nextPeriod s with phase := .stopped })
      ∨ (s.active = true ∧ loopStops s = false ∧ t = runPeriod (nextPeriod s)) := by
  simp only [exec, execBusPeriod] at h
  split at h
  · rename_i ha
    split at h
    · rename_i hl; exact .inr (.inl ⟨ha, hl, by simpa using h.symm⟩)
    · rename_i hl; exact .inr (.inr ⟨ha, by simpa using hl, by simpa using h.symm⟩)
  · rename_i ha; exact .inl ⟨by simpa using ha, by simpa using h.symm⟩

end Sys2Proof.Machine
end

