-- ==== Sys2Proof/Laws/PerInstr.lean ====
section
/-! SUPPORT. Family OpcodeRow: the first word of every instruction's packet is one that its row of spec/opcode_table.json matches
(R66, R67, R70). -/

namespace Sys2Proof.Laws.OpcodeRow

/-- A row of the table: whether it is a host command's, and its mask and match. -/
structure Row where
  command : Bool
  mask : Word
  value : Word

/-- The row of each constructor, in the table's order. -/
def row : Instr → Row
  | .attach _ => ⟨true, 0xFFFF0000, 0x10000000⟩
  | .attachRaw _ => ⟨true, 0xFFFFFFFF, 0x20000000⟩
  | .setBehavior _ _ => ⟨true, 0xF00F0000, 0x30000000⟩
  | .setBusOffFunc _ _ => ⟨true, 0xF00F0000, 0x40000000⟩
  | .enqueue _ _ => ⟨true, 0xF000FFFF, 0x50000000⟩
  | .seed _ _ _ => ⟨true, 0xF00FFFFF, 0x60000000⟩
  | .activate => ⟨true, 0xFFFFFFFF, 0x70000000⟩
  | .status _ => ⟨true, 0xF00FFFFF, 0x80000000⟩
  | .halt => ⟨true, 0xFFFFFFFF, 0x90000000⟩
  | .reserved0 _ => ⟨true, 0xF0000000, 0x00000000⟩
  | .reservedAB _ => ⟨true, 0xE0000000, 0xA0000000⟩
  | .reservedCF _ => ⟨true, 0xC0000000, 0xC0000000⟩
  | .busAttach _ => ⟨false, 0xFF, 0x20⟩
  | .busWrite _ _ => ⟨false, 0xFF, 0x21⟩
  | .busRead _ => ⟨false, 0xFF, 0x22⟩
  | .busPeriod => ⟨false, 0xFF, 0x80⟩
  | .frameNew _ _ => ⟨false, 0xFF, 0x30⟩
  | .frameSize _ => ⟨false, 0xFF, 0x31⟩
  | .frameBit _ _ => ⟨false, 0xFF, 0x32⟩
  | .frameString _ => ⟨false, 0xFF, 0x33⟩
  | .queuePushBack _ _ => ⟨false, 0xFF, 0x40⟩
  | .queuePopFront _ => ⟨false, 0xFF, 0x41⟩
  | .queuePushFront _ _ => ⟨false, 0xFF, 0x42⟩
  | .stuffWriteBit _ _ => ⟨false, 0xFF, 0x50⟩
  | .stuffReadBit _ => ⟨false, 0xFF, 0x51⟩
  | .stuffMaybeWriteStuff _ => ⟨false, 0xFF, 0x52⟩
  | .stuffMaybeReadStuff _ => ⟨false, 0xFF, 0x53⟩
  | .fsmIntermission _ => ⟨false, 0xFF, 0x60⟩
  | .fsmSuspendTransmission _ => ⟨false, 0xFF, 0x61⟩
  | .fsmBusIdle _ => ⟨false, 0xFF, 0x62⟩
  | .fsmArbitration _ => ⟨false, 0xFF, 0x63⟩
  | .fsmDlc _ => ⟨false, 0xFF, 0x64⟩
  | .fsmData _ => ⟨false, 0xFF, 0x65⟩
  | .fsmEof _ => ⟨false, 0xFF, 0x66⟩
  | .fsmError _ => ⟨false, 0xFF, 0x67⟩
  | .fcUpdateState _ => ⟨false, 0xFF, 0x70⟩
  | .fcRecPlus1 _ => ⟨false, 0xFF, 0x71⟩
  | .fcRule2 _ => ⟨false, 0xFF, 0x72⟩
  | .fcTecPlus8 _ => ⟨false, 0xFF, 0x73⟩
  | .fcRule45 _ => ⟨false, 0xFF, 0x74⟩
  | .fcRule7 _ => ⟨false, 0xFF, 0x75⟩
  | .fcRule8 _ => ⟨false, 0xFF, 0x76⟩
  | .fcRule9 _ => ⟨false, 0xFF, 0x77⟩
  | .fcRule10 _ => ⟨false, 0xFF, 0x78⟩
  | .fcRule11 _ => ⟨false, 0xFF, 0x79⟩
  | .fcBusOff _ => ⟨false, 0xFF, 0x7A⟩

/-- The words of a packet are those of a row. -/
def Row.takes (r : Row) : Packet → Prop
  | .command (w :: _) => r.command = true ∧ w &&& r.mask = r.value
  | .operation (w :: _) => r.command = false ∧ w &&& r.mask = r.value
  | .command [] => False
  | .operation [] => False

/-- The packet of a well-formed instruction is one of its row. -/
def Statement (i : Instr) : Prop := i.wf = true → (row i).takes (encode i)

/-- A header's bits under a mask that has whole fields. -/
theorem header_masked (op : BitVec 4) (uid : BitVec 8) (len : BitVec 4) (arg : BitVec 16) (mo : BitVec 4) (mu : BitVec 8)
    (ml : BitVec 4) (ma : BitVec 16) :
    header op uid len arg &&& header mo mu ml ma = header (op &&& mo) (uid &&& mu) (len &&& ml) (arg &&& ma) := by
  apply BitVec.eq_of_getLsbD_eq; intro i hi
  simp only [header, BitVec.getLsbD_and, BitVec.getLsbD_append]
  interval_cases i <;> rfl

/-- A word of a high field and a rest, under a mask of the high field. -/
theorem field_masked {a b : Nat} (hi m : BitVec a) (low : BitVec b) :
    (hi ++ low) &&& (m ++ (0 : BitVec b)) = (hi &&& m) ++ (0 : BitVec b) := by
  apply BitVec.eq_of_getLsbD_eq; intro i _
  simp only [BitVec.getLsbD_and, BitVec.getLsbD_append]
  split <;> simp

theorem attach (id : BitVec 16) : Statement (.attach id) := fun _ => by
  refine ⟨rfl, ?_⟩
  show _ &&& header 0xf 0xff 0xf 0x0 = header 1 0 0 0
  rw [header_masked]; simp
theorem attachRaw (script : List RawOp) : Statement (.attachRaw script) := fun _ => ⟨rfl, show (0x20000000 : Word) &&& 0xFFFFFFFF = 0x20000000 by decide⟩
theorem setBehavior (uid : BitVec 8) (handle : BitVec 16) : Statement (.setBehavior uid handle) := fun _ => by
  refine ⟨rfl, ?_⟩
  show _ &&& header 0xf 0x0 0xf 0x0 = header 3 0 0 0
  rw [header_masked]; simp
theorem setBusOffFunc (uid : BitVec 8) (handle : BitVec 16) : Statement (.setBusOffFunc uid handle) := fun _ => by
  refine ⟨rfl, ?_⟩
  show _ &&& header 0xf 0x0 0xf 0x0 = header 4 0 0 0
  rw [header_masked]; simp
theorem enqueue (uid : BitVec 8) (data : List Byte) : Statement (.enqueue uid data) := fun _ => by
  refine ⟨rfl, ?_⟩
  show _ &&& header 0xf 0x0 0x0 0xffff = header 5 0 0 0
  rw [header_masked]; simp
theorem seed (uid : BitVec 8) (t : Word) (r : Word) : Statement (.seed uid t r) := fun _ => by
  refine ⟨rfl, ?_⟩
  show _ &&& header 0xf 0x0 0xf 0xffff = header 6 0 0 0
  rw [header_masked]; simp
theorem activate : Statement .activate := fun _ => ⟨rfl, show (0x70000000 : Word) &&& 0xFFFFFFFF = 0x70000000 by decide⟩
theorem status (uid : BitVec 8) : Statement (.status uid) := fun _ => by
  refine ⟨rfl, ?_⟩
  show _ &&& header 0xf 0x0 0xf 0xffff = header 8 0 0 0
  rw [header_masked]; simp
theorem halt : Statement .halt := fun _ => ⟨rfl, show (0x90000000 : Word) &&& 0xFFFFFFFF = 0x90000000 by decide⟩
theorem reserved0 (low : BitVec 28) : Statement (.reserved0 low) := fun _ => by
  refine ⟨rfl, ?_⟩
  show ((0 : BitVec 4) ++ low) &&& ((0xF : BitVec 4) ++ (0 : BitVec 28)) = _
  rw [field_masked]; rfl
theorem reservedAB (low : BitVec 29) : Statement (.reservedAB low) := fun _ => by
  refine ⟨rfl, ?_⟩
  show ((0b101 : BitVec 3) ++ low) &&& ((0b111 : BitVec 3) ++ (0 : BitVec 29)) = _
  rw [field_masked]; rfl
theorem reservedCF (low : BitVec 30) : Statement (.reservedCF low) := fun _ => by
  refine ⟨rfl, ?_⟩
  show ((0b11 : BitVec 2) ++ low) &&& ((0b11 : BitVec 2) ++ (0 : BitVec 30)) = _
  rw [field_masked]; rfl
theorem busAttach (p : Attached) : Statement (.busAttach p) := fun _ => ⟨rfl, show (0x20 : Word) &&& 0xFF = 0x20 by decide⟩
theorem busWrite (uid : Word) (b : Bit) : Statement (.busWrite uid b) := fun _ => ⟨rfl, show (0x21 : Word) &&& 0xFF = 0x21 by decide⟩
theorem busRead (uid : Word) : Statement (.busRead uid) := fun _ => ⟨rfl, show (0x22 : Word) &&& 0xFF = 0x22 by decide⟩
theorem busPeriod : Statement .busPeriod := fun _ => ⟨rfl, show (0x80 : Word) &&& 0xFF = 0x80 by decide⟩
theorem frameNew (id : Word) (data : List Byte) : Statement (.frameNew id data) := fun _ => ⟨rfl, show (0x30 : Word) &&& 0xFF = 0x30 by decide⟩
theorem frameSize (f : Frame) : Statement (.frameSize f) := fun _ => ⟨rfl, show (0x31 : Word) &&& 0xFF = 0x31 by decide⟩
theorem frameBit (f : Frame) (i : Word) : Statement (.frameBit f i) := fun _ => ⟨rfl, show (0x32 : Word) &&& 0xFF = 0x32 by decide⟩
theorem frameString (f : Frame) : Statement (.frameString f) := fun _ => ⟨rfl, show (0x33 : Word) &&& 0xFF = 0x33 by decide⟩
theorem queuePushBack (uid : Word) (f : Frame) : Statement (.queuePushBack uid f) := fun _ => ⟨rfl, show (0x40 : Word) &&& 0xFF = 0x40 by decide⟩
theorem queuePopFront (uid : Word) : Statement (.queuePopFront uid) := fun _ => ⟨rfl, show (0x41 : Word) &&& 0xFF = 0x41 by decide⟩
theorem queuePushFront (uid : Word) (f : Frame) : Statement (.queuePushFront uid f) := fun _ => ⟨rfl, show (0x42 : Word) &&& 0xFF = 0x42 by decide⟩
theorem stuffWriteBit (uid : Word) (b : Bit) : Statement (.stuffWriteBit uid b) := fun _ => ⟨rfl, show (0x50 : Word) &&& 0xFF = 0x50 by decide⟩
theorem stuffReadBit (uid : Word) : Statement (.stuffReadBit uid) := fun _ => ⟨rfl, show (0x51 : Word) &&& 0xFF = 0x51 by decide⟩
theorem stuffMaybeWriteStuff (uid : Word) : Statement (.stuffMaybeWriteStuff uid) := fun _ => ⟨rfl, show (0x52 : Word) &&& 0xFF = 0x52 by decide⟩
theorem stuffMaybeReadStuff (uid : Word) : Statement (.stuffMaybeReadStuff uid) := fun _ => ⟨rfl, show (0x53 : Word) &&& 0xFF = 0x53 by decide⟩
theorem fsmIntermission (uid : Word) : Statement (.fsmIntermission uid) := fun _ => ⟨rfl, show (0x60 : Word) &&& 0xFF = 0x60 by decide⟩
theorem fsmSuspendTransmission (uid : Word) : Statement (.fsmSuspendTransmission uid) := fun _ => ⟨rfl, show (0x61 : Word) &&& 0xFF = 0x61 by decide⟩
theorem fsmBusIdle (uid : Word) : Statement (.fsmBusIdle uid) := fun _ => ⟨rfl, show (0x62 : Word) &&& 0xFF = 0x62 by decide⟩
theorem fsmArbitration (uid : Word) : Statement (.fsmArbitration uid) := fun _ => ⟨rfl, show (0x63 : Word) &&& 0xFF = 0x63 by decide⟩
theorem fsmDlc (uid : Word) : Statement (.fsmDlc uid) := fun _ => ⟨rfl, show (0x64 : Word) &&& 0xFF = 0x64 by decide⟩
theorem fsmData (uid : Word) : Statement (.fsmData uid) := fun _ => ⟨rfl, show (0x65 : Word) &&& 0xFF = 0x65 by decide⟩
theorem fsmEof (uid : Word) : Statement (.fsmEof uid) := fun _ => ⟨rfl, show (0x66 : Word) &&& 0xFF = 0x66 by decide⟩
theorem fsmError (uid : Word) : Statement (.fsmError uid) := fun _ => ⟨rfl, show (0x67 : Word) &&& 0xFF = 0x67 by decide⟩
theorem fcUpdateState (uid : Word) : Statement (.fcUpdateState uid) := fun _ => ⟨rfl, show (0x70 : Word) &&& 0xFF = 0x70 by decide⟩
theorem fcRecPlus1 (uid : Word) : Statement (.fcRecPlus1 uid) := fun _ => ⟨rfl, show (0x71 : Word) &&& 0xFF = 0x71 by decide⟩
theorem fcRule2 (uid : Word) : Statement (.fcRule2 uid) := fun _ => ⟨rfl, show (0x72 : Word) &&& 0xFF = 0x72 by decide⟩
theorem fcTecPlus8 (uid : Word) : Statement (.fcTecPlus8 uid) := fun _ => ⟨rfl, show (0x73 : Word) &&& 0xFF = 0x73 by decide⟩
theorem fcRule45 (uid : Word) : Statement (.fcRule45 uid) := fun _ => ⟨rfl, show (0x74 : Word) &&& 0xFF = 0x74 by decide⟩
theorem fcRule7 (uid : Word) : Statement (.fcRule7 uid) := fun _ => ⟨rfl, show (0x75 : Word) &&& 0xFF = 0x75 by decide⟩
theorem fcRule8 (uid : Word) : Statement (.fcRule8 uid) := fun _ => ⟨rfl, show (0x76 : Word) &&& 0xFF = 0x76 by decide⟩
theorem fcRule9 (uid : Word) : Statement (.fcRule9 uid) := fun _ => ⟨rfl, show (0x77 : Word) &&& 0xFF = 0x77 by decide⟩
theorem fcRule10 (uid : Word) : Statement (.fcRule10 uid) := fun _ => ⟨rfl, show (0x78 : Word) &&& 0xFF = 0x78 by decide⟩
theorem fcRule11 (uid : Word) : Statement (.fcRule11 uid) := fun _ => ⟨rfl, show (0x79 : Word) &&& 0xFF = 0x79 by decide⟩
theorem fcBusOff (uid : Word) : Statement (.fcBusOff uid) := fun _ => ⟨rfl, show (0x7A : Word) &&& 0xFF = 0x7A by decide⟩

end Sys2Proof.Laws.OpcodeRow
end

