-- ==== Sys2Proof/Laws/Stuff.lean ====
section
/-! SUPPORT. The loop of `stuffEncode`, one bit at a time, and the runs of a list (R59). -/

namespace Sys2Proof.Machine

/-- The first bit of the region is emitted as it is. -/
theorem stuffLoop_first (x : Bit) (rest : List Bit) : stuffLoop none 0 (x :: rest) = x :: stuffLoop (some x) 1 rest := rfl

/-- A bit after a run of 5: a stuff bit goes before it. -/
theorem stuffLoop_due (l x : Bit) (rest : List Bit) :
    stuffLoop (some l) 5 (x :: rest) = l.flip :: x :: stuffLoop (some x) (if x = l.flip then 2 else 1) rest := rfl

/-- A bit equal to the last one, with no stuff bit due: the run is one longer. -/
theorem stuffLoop_same {run : Nat} (h : run ≠ 5) (l : Bit) (rest : List Bit) :
    stuffLoop (some l) run (l :: rest) = l :: stuffLoop (some l) (run + 1) rest := by
  simp [stuffLoop, Config.stuffRun, h]

/-- A bit unlike the last one, with no stuff bit due: a run of 1 starts. -/
theorem stuffLoop_other {run : Nat} (h : run ≠ 5) {l x : Bit} (hx : x ≠ l) (rest : List Bit) :
    stuffLoop (some l) run (x :: rest) = x :: stuffLoop (some x) 1 rest := by
  simp [stuffLoop, Config.stuffRun, h, hx]

/-- A bit put before an equal one makes the head run one longer. -/
theorem headRun_same (a : Bit) (rest : List Bit) : headRun (a :: a :: rest) = headRun (a :: rest) + 1 := by simp [headRun]

/-- A bit put before an unlike one is a run of its own. -/
theorem headRun_other {a b : Bit} (h : a ≠ b) (rest : List Bit) : headRun (a :: b :: rest) = 1 := by simp [headRun, h]

/-- A frame has `size()` bits (R85). -/
theorem frameBits_length (f : Frame) : (frameBits f).length = frameSize f := by
  unfold frameBits
  have h : ∀ n, n ≤ frameSize f → ((List.range n).filterMap (frameBit? f)).length = n := by
    intro n hn
    induction n with
    | zero => rfl
    | succ k ih =>
      have hb : ∃ b, frameBit? f k = some b := by
        unfold frameBit?; rw [if_pos (by omega)]
        split
        · exact ⟨_, rfl⟩
        · split <;> exact ⟨_, rfl⟩
      obtain ⟨b, hb⟩ := hb
      rw [List.range_succ, List.filterMap_append, List.length_append, ih (by omega)]
      simp [hb]
  exact h _ (Nat.le_refl _)

end Sys2Proof.Machine
end

