-- ==== Sys2Proof/Tests/Slice0.lean ====
section
/-! SUPPORT. Tests of one step or one definition each, with results from outside the model (the vectors of spec/95_test_vectors.md are
named by their number: S, B, FR, Q, ST, SE, F, FC, H, RS), and for each statement a witness that meets its hypotheses. -/

namespace Sys2Proof.Tests

open Sys2Proof.Machine

/-! ### Helpers -/

/-- The frame of S2: identifier 0x0F0, payload 0xAA. -/
def frameAA : Frame := { id := 0x0F0, data := [0xAA], short := by decide }

/-- The frame of S15: identifier 0, payload 0. -/
def frame00 : Frame := { id := 0, data := [0x00], short := by decide }

/-- A frame without payload. -/
def frameEmpty : Frame := { id := 0x7FF, data := [], short := by decide }

/-- A new node with identifier 0x0F0. -/
def fresh : Node := Node.reset 0 0x0F0

/-- A Receiver, or a node between frames, at a point. -/
def rx (p : Point) : Node := { fresh with pos := some p }

/-- A Transmitter of `frameAA` at a point. -/
def tx (p : Point) : Node := { fresh with pos := some p, role := .transmitter, cur := some frameAA }

/-- A node with a state and counters, not started. -/
def counted (st : FcState) (t r : Nat) : Node := { fresh with st := st, tec := t, recCtr := r }

/-- A BusOff node that reads an idle bus. -/
def off : Node := { rx .idleR with st := .busOff, tec := 256 }

/-- An inactive bus with one node. -/
def still (n : Node) : State := { State.reset with participants := [.node n] }

/-- An active bus with one node and a bus value. -/
def bus (b : Bit) (n : Node) : State := { still n with active := true, busState := b }

/-- An active bus with several participants. -/
def live (ps : List Participant) : State := { State.reset with active := true, participants := ps }

/-- A raw participant. -/
def raw (uid : Nat) (script : List RawOp) (index : Nat) : Raw := { uid := uid, script := script, index := index, reads := [] }

/-- The next state, if there is one. -/
def nextOf (o : Host.Outcome State Fault Refusal) : Option State :=
  match o with
  | .next t => some t
  | .fault _ => none
  | .refused _ => none

/-- The result an instruction gives. -/
def resultOf (i : Instr) (s : State) : Option Result := (nextOf (exec i s)).bind (·.results.getLast?)

/-- What a projection reads of node 0 after an instruction. -/
def nodeOf {α : Type} (f : Node → α) (i : Instr) (s : State) : Option α := ((nextOf (exec i s)).bind (nodeAt · 0)).map f

/-- What a projection reads of the state after an instruction. -/
def stateOf {α : Type} (f : State → α) (i : Instr) (s : State) : Option α := (nextOf (exec i s)).map f

/-- The kinds of the events of a state. -/
def kinds (s : State) : List EventKind := s.events.map (·.kind)

/-- `st`, `tec` and `rec` of a node. -/
def counters (n : Node) : FcState × Nat × Nat := (n.st, n.tec, n.recCtr)

/-! ### WellFormed: each check refuses a term -/

theorem test_wf_enqueue : (Instr.enqueue 0 (List.replicate 15 0)).wf = true ∧ (Instr.enqueue 0 (List.replicate 16 0)).wf = false := by
  decide

theorem test_wf_attachRaw : (Instr.attachRaw (List.replicate (2 ^ 32) .read)).wf = false := by
  simp only [Instr.wf, lengthFits, List.length_replicate, Nat.lt_irrefl, decide_false]

theorem test_wf_busAttach : (Instr.busAttach (.raw (List.replicate (2 ^ 32) .read))).wf = false := by
  simp only [Instr.wf, lengthFits, List.length_replicate, Nat.lt_irrefl, decide_false]

theorem test_wf_frameNew : (Instr.frameNew 0 (List.replicate (2 ^ 32) 0)).wf = false := by
  simp only [Instr.wf, lengthFits, List.length_replicate, Nat.lt_irrefl, decide_false]

theorem test_wf_accepts :
    (Instr.attachRaw [.read]).wf = true ∧ (Instr.busAttach (.raw [])).wf = true ∧ (Instr.frameNew 0 [1]).wf = true := by
  decide

/-! ### Decoding: a word written out from the encoding of each row (R66, R67, R70) -/

/-- OP 31:28, UID 27:20, LEN 19:16, ARG 15:0. -/
theorem test_decode_header :
    headerOp 0b0101_10000001_0011_0000000000000001 = 5 ∧ headerUid 0b0101_10000001_0011_0000000000000001 = 0x81
      ∧ headerLen 0b0101_10000001_0011_0000000000000001 = 3 ∧ headerArg 0b0101_10000001_0011_0000000000000001 = 1 := by
  decide

theorem test_decode_commands :
    decode (.command [0b0001_00000000_0000_0000111100001111]) = .instr (.attach 0x0F0F)
      ∧ decode (.command [0b0011_10000001_0000_1000000000000001]) = .instr (.setBehavior 0x81 0x8001)
      ∧ decode (.command [0b0100_10000001_0000_1000000000000001]) = .instr (.setBusOffFunc 0x81 0x8001)
      ∧ decode (.command [0b0110_10000001_0000_0000000000000000, 7, 9]) = .instr (.seed 0x81 7 9)
      ∧ decode (.command [0b0111_00000000_0000_0000000000000000]) = .instr .activate
      ∧ decode (.command [0b1000_10000001_0000_0000000000000000]) = .instr (.status 0x81)
      ∧ decode (.command [0b1001_00000000_0000_0000000000000000]) = .instr .halt := by
  decide

/-- The reserved opcodes carry every other bit of their header (R154). -/
theorem test_decode_reserved :
    decode (.command [0x08000001]) = .instr (.reserved0 0x8000001)
      ∧ decode (.command [0xB8000001]) = .instr (.reservedAB 0x18000001)
      ∧ decode (.command [0xC0000002]) = .instr (.reservedCF 2)
      ∧ decode (.command [0xF8000001]) = .instr (.reservedCF 0x38000001) := by
  decide

/-- H5 and H6: byte 0 is bits 31:24 of the first payload word (R66). -/
theorem test_decode_enqueue :
    decode (.command [0x50010000, 0xAA000000]) = .instr (.enqueue 0 [0xAA])
      ∧ decode (.command [0x50090000, 0x01020304, 0x05060708, 0x09000000]) = .instr (.enqueue 0 [1, 2, 3, 4, 5, 6, 7, 8, 9]) := by
  decide

/-- H8, and a seventeenth entry in the second script word. -/
theorem test_decode_attachRaw :
    decode (.command [0x20000000, 4, 0x08000000]) = .instr (.attachRaw [.read, .read, .write .dominant, .read])
      ∧ decode (.command [0x20000000, 17, 0, 0xC0000000])
        = .instr (.attachRaw (List.replicate 16 .read ++ [.write .recessive])) := by
  decide

/-- H3, H4, H19, H30 and H9: a field or a code that must not be set. -/
theorem test_decode_rejects :
    decode (.command [0x101000F0]) = .rejected .reservedField ∧ decode (.command [0x100100F0]) = .rejected .reservedField
      ∧ decode (.command [0x70000001]) = .rejected .reservedField ∧ decode (.command [0x90100000]) = .rejected .reservedField
      ∧ decode (.command [0x20000000, 1, 0x40000000]) = .rejected .reservedScriptCode := by
  decide

theorem test_decode_bus :
    decodeTableWord 8 0x20 = some (.busAttach (.node 0)) ∧ decodeTableWord 8 0x21 = some (.busWrite 0 .dominant)
      ∧ decodeTableWord 8 0x22 = some (.busRead 0) ∧ decodeTableWord 8 0x80 = some .busPeriod := by
  decide

theorem test_decode_frame :
    decodeTableWord 8 0x30 = some (.frameNew 0 []) ∧ (decodeTableWord 8 0x31).isSome = true
      ∧ decode (.operation [0x31, 0x0F0, 1, 0xAA000000]) = .instr (.frameSize frameAA)
      ∧ decode (.operation [0x32, 22, 0x0F0, 1, 0xAA000000]) = .instr (.frameBit frameAA 22)
      ∧ decode (.operation [0x33, 0x0F0, 1, 0xAA000000]) = .instr (.frameString frameAA)
      ∧ decode (.operation [0x31, 0x800, 0]) = .rejected .badOperand := by
  decide

theorem test_decode_queue :
    decode (.operation [0x40, 2, 0x0F0, 1, 0xAA000000]) = .instr (.queuePushBack 2 frameAA)
      ∧ decodeTableWord 8 0x41 = some (.queuePopFront 0)
      ∧ decode (.operation [0x42, 2, 0x0F0, 1, 0xAA000000]) = .instr (.queuePushFront 2 frameAA) := by
  decide

theorem test_decode_stuff :
    decode (.operation [0x50, 3, 1]) = .instr (.stuffWriteBit 3 .recessive) ∧ decodeTableWord 8 0x51 = some (.stuffReadBit 0)
      ∧ decodeTableWord 8 0x52 = some (.stuffMaybeWriteStuff 0) ∧ decodeTableWord 8 0x53 = some (.stuffMaybeReadStuff 0) := by
  decide

theorem test_decode_fsm :
    decodeTableWord 8 0x60 = some (.fsmIntermission 0) ∧ decodeTableWord 8 0x61 = some (.fsmSuspendTransmission 0)
      ∧ decodeTableWord 8 0x62 = some (.fsmBusIdle 0) ∧ decodeTableWord 8 0x63 = some (.fsmArbitration 0)
      ∧ decodeTableWord 8 0x64 = some (.fsmDlc 0) ∧ decodeTableWord 8 0x65 = some (.fsmData 0)
      ∧ decodeTableWord 8 0x66 = some (.fsmEof 0) ∧ decodeTableWord 8 0x67 = some (.fsmError 0) := by
  decide

theorem test_decode_fc :
    decodeTableWord 8 0x70 = some (.fcUpdateState 0) ∧ decodeTableWord 8 0x71 = some (.fcRecPlus1 0)
      ∧ decodeTableWord 8 0x72 = some (.fcRule2 0) ∧ decodeTableWord 8 0x73 = some (.fcTecPlus8 0)
      ∧ decodeTableWord 8 0x74 = some (.fcRule45 0) ∧ decodeTableWord 8 0x75 = some (.fcRule7 0)
      ∧ decodeTableWord 8 0x76 = some (.fcRule8 0) ∧ decodeTableWord 8 0x77 = some (.fcRule9 0)
      ∧ decodeTableWord 8 0x78 = some (.fcRule10 0) ∧ decodeTableWord 8 0x79 = some (.fcRule11 0)
      ∧ decodeTableWord 8 0x7A = some (.fcBusOff 0) := by
  decide

/-! ### Host commands -/

/-- H1, H12. -/
theorem test_attach : resultOf (.attach 0x0F0) State.reset = some (.uid 0) ∧ resultOf (.attach 0x800) (still fresh) = some (.uid 1) := by
  decide

/-- H22: the host sees NodeAttachError. -/
theorem test_attach_active : resultOf (.attach 0x123) (live []) = some (.code .nodeAttachError) := by decide

/-- H8, H23. -/
theorem test_attachRaw :
    resultOf (.attachRaw [.read]) (still fresh) = some (.uid 1) ∧ resultOf (.attachRaw [.read]) (live []) = some (.code .nodeAttachError) := by
  decide

/-- H17. -/
theorem test_setBehavior : nodeOf (·.behavior) (.setBehavior 0 1) (still fresh) = some (some 1) := by decide

/-- H18, and handle 0 is none (R66). -/
theorem test_setBusOffFunc :
    nodeOf (·.busOffFunc) (.setBusOffFunc 0 2) (still fresh) = some (some 2)
      ∧ nodeOf (·.busOffFunc) (.setBusOffFunc 0 0) (still { fresh with busOffFunc := some 2 }) = some none := by
  decide

/-- H5. -/
theorem test_enqueue : nodeOf (·.queue) (.enqueue 0 [0xAA]) (still fresh) = some [frameAA] := by decide

/-- H6, H7, H13, H14. -/
theorem test_enqueue_errors :
    resultOf (.enqueue 0 [1, 2, 3, 4, 5, 6, 7, 8, 9]) (still fresh) = some (.code .payloadTooLarge)
      ∧ resultOf (.enqueue 7 []) (still fresh) = some (.code .noSuchNode)
      ∧ resultOf (.enqueue 0 []) (still (Node.reset 0 0x800)) = some (.code .invalidId)
      ∧ resultOf (.enqueue 0 [1, 2, 3, 4, 5, 6, 7, 8, 9]) (still (Node.reset 0 0x800)) = some (.code .invalidId) := by
  decide

/-- H16: one transition, not two. -/
theorem test_seed : nodeOf counters (.seed 0 300 0) (still fresh) = some (.errorPassive, 300, 0) := by decide

/-- H15, H24, H25. -/
theorem test_seed_answers :
    stateOf (·.events) (.seed 0 0 200) (still fresh)
        = some [{ period := none, phase := .stopped, uid := 0, kind := .stateChange .errorActive .errorPassive 0 200 }]
      ∧ resultOf (.seed 0 0 0) (bus .recessive (rx .idleR)) = some (.code .busAlreadyActive)
      ∧ resultOf (.seed 9 0 0) (bus .recessive (rx .idleR)) = some (.code .noSuchNode) := by
  decide

/-- RS4: the frame is popped and SOF is about to be written. -/
theorem test_activate :
    nodeOf (fun n => (n.pos, n.cur, n.role)) .activate (still { fresh with queue := [frameAA] })
      = some (some .idleSofW, some frameAA, .transmitter) := by
  decide

/-- H20, H21. -/
theorem test_activate_twice :
    stateOf (·.results) .activate State.reset = some [] ∧ resultOf .activate (live []) = some (.code .busAlreadyActive) := by
  decide

/-- What a status record shows of an idle node beside the packed words, as R173 says of a new one. -/
def noRest : StatusRest := { cur := none, errorUpdate := .none, rxId := 0, rxDlc := 0, rxData := [] }

/-- RS1, RS4, and P10's word of a BusOff node in Error; the record of a sender shows its frame (R173). -/
theorem test_status :
    resultOf (.status 0) (still fresh) = some (.status 0x004000F0 0 0 [] noRest)
      ∧ resultOf (.status 0) (bus .recessive (tx .idleSofW)) = some (.status 0x004400F0 0 0 [] { noRest with cur := some frameAA })
      ∧ resultOf (.status 0) (bus .recessive { rx (.errPfW 0 true) with id := 0, st := .busOff, tec := 258, recCtr := 7 })
        = some (.status 0x00F00000 0x102 7 [] noRest) := by
  decide

/-- H10: a raw participant has no record. -/
theorem test_status_raw : resultOf (.status 0) (live [.raw (raw 0 [] 0)]) = some (.code .noSuchNode) := by decide

/-- H31. -/
theorem test_halt : stateOf (·.halted) .halt (live []) = some true ∧ resultOf .halt (live []) = some (.code .ok) := by decide

/-- H28, H29. -/
theorem test_reserved :
    resultOf (.reserved0 0) State.reset = some (.code .reservedCommand) ∧ resultOf (.reservedAB 0) State.reset = some (.code .reservedCommand)
      ∧ resultOf (.reservedCF 0) State.reset = some (.code .reservedCommand) := by
  decide

/-! ### The bus -/

/-- R72: after activation the result of the bus's own operation is BusAlreadyActive. -/
theorem test_busAttach :
    resultOf (.busAttach (.node 0x0F0)) State.reset = some (.uid 0)
      ∧ resultOf (.busAttach (.node 0x0F0)) (live []) = some (.code .busAlreadyActive) := by
  decide

/-- S1 (1 and 0 give 0) and B7. -/
theorem test_busWrite :
    stateOf (·.busState) (.busWrite 0 .dominant) (bus .recessive (rx .idleR)) = some .dominant
      ∧ stateOf (·.fault) (.busWrite 0 .dominant) (still fresh) = some (some .ioOnInactiveBus) := by
  decide

/-- B4: a BusOff node drives nothing. -/
theorem test_busWrite_busOff : stateOf (·.busState) (.busWrite 0 .dominant) (bus .recessive off) = some .recessive := by decide

/-- B7. -/
theorem test_busRead :
    resultOf (.busRead 0) (bus .dominant (rx .idleR)) = some (.bit .dominant)
      ∧ stateOf (·.fault) (.busRead 0) (still fresh) = some (some .ioOnInactiveBus) := by
  decide

/-- B2: writers of 1 and 0; both reads return 0. -/
theorem test_busPeriod :
    stateOf (fun s => (s.busState, s.participants)) .busPeriod
        (live [.raw (raw 0 [.write .recessive, .read] 0), .raw (raw 1 [.write .dominant, .read] 0)])
      = some (.dominant, [.raw { raw 0 [.write .recessive, .read] 2 with reads := [.dominant] },
          .raw { raw 1 [.write .dominant, .read] 2 with reads := [.dominant] }]) := by
  decide

/-- B1 and B3: the bus is set to Recessive before any write; the halted loop runs no period (H31). -/
theorem test_busPeriod_idle :
    stateOf (·.busState) .busPeriod (bus .dominant (rx .idleR)) = some .recessive
      ∧ stateOf (fun s => (s.phase, s.trace)) .busPeriod { bus .dominant (rx .idleR) with halted := true } = some (.stopped, []) := by
  decide

/-! ### Frames and the queue -/

/-- FR1. -/
theorem test_frameNew : resultOf (.frameNew 0x7FF []) State.reset = some (.frame frameEmpty) := by decide

/-- FR2, FR3, FR4. -/
theorem test_frameNew_errors :
    resultOf (.frameNew 0x800 []) State.reset = some (.code .invalidId)
      ∧ resultOf (.frameNew 0 [1, 2, 3, 4, 5, 6, 7, 8, 9]) State.reset = some (.code .payloadTooLarge)
      ∧ resultOf (.frameNew 0x800 [1, 2, 3, 4, 5, 6, 7, 8, 9]) State.reset = some (.code .invalidId) := by
  decide

/-- S3. -/
theorem test_frameSize :
    resultOf (.frameSize frameEmpty) State.reset = some (.size 15) ∧ resultOf (.frameSize frameAA) State.reset = some (.size 23) := by
  decide

/-- FR6, as the bits in wire order. -/
theorem test_frameBits : (frameBits frameAA).map (·.toBool.toNat) = [0, 0, 0, 1, 1, 1, 1, 0, 0, 0, 0, 0, 0, 0, 1, 1, 0, 1, 0, 1, 0, 1, 0] := by
  decide

/-- S2 at index 15 and 22, and FR7. -/
theorem test_frameBit :
    resultOf (.frameBit frameAA 15) State.reset = some (.bit .recessive) ∧ resultOf (.frameBit frameAA 22) State.reset = some (.bit .dominant)
      ∧ stateOf (·.fault) (.frameBit frameAA 23) State.reset = some (some .bitIndexOutOfRange) := by
  decide

/-- FR8, FR10. -/
theorem test_frameString :
    resultOf (.frameString frameAA) State.reset = some (.text "00011110000 0001 10101010".toList)
      ∧ resultOf (.frameString frameEmpty) State.reset = some (.text "11111111111 0000".toList) := by
  decide

/-- Q2. -/
theorem test_pushBack : nodeOf (·.queue) (.queuePushBack 0 frame00) (still { fresh with queue := [frameAA] }) = some [frameAA, frame00] := by
  decide

/-- Q3, Q7. -/
theorem test_popFront :
    resultOf (.queuePopFront 0) (still { fresh with queue := [frameAA, frame00] }) = some (.frame frameAA)
      ∧ nodeOf (·.queue) (.queuePopFront 0) (still { fresh with queue := [frameAA, frame00] }) = some [frame00]
      ∧ resultOf (.queuePopFront 0) (still fresh) = some .empty := by
  decide

/-- Q4. -/
theorem test_pushFront : nodeOf (·.queue) (.queuePushFront 0 frameAA) (still { fresh with queue := [frame00] }) = some [frameAA, frame00] := by
  decide

/-! ### Bit stuffing -/

/-- ST1 (its first write), ST2. -/
theorem test_writeBit :
    nodeOf (·.writeTrk) (.stuffWriteBit 0 .recessive) (bus .recessive (rx .idleR)) = some { last := .recessive, count := 1 }
      ∧ nodeOf (·.writeTrk) (.stuffWriteBit 0 .dominant) (bus .recessive { rx .idleR with writeTrk := { last := .recessive, count := 3 } })
        = some { last := .dominant, count := 1 } := by
  decide

/-- ST4, ST5. -/
theorem test_readBit :
    nodeOf (·.readTrk) (.stuffReadBit 0) (bus .dominant { rx .idleR with readTrk := { last := .recessive, count := 3 } })
        = some { last := .dominant, count := 1 }
      ∧ nodeOf (·.readTrk) (.stuffReadBit 0) (bus .dominant { rx .idleR with readTrk := { last := .dominant, count := 4 } })
        = some { last := .dominant, count := 5 } := by
  decide

/-- ST6, and R160: a node whose stuff bit is a fault is stopped in it and returns nothing. -/
theorem test_maybeWriteStuff :
    resultOf (.stuffMaybeWriteStuff 0) (bus .recessive { rx .idleR with writeTrk := { last := .dominant, count := 5 } }) = some (.truth true)
      ∧ nodeOf (·.writeTrk) (.stuffMaybeWriteStuff 0) (bus .recessive { rx .idleR with writeTrk := { last := .dominant, count := 5 } })
        = some { last := .recessive, count := 1 }
      ∧ stateOf (fun s => (s.fault, s.results)) (.stuffMaybeWriteStuff 0) (still { fresh with writeTrk := { last := .dominant, count := 5 } })
        = some (some .ioOnInactiveBus, []) := by
  decide

/-- ST7. -/
theorem test_maybeWriteStuff_none :
    resultOf (.stuffMaybeWriteStuff 0) (bus .recessive { rx .idleR with writeTrk := { last := .recessive, count := 3 } })
      = some (.truth false) := by
  decide

/-- ST8. -/
theorem test_maybeReadStuff :
    resultOf (.stuffMaybeReadStuff 0) (bus .recessive { rx .idleR with readTrk := { last := .dominant, count := 5 } }) = some (.truth true)
      ∧ nodeOf (·.readTrk) (.stuffMaybeReadStuff 0) (bus .recessive { rx .idleR with readTrk := { last := .dominant, count := 5 } })
        = some { last := .recessive, count := 1 } := by
  decide

/-- ST9, ST9a. -/
theorem test_maybeReadStuff_error :
    resultOf (.stuffMaybeReadStuff 0) (bus .dominant { rx .idleR with readTrk := { last := .dominant, count := 5 } }) = some (.truth false)
      ∧ resultOf (.stuffMaybeReadStuff 0) (bus .dominant { rx .idleR with readTrk := { last := .recessive, count := 4 } })
        = some (.truth true) := by
  decide

/-- SE1, SE2, SE5, SE8: no stuff bit follows a run of five that ends the region. -/
theorem test_stuffEncode :
    (stuffEncode (List.replicate 5 .dominant)).map (·.toBool.toNat) = [0, 0, 0, 0, 0]
      ∧ (stuffEncode (List.replicate 6 .dominant)).map (·.toBool.toNat) = [0, 0, 0, 0, 0, 1, 0]
      ∧ (stuffEncode (List.replicate 5 .recessive ++ [.dominant])).map (·.toBool.toNat) = [1, 1, 1, 1, 1, 0, 0]
      ∧ (stuffEncode (List.replicate 5 .recessive ++ List.replicate 5 .dominant)).map (·.toBool.toNat)
        = [1, 1, 1, 1, 1, 0, 0, 0, 0, 0, 1, 0] := by
  decide

/-- The row of ST10 for 0x0F0 [AA]: the stuff bit stands at wire index 13. -/
theorem test_stuffedRegion :
    (stuffEncode (stuffedRegion frameAA)).map (·.toBool.toNat)
      = [0, 0, 0, 0, 1, 1, 1, 1, 0, 0, 0, 0, 0, 1, 0, 0, 1, 1, 0, 1, 0, 1, 0, 1, 0] := by
  decide

/-! ### The protocol states -/

/-- F1: the third Recessive read; F2: a Dominant read. -/
theorem test_intermission :
    nodeOf (·.pos) (.fsmIntermission 0) (bus .recessive (rx (.intR 2))) = some (some .idleR)
      ∧ nodeOf (·.pos) (.fsmIntermission 0) (bus .dominant (rx (.intR 2))) = some (some (.intW 0)) := by
  decide

/-- F3. -/
theorem test_intermission_suspend :
    nodeOf (·.pos) (.fsmIntermission 0) (bus .recessive { rx (.intR 2) with st := .errorPassive, prevRole := .transmitter })
      = some (some (.susW 0)) := by
  decide

/-- F4: the read pair is (D, 1). -/
theorem test_suspend_yield :
    nodeOf (fun n => (n.pos, n.role, n.readTrk)) (.fsmSuspendTransmission 0) (bus .dominant { rx (.susR 0) with role := .transmitter })
      = some (some (.arbRxR 0), .receiver, { last := .dominant, count := 1 }) := by
  decide

/-- F5. -/
theorem test_suspend_end : nodeOf (·.pos) (.fsmSuspendTransmission 0) (bus .recessive (rx (.susR 7))) = some (some .idleR) := by decide

/-- F7. -/
theorem test_busIdle_send :
    nodeOf (fun n => (n.pos, n.cur, n.queue)) (.fsmBusIdle 0) (bus .recessive { rx .idleR with queue := [frameAA] })
      = some (some .idleSofW, some frameAA, []) := by
  decide

/-- F8. -/
theorem test_busIdle_receive :
    nodeOf (fun n => (n.pos, n.role)) (.fsmBusIdle 0) (bus .dominant { rx .idleR with queue := [frameAA] })
      = some (some (.arbRxR 0), .receiver) := by
  decide

/-- F10: lost at identifier index 9. -/
theorem test_arbitration_lost :
    nodeOf (fun n => (n.pos, n.role, n.queue, n.cur)) (.fsmArbitration 0) (bus .dominant (tx (.txR .identifier 9 .recessive)))
      = some (some (.arbRxR 10), .receiver, [frameAA], none) := by
  decide

/-- F12. -/
theorem test_arbitration_stuff :
    nodeOf (fun n => (n.pos, n.errorUpdate)) (.fsmArbitration 0)
        (bus .dominant { rx (.arbRxSR 4) with readTrk := { last := .dominant, count := 5 } })
      = some (some (.errAfW 0), .recPlus1) := by
  decide

/-- F13: a DLC of 0 leads to EOF in the same period. -/
theorem test_dlc_zero : nodeOf (·.pos) (.fsmDlc 0) (bus .dominant (rx (.dlcRxR 3))) = some (some (.eofRxR 0)) := by decide

/-- F14: a DLC of 9 is kept. -/
theorem test_dlc_nine :
    nodeOf (fun n => (n.pos, n.rxDlc)) (.fsmDlc 0) (bus .recessive { rx (.dlcRxR 3) with rxDlc := 4 })
      = some (some (.dataRxR 0 0 0), 9) := by
  decide

/-- F15. -/
theorem test_data_bit_error :
    nodeOf (fun n => (n.pos, n.errorUpdate, n.queue, n.cur)) (.fsmData 0) (bus .dominant (tx (.txR .data 21 .recessive)))
      = some (some (.errAfW 0), .tecPlus8, [frameAA], none) := by
  decide

/-- The eighth bit ends a byte, most significant bit first (R114), and the last byte leads to EOF. -/
theorem test_data_byte :
    nodeOf (fun n => (n.pos, n.rxData)) (.fsmData 0) (bus .dominant { rx (.dataRxR 0 7 0b1010101) with rxDlc := 1 })
      = some (some (.eofRxR 0), [0xAA]) := by
  decide

/-- F18, with rule 7 (P11: tec 8 to 7). -/
theorem test_eof_sent :
    stateOf kinds (.fsmEof 0) (bus .recessive { tx (.eofTxR 6) with tec := 8 }) = some [.txDone frameAA]
      ∧ nodeOf (fun n => (n.pos, n.tec, n.prevRole)) (.fsmEof 0) (bus .recessive { tx (.eofTxR 6) with tec := 8 })
        = some (some (.intW 0), 7, .transmitter) := by
  decide

/-- F16, F17. -/
theorem test_eof_errors :
    nodeOf (fun n => (n.pos, n.errorUpdate)) (.fsmEof 0) (bus .dominant (rx (.eofRxR 2))) = some (some (.errAfW 0), .recPlus1)
      ∧ nodeOf (fun n => (n.pos, n.errorUpdate, n.queue)) (.fsmEof 0) (bus .dominant (tx (.eofTxR 2)))
        = some (some (.errAfW 0), .tecPlus8, [frameAA]) := by
  decide

/-- F20: a Dominant read restarts a passive flag; FC17: rule 2 on its first read. -/
theorem test_error_flag :
    nodeOf (·.pos) (.fsmError 0) (bus .dominant { rx (.errPfR 3 false) with st := .errorPassive }) = some (some (.errPfW 0 false))
      ∧ nodeOf (·.recCtr) (.fsmError 0) (bus .dominant { rx (.errPfR 0 true) with st := .errorPassive, recCtr := 200 }) = some 208 := by
  decide

/-- F22 with FC22: the deferred update at the end of Error makes the node BusOff. -/
theorem test_error_end :
    nodeOf counters (.fsmError 0)
        (bus .recessive { tx (.errD2R 6) with cur := none, errorUpdate := .tecPlus8, st := .errorPassive, tec := 250 })
      = some (.busOff, 258, 0) := by
  decide

/-! ### Fault confinement -/

/-- FC1, FC5. -/
theorem test_updateState :
    nodeOf counters (.fcUpdateState 0) (still (counted .errorActive 127 0)) = some (.errorActive, 127, 0)
      ∧ nodeOf counters (.fcUpdateState 0) (still (counted .errorActive 300 0)) = some (.errorPassive, 300, 0) := by
  decide

/-- FC9: the events in order. -/
theorem test_updateState_events :
    stateOf kinds (.fcUpdateState 0) (still (counted .errorPassive 256 0)) = some [.stateChange .errorPassive .busOff 256 0, .busOff] := by
  decide

/-- FC19. -/
theorem test_recPlus1 : nodeOf counters (.fcRecPlus1 0) (still (counted .errorActive 0 0)) = some (.errorActive, 0, 1) := by decide

/-- FC17. -/
theorem test_rule2 : nodeOf counters (.fcRule2 0) (still (counted .errorPassive 0 200)) = some (.errorPassive, 0, 208) := by decide

/-- FC21, and FC23 at a width of 8. -/
theorem test_tecPlus8 :
    nodeOf counters (.fcTecPlus8 0) (still (counted .errorActive 120 0)) = some (.errorPassive, 128, 0)
      ∧ stateOf (·.fault) (.fcTecPlus8 0)
          { still (counted .errorPassive 250 0) with cfg := { Config.Params.default with cntW := some 8 } }
        = some (some .counterOverflow) := by
  decide

/-- B8 (a Transmitter), and the Receiver's counter (R131). -/
theorem test_rule45 :
    nodeOf counters (.fcRule45 0) (still { fresh with role := .transmitter }) = some (.errorActive, 8, 0)
      ∧ nodeOf counters (.fcRule45 0) (still fresh) = some (.errorActive, 0, 8) := by
  decide

/-- FC12, FC14. -/
theorem test_rule7 :
    nodeOf counters (.fcRule7 0) (still (counted .errorActive 0 0)) = some (.errorActive, 0, 0)
      ∧ nodeOf counters (.fcRule7 0) (still (counted .errorPassive 128 0)) = some (.errorActive, 127, 0) := by
  decide

/-- S4 at 127 and 128 (FC16). -/
theorem test_rule8 :
    nodeOf counters (.fcRule8 0) (still (counted .errorActive 0 127)) = some (.errorActive, 0, 126)
      ∧ nodeOf counters (.fcRule8 0) (still (counted .errorPassive 0 128)) = some (.errorActive, 0, 126) := by
  decide

/-- FC24. -/
theorem test_rule8_clamp :
    nodeOf (·.recCtr) (.fcRule8 0) { still (counted .errorPassive 0 200) with cfg := { Config.Params.default with rule8Clamp := 119 } }
      = some 119 := by
  decide

/-- FC3, FC2. -/
theorem test_rule9 :
    nodeOf counters (.fcRule9 0) (still (counted .errorActive 128 0)) = some (.errorPassive, 128, 0)
      ∧ nodeOf counters (.fcRule9 0) (still (counted .errorActive 0 127)) = some (.errorActive, 0, 127) := by
  decide

/-- FC9, FC8. -/
theorem test_rule10 :
    nodeOf counters (.fcRule10 0) (still (counted .errorPassive 256 0)) = some (.busOff, 256, 0)
      ∧ nodeOf counters (.fcRule10 0) (still (counted .errorPassive 255 0)) = some (.errorPassive, 255, 0) := by
  decide

/-- FC6, FC7. -/
theorem test_rule11 :
    nodeOf counters (.fcRule11 0) (still (counted .errorPassive 127 127)) = some (.errorActive, 127, 127)
      ∧ nodeOf counters (.fcRule11 0) (still (counted .errorPassive 127 128)) = some (.errorPassive, 127, 128) := by
  decide

/-- R138: the event, and the callback's handle. -/
theorem test_busOff :
    stateOf (fun s => (kinds s, s.calls.map (·.handle))) (.fcBusOff 0) (still { fresh with busOffFunc := some 2 })
      = some ([.busOff], [2]) := by
  decide

/-! ### Witnesses: for each statement with hypotheses, concrete states and operands that meet them, clause by clause -/

/-- One command of the host on an inactive bus. -/
def sent (c : Command) : State := { still fresh with host := [[c]] }

/-- The hypotheses that the statements about a node of an active bus share, and the node's point. -/
def meets (b : Bit) (n : Node) (p : Point) : Bool :=
  decide (nodeAt (bus b n) (0 : Word).toNat = some n ∧ (bus b n).active = true ∧ (bus b n).busState = b ∧ (bus b n).cfg.cntW = none
    ∧ n.pos = some p)

/-- The hypotheses of the clauses about a node that is not in the state. -/
def elsewhere (ps : Ps) (n : Node) : Bool :=
  decide (nodeAt (bus .recessive n) (0 : Word).toNat = some n ∧ (bus .recessive n).active = true ∧ isIn ps n = false)

/-- Longest operands: ENQUEUE of 15 bytes, a script of more than one word. -/
theorem witness_DecodeOfEncode :
    (Instr.enqueue 0xFF (List.replicate 15 0xFF)).wf = true ∧ (Instr.attachRaw (List.replicate 17 .read)).wf = true := by
  decide

theorem witness_DecodedHasWords :
    decode (.command [0x100000F0]) = .instr (.attach 0x0F0) ∧ decode (.command [0xFFFFFFFF]) = .instr (.reservedCF 0x3FFFFFFF)
      ∧ decode (.operation [0x22, 1]) = .instr (.busRead 1) := by
  decide

/-- A reserved opcode at both ends of its ranges, and for each command the lowest bit of a field that must be 0. -/
theorem witness_ReservedHeaderRefused :
    ([0x00000000, 0xA0000000, 0xFFFFFFFF, 0x10100000, 0x10010000, 0x20000001, 0x30010000, 0x40010000, 0x50000001, 0x60000001,
      0x70100000, 0x80000001, 0x90000001] : List Word).all reservedHeader = true := by
  decide

/-- The code 01 as the first of 1 entry (H9), and as the last of 17. -/
theorem witness_ReservedScriptCodeRefused :
    (([0x40000000] : List Word).flatMap wordBytes |>.flatMap byteCodes)[0]? = some 0b01
      ∧ (([0, 0x40000000] : List Word).flatMap wordBytes |>.flatMap byteCodes)[16]? = some 0b01
      ∧ ([0, 0x40000000] : List Word).length = ((17 : Word).toNat + 15) / 16 := by
  decide

theorem witness_StepRunsDecoded :
    stuck? (sent [0x90000000]) = none ∧ decode (.command [0x90000000]) = .instr .halt
      ∧ (sent [0x90000000]).issued = [] ∧ (sent [0x90000000]).host = [[0x90000000]] :: []
      ∧ (sent [0x90000000]).placed = []
      ∧ stuck? { State.reset with issued := [[0x90000000]] } = none ∧ ({ State.reset with issued := [[0x90000000]] } : State).placed = []
      ∧ stuck? { State.reset with placed := [.operation [0x80]] } = none ∧ decode (.operation [0x80]) = .instr .busPeriod
      ∧ stuck? State.reset = none ∧ State.reset.issued = [] ∧ State.reset.host = []
      ∧ stuck? { State.reset with host := [[], []] } = none
      ∧ decodeTableWord 32 0x90000000 = some .halt ∧ decodeTableWord 8 0x80 = some .busPeriod := by
  decide

/-- A header of each operand-less command with its fields at 0 and at their highest values, identifiers beside the ranges of R70, and
operands just above a bit. -/
theorem witness_StopsByName :
    ({ still fresh with fault := some .counterOverflow } : State).phase = .stopped
      ∧ ({ bus .recessive fresh with fault := some .counterOverflow } : State).active = true
      ∧ ([0x10000000, 0x1000FFFF, 0x30000000, 0x3FF0FFFF, 0x40000000, 0x4FF0FFFF, 0x70000000, 0x80000000, 0x8FF00000, 0x90000000] :
          List Word).all (fun h => !reservedHeader h && operandless.contains (headerOp h).toNat) = true
      ∧ ([0x1F, 0x23, 0x2F, 0x34, 0x3F, 0x43, 0x4F, 0x54, 0x5F, 0x68, 0x6F, 0x7B, 0x7F, 0x81, 0xFFFFFFFF] : List Word).all
          (fun o => !opids.contains o.toNat) = true
      ∧ 2 ≤ (2 : Word).toNat ∧ 2 ≤ (0xFFFFFFFF : Word).toNat := by
  decide

theorem witness_AttachCreates : (still fresh).active = false ∧ (live []).active = true := by decide

theorem witness_HandlesStored : nodeAt (still fresh) (0 : BitVec 8).toNat = some fresh := by decide

/-- Identifiers 2047 and 2048, payloads of 8 and 9 bytes, a capacity of 1 with an empty and a full queue. -/
theorem witness_EnqueueAppends :
    nodeAt (still (Node.reset 0 2048)) (0 : BitVec 8).toNat = some (Node.reset 0 2048) ∧ 2048 ≤ (Node.reset 0 2048).id
      ∧ nodeAt (still (Node.reset 0 2047)) (0 : BitVec 8).toNat = some (Node.reset 0 2047) ∧ (Node.reset 0 2047).id < 2048
      ∧ 8 < (List.replicate 9 (0 : Byte)).length ∧ (List.replicate 8 (0 : Byte)).length ≤ 8
      ∧ State.reset.cfg.queueCap = none ∧ fresh.queue.length < 1 ∧ 1 ≤ ({ fresh with queue := [frameAA] } : Node).queue.length := by
  decide

/-- A width of 8: 255 fits, 256 does not. -/
theorem witness_SeedSetsCounters :
    nodeAt (bus .recessive fresh) (0 : BitVec 8).toNat = some fresh ∧ (bus .recessive fresh).active = true
      ∧ nodeAt (still fresh) (0 : BitVec 8).toNat = some fresh ∧ (still fresh).active = false ∧ (still fresh).cfg.cntW = none
      ∧ (255 : Word).toNat < 2 ^ 8 ∧ 2 ^ 8 ≤ (256 : Word).toNat := by
  decide

theorem witness_ActivateStarts : (live []).active = true ∧ (still fresh).active = false := by decide

theorem witness_StatusRecord : nodeAt (still fresh) (0 : BitVec 8).toNat = some fresh := by decide

/-- A uid out of range, and a raw participant's uid. -/
theorem witness_NoSuchNodeAnswered :
    nodeOperand (.status 1) = some 1 ∧ nodeAt (still fresh) 1 = none
      ∧ nodeOperand (.fcRule7 0) = some 0 ∧ nodeAt (live [.raw (raw 0 [] 0)]) 0 = none
      ∧ (still fresh).participants.length ≤ (1 : Word).toNat := by
  decide

/-- A command that fails on an active bus, commands that succeed on a bus with a node and a raw participant, and ACTIVATE. -/
theorem witness_HostCommandsConfined :
    decode (.command [0x90000000]) = .instr .halt
      ∧ isHostCommand (.enqueue 0 [0xAA]) = true ∧ (nextOf (exec (.enqueue 0 [0xAA]) (bus .recessive (rx .idleR)))).isSome = true
      ∧ (bus .recessive (rx .idleR)).active = true ∧ (bus .recessive (rx .idleR)).participants[0]? = some (.node (rx .idleR))
      ∧ isHostCommand (.seed 0 300 0) = true ∧ (nextOf (exec (.seed 0 300 0) (still fresh))).isSome = true
      ∧ Instr.seed 0 300 0 ≠ .activate ∧ (still fresh).participants[0]? = some (.node fresh)
      ∧ isHostCommand .activate = true ∧ (nextOf (exec .activate (still fresh))).isSome = true
      ∧ (live [.raw (raw 0 [] 0)]).participants[0]? = some (.raw (raw 0 [] 0)) ∧ (nextOf (exec .halt (live [.raw (raw 0 [] 0)]))).isSome = true
      ∧ isHostCommand (.attach 1) = true ∧ nextOf (exec (.attach 1) (live [])) = some (answerCode .nodeAttachError (live []))
      ∧ (answerCode .nodeAttachError (live [])).results = (live []).results ++ [.code .nodeAttachError]
      ∧ ResultCode.nodeAttachError ≠ .ok := by
  decide

theorem witness_BusWriteAndRead :
    (bus .recessive off).participants[(0 : Word).toNat]? = some (.node off) ∧ off.st = .busOff ∧ (bus .recessive off).active = true
      ∧ (bus .recessive fresh).participants[(0 : Word).toNat]? = some (.node fresh) ∧ fresh.st ≠ .busOff
      ∧ (still fresh).participants[(0 : Word).toNat]? = some (.node fresh) ∧ (still fresh).active = false := by
  decide

theorem witness_PeriodIsWiredAnd : running (bus .recessive (tx .idleSofW)) = true ∧ running (live []) = true := by decide

theorem witness_PeriodFrame :
    ({ State.reset with host := [[], []] } : State).host = [] :: [[]] ∧ State.reset.host = []
      ∧ running (bus .recessive (tx (.eofTxR 6))) = true ∧ running State.reset = false
      ∧ running { live [] with halted := true } = false := by
  decide

theorem witness_PhaseOrderIrrelevant :
    [Participant.node fresh, .raw (raw 1 [] 0)].Perm [.raw (raw 1 [] 0), .node fresh] := List.Perm.swap _ _ _

/-- Each place of the index: before `W R`, before `W W`, before a last `W`, before `R`, and after the script. -/
theorem witness_RawScriptRuns :
    running (live [.raw (raw 0 [] 0)]) = true ∧ (live [.raw (raw 0 [] 0)]).cfg.missedPhases = false
      ∧ (live [.raw (raw 0 [] 0)]).participants[0]? = some (.raw (raw 0 [] 0)) ∧ (raw 0 [] 0).script[(raw 0 [] 0).index]? = none
      ∧ [RawOp.write .dominant, .read][0]? = some (.write .dominant) ∧ [RawOp.write .dominant, .read][0 + 1]? = some .read
      ∧ [RawOp.write .dominant, .write .recessive][0 + 1]? = some (.write .recessive)
      ∧ [RawOp.write .dominant][0 + 1]? = none ∧ [RawOp.read][0]? = some .read := by
  decide

/-- The default model, and one that allows missed phases. Which phases are missed is a free value (log 12), so no witness can
evaluate the premises on `Config.miss`. -/
theorem witness_MissedPhaseTakesNoPart :
    running (bus .recessive (tx .idleSofW)) = true ∧ uidsDense (bus .recessive (tx .idleSofW)) = true
      ∧ (bus .recessive (tx .idleSofW)).participants[0]? = some (.node (tx .idleSofW))
      ∧ (bus .recessive (tx .idleSofW)).cfg.missedPhases = false
      ∧ ({ Config.Params.default with missedPhases := true } : Config.Params).missedPhases = true := by
  decide

theorem witness_BusOffNodeInvisible :
    running (bus .recessive off) = true ∧ (bus .recessive off).participants[0]? = some (.node off) ∧ off.st = .busOff
      ∧ ({ tx .idleSofR with st := .busOff } : Node).st = .busOff := by
  decide

/-- A bus on which BusOff registers are free. -/
def freeBus : State := { bus .recessive off with cfg := { Config.Params.default with busOffHavoc := true } }

theorem witness_FreeBusOffNode :
    running freeBus = true ∧ freeBus.cfg.busOffHavoc = true ∧ freeBus.cfg.missedPhases = false
      ∧ freeBus.participants[0]? = some (.node off) ∧ off.st = .busOff ∧ off.pos.isSome = true := by
  decide

theorem witness_FrameNewResult :
    2048 ≤ (2048 : Word).toNat ∧ (2047 : Word).toNat < 2048 ∧ 8 < (List.replicate 9 (0 : Byte)).length
      ∧ (List.replicate 8 (0 : Byte)).length ≤ 8 := by
  decide

/-- Indices 10, 11, 14, 15, 22 and 23 of a frame of one byte. -/
theorem witness_FrameBitResult :
    (10 : Word).toNat < 11 ∧ 11 ≤ (11 : Word).toNat ∧ (14 : Word).toNat < 15 ∧ 0 < frameAA.data.length ∧ (15 : Word).toNat = 15 + 8 * 0 + 0
      ∧ (22 : Word).toNat = 15 + 8 * 0 + 7 ∧ 15 + 8 * frameAA.data.length ≤ (23 : Word).toNat := by
  decide

theorem witness_QueueOperations :
    nodeAt (still fresh) (0 : Word).toNat = some fresh ∧ fresh.queue = []
      ∧ ({ fresh with queue := [frameAA] } : Node).queue = frameAA :: [] := by
  decide

theorem witness_FramesConserved :
    nodeOk true (tx (.eofTxR 6)) = true ∧ nodeOk true (tx .idleSofW) = true ∧ nodeOk true off = true := by
  decide

/-- A tracker of the same polarity and one of the other. -/
theorem witness_WriteBitAndReadBit :
    nodeAt (bus .recessive fresh) (0 : Word).toNat = some fresh ∧ (bus .recessive fresh).active = true
      ∧ fresh.writeTrk.last = .recessive ∧ fresh.writeTrk.last ≠ .dominant
      ∧ fresh.readTrk.last = (bus .recessive fresh).busState ∧ fresh.readTrk.last ≠ (bus .dominant fresh).busState := by
  decide

/-- A node whose runs are of a given length, both Dominant. -/
def run (k : Nat) (n : Node) : Node := { n with readTrk := { last := .dominant, count := k }, writeTrk := { last := .dominant, count := k } }

theorem witness_StuffBits :
    nodeAt (bus .recessive (run 5 fresh)) (0 : Word).toNat = some (run 5 fresh) ∧ (run 5 fresh).writeTrk.count = 5
      ∧ (run 4 fresh).writeTrk.count ≠ 5 ∧ (run 6 fresh).readTrk.count ≠ 5 ∧ (run 5 fresh).readTrk.count = 5
      ∧ (bus .recessive (run 5 fresh)).busState ≠ (run 5 fresh).readTrk.last
      ∧ (bus .dominant (run 5 fresh)).busState = (run 5 fresh).readTrk.last := by
  decide

/-- A stuff bit to write, by a node that drives the bus and by one that does not; one to read; the last frame bit; no bit left. -/
theorem witness_TransmitterIteration :
    (run 5 (tx .idleSofR)).writeTrk.count = 5 ∧ (run 5 (tx .idleSofR)).st ≠ .busOff ∧ (run 5 off).st = .busOff
      ∧ ({ tx .idleSofR with readTrk := { last := .dominant, count := 5 } } : Node).writeTrk.count ≠ 5
      ∧ (tx .idleSofR).writeTrk.count ≠ 5 ∧ (tx .idleSofR).readTrk.count ≠ 5
      ∧ (tx .idleSofR).cur = some frameAA ∧ frameBit? frameAA 22 = some .dominant ∧ frameSize frameAA ≤ 23 := by
  decide

/-- The values where each test changes: 10 and 11, 14 and 15, 3 and 4, 22 and 23, and DLCs of 0 and 15. -/
theorem witness_LoopTests :
    (10 < 11) ∧ (11 ≤ 11) ∧ (14 < 15) ∧ (15 ≤ 15) ∧ (3 < 4) ∧ (4 ≤ 4) ∧ (tx .idleSofR).role = .transmitter ∧ fresh.role = .receiver
      ∧ (tx .idleSofR).cur = some frameAA ∧ 0 < frameAA.data.length ∧ 22 < 15 + 8 * frameAA.data.length
      ∧ 15 + 8 * frameAA.data.length ≤ 23 ∧ frameEmpty.data = [] ∧ fresh.rxDlc.toNat = 0
      ∧ 14 < ({ fresh with rxDlc := 15 } : Node).rxDlc.toNat ∧ ({ fresh with rxDlc := 15 } : Node).rxDlc.toNat ≤ 15 := by
  decide

theorem witness_IntermissionAndSuspend :
    meets .recessive (rx (.intW 2)) (.intW 2) ∧ meets .dominant (rx (.intR 2)) (.intR 2)
      ∧ (meets .recessive (rx (.intR 1)) (.intR 1) ∧ 1 + 1 < 3)
      ∧ (meets .recessive { rx (.intR 2) with st := .errorPassive, prevRole := .transmitter } (.intR 2) ∧ 3 ≤ 2 + 1)
      ∧ (meets .recessive (rx (.intR 2)) (.intR 2) ∧ (rx (.intR 2)).st ≠ .errorPassive ∧ (rx (.intR 2)).prevRole = .receiver)
      ∧ elsewhere .intermission (rx .idleR) ∧ elsewhere .intermission fresh
      ∧ meets .recessive (rx (.susW 7)) (.susW 7) ∧ meets .dominant (rx (.susR 7)) (.susR 7)
      ∧ (meets .recessive (rx (.susR 6)) (.susR 6) ∧ 6 + 1 < 8) ∧ (meets .recessive (rx (.susR 7)) (.susR 7) ∧ 8 ≤ 7 + 1)
      ∧ elsewhere .suspendTransmission (rx .idleR) := by
  decide

theorem witness_BusIdleResult :
    meets .dominant (rx .idleR) .idleR ∧ meets .recessive (rx .idleR) .idleR ∧ meets .recessive (tx .idleSofW) .idleSofW
      ∧ meets .dominant (tx .idleSofR) .idleSofR ∧ elsewhere .busIdle (rx (.intR 2)) := by
  decide

/-- The last read polarity of these nodes is Recessive. Identifier bit 10 of `frameAA` is Dominant. -/
theorem witness_ArbitrationResult :
    meets .recessive (tx (.txSW .identifier 10 .dominant)) (.txSW .identifier 10 .dominant)
      ∧ (meets .recessive (tx (.txSR .identifier 10)) (.txSR .identifier 10) ∧ Bit.recessive = (tx .idleR).readTrk.last)
      ∧ (meets .dominant (tx (.txSR .identifier 10)) (.txSR .identifier 10) ∧ Bit.dominant ≠ (tx .idleR).readTrk.last
          ∧ (tx .idleR).cur = some frameAA ∧ frameBit? frameAA 10 = some .dominant)
      ∧ meets .recessive (tx (.txW .identifier 10 .dominant)) (.txW .identifier 10 .dominant)
      ∧ meets .dominant (tx (.txR .identifier 10 .dominant)) (.txR .identifier 10 .dominant)
      ∧ (meets .dominant (tx (.txR .identifier 9 .recessive)) (.txR .identifier 9 .recessive) ∧ Bit.recessive ≠ .dominant)
      ∧ meets .recessive (rx (.arbRxSR 10)) (.arbRxSR 10) ∧ meets .dominant (rx (.arbRxSR 10)) (.arbRxSR 10)
      ∧ meets .dominant (rx (.arbRxR 10)) (.arbRxR 10) ∧ elsewhere .arbitration (rx .idleR) := by
  decide

theorem witness_DlcResult :
    meets .recessive (tx (.txSW .dlc 14 .dominant)) (.txSW .dlc 14 .dominant) ∧ meets .recessive (tx (.txSR .dlc 14)) (.txSR .dlc 14)
      ∧ (meets .dominant (tx (.txSR .dlc 14)) (.txSR .dlc 14) ∧ frameBit? frameAA 14 = some .recessive)
      ∧ meets .recessive (tx (.txW .dlc 14 .recessive)) (.txW .dlc 14 .recessive)
      ∧ meets .recessive (tx (.txR .dlc 14 .recessive)) (.txR .dlc 14 .recessive)
      ∧ meets .dominant (tx (.txR .dlc 14 .recessive)) (.txR .dlc 14 .recessive)
      ∧ meets .recessive (rx (.dlcRxSR 3)) (.dlcRxSR 3) ∧ meets .dominant (rx (.dlcRxSR 3)) (.dlcRxSR 3)
      ∧ meets .dominant (rx (.dlcRxR 3)) (.dlcRxR 3) ∧ (elsewhere .dlc (tx .idleSofR) ∧ (tx .idleSofR).role = .transmitter)
      ∧ (elsewhere .dlc (rx .idleR) ∧ (rx .idleR).role = .receiver) := by
  decide

theorem witness_DataResult :
    meets .recessive (tx (.txSW .data 22 .dominant)) (.txSW .data 22 .dominant) ∧ meets .recessive (tx (.txSR .data 22)) (.txSR .data 22)
      ∧ (meets .dominant (tx (.txSR .data 22)) (.txSR .data 22) ∧ frameBit? frameAA 22 = some .dominant)
      ∧ meets .recessive (tx (.txW .data 22 .dominant)) (.txW .data 22 .dominant)
      ∧ meets .dominant (tx (.txR .data 22 .dominant)) (.txR .data 22 .dominant)
      ∧ meets .dominant (tx (.txR .data 21 .recessive)) (.txR .data 21 .recessive)
      ∧ meets .recessive (rx (.dataRxSR 0 7 0)) (.dataRxSR 0 7 0) ∧ meets .dominant (rx (.dataRxSR 0 7 0)) (.dataRxSR 0 7 0)
      ∧ (meets .dominant (rx (.dataRxR 0 6 0)) (.dataRxR 0 6 0) ∧ 6 + 1 < 8) ∧ (meets .dominant (rx (.dataRxR 0 7 0)) (.dataRxR 0 7 0) ∧ 8 ≤ 7 + 1)
      ∧ elsewhere .data (rx (.dlcRxR 3)) := by
  decide

theorem witness_EofResult :
    meets .recessive (tx (.eofTxW 6)) (.eofTxW 6) ∧ meets .dominant (tx (.eofTxR 6)) (.eofTxR 6)
      ∧ (meets .recessive (tx (.eofTxR 5)) (.eofTxR 5) ∧ 5 + 1 < 7)
      ∧ (meets .recessive (tx (.eofTxR 6)) (.eofTxR 6) ∧ 7 ≤ 6 + 1 ∧ (tx (.eofTxR 6)).cur = some frameAA ∧ (tx (.eofTxR 6)).tec = 0)
      ∧ (meets .recessive { tx (.eofTxR 6) with tec := 1 } (.eofTxR 6) ∧ 0 < ({ tx (.eofTxR 6) with tec := 1 } : Node).tec)
      ∧ meets .dominant (rx (.eofRxR 6)) (.eofRxR 6) ∧ (meets .recessive (rx (.eofRxR 5)) (.eofRxR 5) ∧ 5 + 1 < 7)
      ∧ (meets .recessive (rx (.eofRxR 6)) (.eofRxR 6) ∧ (rx (.eofRxR 6)).recCtr = 0)
      ∧ (meets .recessive { rx (.eofRxR 6) with recCtr := 1 } (.eofRxR 6) ∧ 0 < ({ rx (.eofRxR 6) with recCtr := 1 } : Node).recCtr)
      ∧ (elsewhere .eof (tx (.txR .data 22 .dominant)) ∧ (tx (.txR .data 22 .dominant)).role = .transmitter)
      ∧ (elsewhere .eof (rx .idleR) ∧ (rx .idleR).role = .receiver) := by
  decide

theorem witness_ErrorFlagResult :
    meets .recessive (rx (.errAfW 5)) (.errAfW 5) ∧ (meets .dominant (rx (.errAfR 4)) (.errAfR 4) ∧ 4 + 1 < 6)
      ∧ (meets .dominant (rx (.errAfR 5)) (.errAfR 5) ∧ 6 ≤ 5 + 1) ∧ meets .recessive (rx (.errAfR 5)) (.errAfR 5)
      ∧ meets .recessive (rx (.errPfW 5 false)) (.errPfW 5 false) ∧ (meets .recessive (rx (.errPfR 4 false)) (.errPfR 4 false) ∧ 4 + 1 < 6)
      ∧ (meets .recessive (rx (.errPfR 5 false)) (.errPfR 5 false) ∧ 6 ≤ 5 + 1) ∧ meets .dominant (rx (.errPfR 5 false)) (.errPfR 5 false)
      ∧ (meets .dominant (tx (.errPfR 0 true)) (.errPfR 0 true) ∧ (tx (.errPfR 0 true)).role = .transmitter)
      ∧ (meets .dominant (rx (.errPfR 0 true)) (.errPfR 0 true) ∧ (rx (.errPfR 0 true)).role = .receiver)
      ∧ elsewhere .error (rx .idleR) := by
  decide

theorem witness_ErrorReturnResult :
    meets .recessive (rx .errD1W) .errD1W ∧ meets .dominant (rx .errD1R) .errD1R ∧ meets .recessive (rx .errD1R) .errD1R
      ∧ meets .recessive (rx (.errD2W 6)) (.errD2W 6) ∧ (meets .dominant (rx (.errD2R 5)) (.errD2R 5) ∧ 5 + 1 < 7)
      ∧ (meets .dominant (rx (.errD2R 6)) (.errD2R 6) ∧ 7 ≤ 6 + 1) := by
  decide

/-- A node blocked in each state, one that has not started, as every run has it before activation (R172), and for the first frame bit a
Transmitter with a frame, without one, and with a stuff bit before it. -/
theorem witness_InactiveBusFaults :
    nodeAt (still fresh) (0 : Word).toNat = some fresh ∧ (still fresh).active = false
      ∧ isIn .intermission (rx (.intR 0)) = true ∧ isIn .suspendTransmission (rx (.susW 0)) = true ∧ isIn .busIdle (rx .idleR) = true
      ∧ isIn .arbitration (rx (.arbRxR 0)) = true ∧ isIn .dlc (rx (.dlcRxR 0)) = true ∧ isIn .data (rx (.dataRxR 0 0 0)) = true
      ∧ isIn .eof (rx (.eofRxR 0)) = true ∧ isIn .error (rx .errD1W) = true
      ∧ fresh.pos = none ∧ [Ps.intermission, .suspendTransmission, .busIdle, .arbitration, .dlc, .data, .eof, .error].all
          (fun ps => !isIn ps fresh) = true
      ∧ fresh.role = .receiver ∧ (tx .idleR).role = .transmitter ∧ isIn .arbitration (tx .idleR) = false ∧ isIn .dlc (tx .idleR) = false
      ∧ (tx .idleR).cur.isSome = true ∧ ({ tx .idleR with cur := none } : Node).readTrk.count ≠ 5
      ∧ ({ tx .idleR with cur := none } : Node).writeTrk.count ≠ 5
      ∧ (run 5 fresh).readTrk.count = 5 ∧ (run 4 fresh).readTrk.count ≠ 5 ∧ (run 5 fresh).writeTrk.count = 5
      ∧ (run 4 fresh).writeTrk.count ≠ 5 ∧ (run 5 fresh).st ≠ .busOff ∧ (run 5 off).st = .busOff := by
  decide

theorem witness_TransitionTable :
    (rx .idleR).pos = some .idleR ∧ (readStep Config.Params.default (rx .idleR) .dominant).node.pos = some (.arbRxR 0)
      ∧ (tx .idleSofW).pos = some .idleSofW ∧ (writeStep (tx .idleSofW)).node.pos = some .idleSofR := by
  decide

/-- Both sides of each limit (FC1 to FC10). -/
theorem witness_StateTransitions :
    nodeAt (still (counted .errorActive 128 0)) (0 : Word).toNat = some (counted .errorActive 128 0)
      ∧ 127 < (counted .errorActive 128 0).tec ∧ 127 < (counted .errorActive 0 128).recCtr ∧ (counted .errorActive 127 127).tec ≤ 127
      ∧ 255 < (counted .errorPassive 256 0).tec ∧ (counted .errorPassive 127 127).recCtr < 128
      ∧ (counted .errorPassive 255 128).tec ≤ 255 ∧ 127 < (counted .errorPassive 255 128).recCtr
      ∧ (counted .busOff 256 0).st = .busOff ∧ (counted .errorPassive 127 128).st ≠ .errorActive := by
  decide

/-- A width of 4: 7 + 8 fits, 8 + 8 does not, and neither does 15 + 1. -/
theorem witness_CounterRules :
    14 + 1 < 2 ^ 4 ∧ ¬ 15 + 1 < 2 ^ 4 ∧ nodeAt (still (tx .idleR)) (0 : Word).toNat = some (tx .idleR) ∧ (still fresh).cfg.cntW = none ∧ 7 + 8 < 2 ^ 4 ∧ ¬ 8 + 8 < 2 ^ 4
      ∧ (tx .idleR).role = .transmitter ∧ fresh.role = .receiver ∧ fresh.tec = 0 ∧ fresh.recCtr = 0
      ∧ 0 < (counted .errorActive 1 1).tec ∧ 0 < (counted .errorActive 0 127).recCtr ∧ (counted .errorActive 0 127).recCtr ≤ 127
      ∧ 127 < (counted .errorPassive 0 128).recCtr := by
  decide

theorem witness_TransitionOperations :
    nodeAt (still { fresh with busOffFunc := some 2 }) (0 : Word).toNat = some { fresh with busOffFunc := some 2 }
      ∧ (counted .errorActive 0 128).st = .errorActive ∧ 127 < (counted .errorActive 0 128).recCtr
      ∧ (counted .errorActive 127 127).tec ≤ 127 ∧ (counted .errorActive 127 127).recCtr ≤ 127
      ∧ 255 < (counted .errorPassive 256 0).tec ∧ (counted .errorPassive 255 0).tec ≤ 255 ∧ (counted .errorPassive 127 127).tec < 128
      ∧ 127 < (counted .errorPassive 127 128).recCtr := by
  decide

theorem witness_CountersAfterUpdate :
    (updateState (actOf (counted .errorPassive 127 127))).node.st = .errorActive
      ∧ (updateState (actOf (counted .errorPassive 256 0))).node.st = .busOff ∧ (counted .errorPassive 256 0).st ≠ .busOff := by
  decide

theorem witness_BusOffPermanent :
    (nextOf (exec (.fcUpdateState 0) (bus .recessive off))).isSome = true ∧ (nextOf (exec .busPeriod (bus .recessive off))).isSome = true
      ∧ (bus .recessive off).participants[0]? = some (.node off) ∧ off.st = .busOff := by
  decide

theorem witness_IdentitiesKept :
    (nextOf (exec (.attach 1) (still fresh))).isSome = true ∧ (live []).active = true
      ∧ ({ live [] with halted := true } : State).halted = true
      ∧ ({ live [] with fault := some .counterOverflow } : State).fault.isSome = true := by
  decide

/-- A host command, and a period with a Transmitter in order. -/
theorem witness_StepKeepsInv :
    Inv (sent [0x70000000]) = true ∧ (nextOf (step (sent [0x70000000]))).isSome = true
      ∧ Inv (bus .recessive (tx .idleSofW)) = true ∧ (nextOf (step (bus .recessive (tx .idleSofW)))).isSome = true := by
  decide

theorem witness_StepKeepsHostInv :
    HostInv (sent [0x70000000]) = true ∧ (nextOf (step (sent [0x70000000]))).isSome = true
      ∧ HostInv (bus .recessive (tx .idleSofW)) = true ∧ (nextOf (step (bus .recessive (tx .idleSofW)))).isSome = true := by
  decide

/-- A Transmitter about to send SOF, as ACTIVATE leaves it. -/
def sender : Node := { tx .idleSofW with writeTrk := { last := .dominant, count := 1 } }

theorem witness_LoneFrameOnWire :
    running (bus .recessive sender) = true ∧ (bus .recessive sender).cfg.missedPhases = false
      ∧ (bus .recessive sender).participants = [.node sender] ∧ nodeOk true sender = true ∧ sender.st ≠ .busOff
      ∧ sender.pos = some .idleSofW ∧ sender.cur = some frameAA ∧ sender.readTrk.last = .recessive
      ∧ nodeOf (fun n => (n.pos, n.writeTrk)) .activate (still { fresh with queue := [frameAA] }) = some (sender.pos, sender.writeTrk) := by
  decide

/-- A Receiver that has read SOF, as a read of an idle bus leaves it. -/
theorem witness_ReceiverGetsFrame :
    nodeOf (fun n => (n.pos, n.role, n.readTrk)) (.fsmBusIdle 0) (bus .dominant (rx .idleR))
        = some (some (.arbRxR 0), .receiver, { last := .dominant, count := 1 })
      ∧ (rx (.arbRxR 0)).rxId = 0 ∧ (rx (.arbRxR 0)).rxDlc = 0 ∧ (rx (.arbRxR 0)).rxData = [] := by
  decide

end Sys2Proof.Tests
end

section
/-! Proofs of the family `10_state.md`: what every instruction keeps of the state (R16, R36, R38, R153, R160), and the invariant of
every step (R75, R140, R141, R156). -/

namespace Sys2Proof.Machine

/-! ### The end of a node's step (R38, R138, R155) -/

/-- The end of a node's step writes its registers, gives its effects to the rest of the block and sets its fault; the rest stays. -/
theorem commit_eq (u : Nat) (a : Act) (s : State) :
    commit u a s = { s with
      participants := s.participants.set u (.node a.node)
      events := s.events ++ a.effects.filterMap fun e => eventOf s (a.node.uid, e)
      calls := s.calls ++ a.effects.filterMap fun e => callOf s (a.node.uid, e)
      issued := s.issued ++ a.effects.flatMap fun e => issuedBy s (a.node.uid, e)
      fault := laterFault s.fault a.fault } := by
  unfold commit absorb
  simp only [List.filterMap_map, List.flatMap_map]
  cases a.fault <;> rfl

/-- The events of a node's step, each stamped with the node's uid (R38). -/
@[simp] theorem commit_events (s : State) (u : Nat) (a : Act) :
    (commit u a s).events = s.events ++ a.effects.filterMap fun e => eventOf s (a.node.uid, e) := by rw [commit_eq]

/-- The callbacks a node's step invokes (R138). -/
@[simp] theorem commit_calls (s : State) (u : Nat) (a : Act) :
    (commit u a s).calls = s.calls ++ a.effects.filterMap fun e => callOf s (a.node.uid, e) := by rw [commit_eq]

/-- The commands those callbacks issue, in order (R155). -/
@[simp] theorem commit_issued (s : State) (u : Nat) (a : Act) :
    (commit u a s).issued = s.issued ++ a.effects.flatMap fun e => issuedBy s (a.node.uid, e) := by rw [commit_eq]

/-- Settles O10: the equation of `commit`, with the stamps of its events and callbacks written out. -/
theorem nodeStepEffects : Obligations.NodeStepEffects := fun uid a s => commit_eq uid a s

/-! ### What no instruction loses -/

/-- Of the whole machine: what is set stays set, the streams only grow, the parameters stay (R17, R38, R153, R160). -/
structure Persists (s t : State) : Prop where
  active : s.active = true → t.active = true
  halted : s.halted = true → t.halted = true
  fault : s.fault.isSome = true → t.fault.isSome = true
  period : s.period ≤ t.period
  events : s.events <+: t.events
  calls : s.calls <+: t.calls
  results : s.results <+: t.results
  trace : s.trace <+: t.trace
  cfg : t.cfg = s.cfg
  bitrate : t.bitrate = s.bitrate
  hostCode : t.hostCode = s.hostCode

/-- What an instruction that runs no bit period and attaches nothing leaves besides: the loop, the trace and the number of
participants (R75, R156, R16). -/
structure InPlace (s t : State) : Prop extends Persists s t where
  phase_eq : t.phase = s.phase
  period_eq : t.period = s.period
  trace_eq : t.trace = s.trace
  count : t.participants.length = s.participants.length

theorem Persists.trans {s t u : State} (h : Persists s t) (g : Persists t u) : Persists s u where
  active e := g.active (h.active e)
  halted e := g.halted (h.halted e)
  fault e := g.fault (h.fault e)
  period := h.period.trans g.period
  events := h.events.trans g.events
  calls := h.calls.trans g.calls
  results := h.results.trans g.results
  trace := h.trace.trans g.trace
  cfg := g.cfg.trans h.cfg
  bitrate := g.bitrate.trans h.bitrate
  hostCode := g.hostCode.trans h.hostCode

theorem InPlace.refl (s : State) : InPlace s s := by
  constructor; constructor
  all_goals simp

theorem InPlace.trans {s t u : State} (h : InPlace s t) (g : InPlace t u) : InPlace s u where
  toPersists := h.toPersists.trans g.toPersists
  phase_eq := g.phase_eq.trans h.phase_eq
  period_eq := g.period_eq.trans h.period_eq
  trace_eq := g.trace_eq.trans h.trace_eq
  count := g.count.trans h.count

/-- A fault register is never cleared (R160). -/
@[simp] theorem laterFault_isSome (first second : Option FaultReason) :
    (laterFault first second).isSome = (first.isSome || second.isSome) := by
  cases second <;> simp [laterFault]

theorem answer_inPlace (r : Result) (s : State) : InPlace s (answer r s) := by
  constructor; constructor
  all_goals simp

theorem answerCode_inPlace (c : ResultCode) (s : State) : InPlace s (answerCode c s) := answer_inPlace (.code c) s

theorem raiseFault_inPlace (r : FaultReason) (s : State) : InPlace s (raiseFault r s) := by
  constructor; constructor
  all_goals simp

theorem commit_inPlace (u : Nat) (a : Act) (s : State) : InPlace s (commit u a s) := by
  constructor; constructor
  all_goals simp +contextual

theorem setNode_inPlace (u : Nat) (n : Node) (s : State) : InPlace s (setNode s u n) := by
  rw [← commit_actOf]; exact commit_inPlace u (actOf n) s

theorem driveBus_inPlace (b : Bit) (s : State) : InPlace s (driveBus b s) := by
  unfold driveBus
  split
  · constructor; constructor
    all_goals simp
  · exact raiseFault_inPlace _ s

theorem writeBy_inPlace (st : FcState) (b : Bit) (s : State) : InPlace s (writeBy st b s) := by
  cases st
  · exact driveBus_inPlace b s
  · exact driveBus_inPlace b s
  · exact InPlace.refl s

theorem writeNow_inPlace (u : Nat) (n : Node) (b : Bit) (s : State) : InPlace s (writeNow u n b s) :=
  (setNode_inPlace u _ s).trans (writeBy_inPlace n.st b _)

theorem readNow_inPlace (u : Nat) (n : Node) (s : State) : InPlace s (readNow u n s) := setNode_inPlace u _ s

theorem closeBoundary_inPlace (s : State) : InPlace s (closeBoundary s) := by
  constructor; constructor
  all_goals simp

theorem applyRound_inPlace (turn : Participant → Bit → Turn) (s : State) : InPlace s (applyRound turn s) := by
  constructor; constructor
  all_goals simp +contextual [allTurns_length]

theorem activated_inPlace (s : State) : InPlace s { s with active := true } := by
  constructor; constructor
  all_goals simp

theorem halted_inPlace (s : State) : InPlace s { s with halted := true } := by
  constructor; constructor
  all_goals simp

/-! ### What one instruction does to the whole machine -/

theorem onNode_inPlace {uid : Word} {f : Node → Act} {s t : State} (h : onNode uid f s = .next t) : InPlace s t := by
  obtain ⟨-, rfl⟩ | ⟨n, -, rfl⟩ := onNode_next h
  · exact answerCode_inPlace _ s
  · exact commit_inPlace _ _ s

theorem stateStep_inPlace {ps : Ps} {uid : Word} {s t : State} (h : stateStep ps uid s = .next t) : InPlace s t := by
  obtain ⟨-, rfl⟩ | ⟨-, rfl⟩ | ⟨n, a, s', -, -, rfl, rfl | ⟨b, -, rfl⟩⟩ := stateStep_next h
  · exact answerCode_inPlace _ s
  · exact raiseFault_inPlace _ s
  · exact commit_inPlace _ a _
  · exact (writeBy_inPlace n.st b s).trans (commit_inPlace _ a _)

/-- A host command attaches a participant, or leaves the loop and the number of participants (R143). -/
theorem hostStep_inPlace {i : Instr} {s t : State} (h : HostStep s i t) :
    (∃ p, s.active = false ∧ t = attachTo p s) ∨ InPlace s t := by
  cases h with
  | attached _ p still => exact .inl ⟨p, still, rfl⟩
  | answered _ r => exact .inr (answer_inPlace r s)
  | started => exact .inr ((activated_inPlace s).trans (applyRound_inPlace startTurn _))
  | behaves => exact .inr ((setNode_inPlace _ _ s).trans (answerCode_inPlace .ok _))
  | calls => exact .inr ((setNode_inPlace _ _ s).trans (answerCode_inPlace .ok _))
  | enqueued => exact .inr ((setNode_inPlace _ _ s).trans (answerCode_inPlace .ok _))
  | seeded => exact .inr ((commit_inPlace _ _ s).trans (answerCode_inPlace .ok _))
  | tooWide => exact .inr (raiseFault_inPlace _ s)
  | halts => exact .inr ((halted_inPlace s).trans (answerCode_inPlace .ok _))

/-- Every instruction that answers a next state attaches a participant, leaves the loop and the number of participants, stops the loop,
or runs a bit period. -/
theorem exec_cases {i : Instr} {s t : State} (h : exec i s = .next t) :
    (∃ p, s.active = false ∧ t = attachTo p s) ∨ InPlace s t ∨ (s.active = true ∧ t = { nextPeriod s with phase := .stopped })
      ∨ (s.active = true ∧ t = runPeriod (nextPeriod s)) := by
  by_cases hi : isHostCommand i = true
  · obtain ha | hp := hostStep_inPlace (hostCommand_step hi h)
    · exact .inl ha
    · exact .inr (.inl hp)
  cases i
  case busAttach p =>
    simp only [exec, execBusAttach] at h
    split at h <;> cases h
    · exact .inr (.inl (answerCode_inPlace _ s))
    · rename_i ha; exact .inl ⟨p, by simpa using ha, rfl⟩
  case busPeriod =>
    obtain ⟨-, rfl⟩ | ⟨ha, -, rfl⟩ | ⟨ha, -, rfl⟩ := busPeriod_next h
    · exact .inr (.inl (closeBoundary_inPlace s))
    · exact .inr (.inr (.inl ⟨ha, rfl⟩))
    · exact .inr (.inr (.inr ⟨ha, rfl⟩))
  all_goals refine .inr (.inl ?_); simp only [exec] at h
  case busWrite uid b =>
    unfold execBusWrite at h
    split at h <;> cases h
    · exact answerCode_inPlace _ s
    · exact writeBy_inPlace _ b s
    · exact driveBus_inPlace b s
  case busRead uid =>
    unfold execBusRead at h
    split at h
    · cases h; exact answerCode_inPlace _ s
    · split at h <;> cases h
      · exact answer_inPlace _ s
      · exact raiseFault_inPlace _ s
  case frameNew id data => cases h; exact answer_inPlace _ s
  case frameSize f => cases h; exact answer_inPlace _ s
  case frameBit f k =>
    unfold execFrameBit at h
    split at h <;> cases h
    · exact answer_inPlace _ s
    · exact raiseFault_inPlace _ s
  case frameString f => cases h; exact answer_inPlace _ s
  case queuePopFront uid =>
    unfold execQueuePopFront at h
    split at h <;> cases h
    · exact answerCode_inPlace _ s
    · exact (setNode_inPlace _ _ s).trans (answer_inPlace _ _)
  case stuffWriteBit uid b =>
    unfold execStuffWriteBit at h
    split at h <;> cases h
    · exact answerCode_inPlace _ s
    · exact writeNow_inPlace _ _ b s
  case stuffReadBit uid =>
    unfold execStuffReadBit at h
    split at h
    · cases h; exact answerCode_inPlace _ s
    · split at h <;> cases h
      · exact (readNow_inPlace _ _ s).trans (answer_inPlace _ _)
      · exact raiseFault_inPlace _ s
  case stuffMaybeWriteStuff uid =>
    unfold execStuffMaybeWriteStuff at h
    split at h
    · cases h; exact answerCode_inPlace _ s
    · split at h
      · split at h <;> cases h
        · exact (writeNow_inPlace _ _ _ s).trans (answer_inPlace _ _)
        · exact writeNow_inPlace _ _ _ s
      · cases h; exact answer_inPlace _ s
  case stuffMaybeReadStuff uid =>
    unfold execStuffMaybeReadStuff at h
    split at h
    · cases h; exact answerCode_inPlace _ s
    · split at h
      · split at h <;> cases h
        · exact (readNow_inPlace _ _ s).trans (answer_inPlace _ _)
        · exact raiseFault_inPlace _ s
      · cases h; exact answer_inPlace _ s
  case queuePushBack | queuePushFront | fcUpdateState | fcRecPlus1 | fcRule2 | fcTecPlus8 | fcRule45 | fcRule7 | fcRule8 | fcRule9
    | fcRule10 | fcRule11 | fcBusOff => exact onNode_inPlace h
  case fsmIntermission | fsmSuspendTransmission | fsmBusIdle | fsmArbitration | fsmDlc | fsmData | fsmEof | fsmError =>
    exact stateStep_inPlace h
  all_goals exact absurd rfl hi

/-! ### What the attach and the bit period do (R72, R75) -/

theorem attachTo_persists (p : Attached) (s : State) : Persists s (attachTo p s) := by
  constructor
  all_goals simp [attachTo]

theorem nextPeriod_persists (s : State) : Persists s (nextPeriod s) := by
  constructor
  case period => rw [nextPeriod_period]; split <;> omega
  all_goals simp

theorem writePhase_persists (s : State) : Persists s (writePhase s) := by
  constructor
  all_goals simp +contextual [writePhase]

theorem readPhase_persists (s : State) : Persists s (readPhase s) := by
  constructor
  all_goals simp +contextual [readPhase]

theorem endPeriod_persists (l : TraceLine) (s : State) : Persists s (endPeriod l s) := by
  constructor
  all_goals simp

/-- A bit period runs the write phase, the read phase and the boundary (R75). -/
theorem runPeriod_persists (s : State) : Persists s (runPeriod s) :=
  ((writePhase_persists s).trans (readPhase_persists _)).trans (endPeriod_persists _ _)

/-- A bit period that runs ends at its boundary, in the same period, with one more line of trace (R75, R156). -/
@[simp] theorem runPeriod_phase (s : State) : (runPeriod s).phase = .boundary := rfl

@[simp] theorem runPeriod_period (s : State) : (runPeriod s).period = s.period := by
  simp [runPeriod, readPhase, writePhase]

@[simp] theorem runPeriod_active (s : State) : (runPeriod s).active = s.active := by
  simp [runPeriod, readPhase, writePhase]

@[simp] theorem runPeriod_trace (s : State) : (runPeriod s).trace = s.trace ++ [traceLine s (writePhase s)] := by
  simp [runPeriod, readPhase, writePhase]

theorem exec_persists {i : Instr} {s t : State} (h : exec i s = .next t) : Persists s t := by
  obtain ⟨p, -, rfl⟩ | hp | ⟨-, rfl⟩ | ⟨-, rfl⟩ := exec_cases h
  · exact attachTo_persists p s
  · exact hp.toPersists
  · have hn := nextPeriod_persists s
    exact { hn with }
  · exact (nextPeriod_persists s).trans (runPeriod_persists _)

/-! ### Participants -/

/-- What is kept of a participant is enough to know it by (R16, R20, R36). -/
theorem PartKept.identity {p q : Participant} (h : PartKept p q) : identityOf q = identityOf p := by
  cases h with
  | node h => simp [identityOf, h.uid, h.id]
  | raw h1 h2 => simp [identityOf, h1, h2]

theorem PartsKept.identities {ps qs : List Participant} (h : PartsKept ps qs) :
    ps.map identityOf <+: qs.map identityOf := by
  rw [List.prefix_iff_getElem?]
  intro u hu
  have hu' : u < ps.length := by simpa using hu
  obtain ⟨q, hq, hk⟩ := h u ps[u] (List.getElem?_eq_getElem hu')
  simp [hq, hk.identity]

/-- Settles O56: an instruction that answers a next state keeps every participant at its place, and loses nothing of the rest. -/
theorem identitiesKept : Obligations.IdentitiesKept := by
  intro i s t h
  have hp := exec_persists h
  exact ⟨(exec_kept h).identities, hp.active, hp.halted, hp.fault, hp.period, hp.events, hp.calls, hp.results, hp.trace, hp.cfg,
    hp.bitrate, hp.hostCode⟩

/-! ### The invariant of every step (R16, R75, R140, R141, R156) -/

/-- A participant is in order at its place: its uid is its index (R16), and a node meets R140. -/
def PartInOrder (u : Nat) : Participant → Prop
  | .node n => n.uid = u ∧ countersOk n = true
  | .raw r => r.uid = u

/-- Every participant is in order at its place. -/
def PartsInOrder (s : State) : Prop := ∀ (u : Nat) (p : Participant), s.participants[u]? = some p → PartInOrder u p

theorem uidsDense_iff (s : State) :
    uidsDense s = true ↔ ∀ (u : Nat) (p : Participant), s.participants[u]? = some p → participantUid p = u := by
  rw [uidsDense, beq_iff_eq]
  constructor
  · intro h u p hp
    have hu : u < s.participants.length := (List.getElem?_eq_some_iff.1 hp).1
    have := congrArg (·[u]?) h
    simpa [hp, List.getElem?_range hu] using this
  · intro h
    refine List.ext_getElem (by simp) fun u hu _ => ?_
    simpa using h u _ (List.getElem?_eq_getElem (by simpa using hu))

theorem allNodes_iff (f : Node → Bool) (s : State) :
    allNodes f s = true ↔ ∀ (u : Nat) (n : Node), s.participants[u]? = some (.node n) → f n = true := by
  rw [allNodes, List.all_eq_true]
  constructor
  · intro h u n hn
    exact h _ (List.mem_of_getElem? hn)
  · intro h p hp
    obtain ⟨u, hu⟩ := List.getElem?_of_mem hp
    cases p with
    | node n => exact h u n hu
    | raw r => rfl

theorem partsInOrder_iff (s : State) : PartsInOrder s ↔ uidsDense s = true ∧ allNodes countersOk s = true := by
  rw [uidsDense_iff, allNodes_iff]
  constructor
  · intro h
    refine ⟨fun u p hp => ?_, fun u n hn => (h u _ hn).2⟩
    cases p with
    | node n => exact (h u _ hp).1
    | raw r => exact h u _ hp
  · rintro ⟨hu, hc⟩ u p hp
    cases p with
    | node n => exact ⟨hu u _ hp, hc u n hp⟩
    | raw r => exact hu u _ hp

theorem inv_iff (s : State) :
    Inv s = true ↔ PartsInOrder s ∧ phaseSettled s = true ∧ traceCounts s = true ∧ noPeriodYet s = true := by
  simp only [Inv, Bool.and_eq_true, partsInOrder_iff, and_assoc]

theorem PartInOrder.kept {u : Nat} {p q : Participant} (h : PartInOrder u p) (hk : PartKept p q) : PartInOrder u q := by
  cases hk with
  | node hk => exact ⟨hk.uid.trans h.1, hk.counters h.2⟩
  | raw h1 _ => exact h1.trans h

/-- A new participant has the next uid, and a new node's counters are 0 (R72, R172). -/
theorem newParticipant_inOrder (u : Nat) (p : Attached) : PartInOrder u (newParticipant u p) := by
  cases p with
  | node id => exact ⟨rfl, rfl⟩
  | raw script => rfl

/-- Participants that are all kept, and no new ones, stay in order. -/
theorem PartsInOrder.kept {s t : State} (h : PartsInOrder s) (hk : PartsKept s.participants t.participants)
    (hl : t.participants.length = s.participants.length) : PartsInOrder t := by
  intro u q hq
  have hu : u < s.participants.length := hl ▸ (List.getElem?_eq_some_iff.1 hq).1
  obtain ⟨q', hq', hpq⟩ := hk u _ (List.getElem?_eq_getElem hu)
  obtain rfl : q' = q := Option.some.inj (hq'.symm.trans hq)
  exact (h u _ (List.getElem?_eq_getElem hu)).kept hpq

theorem attachTo_inOrder {s : State} (p : Attached) (h : PartsInOrder s) : PartsInOrder (attachTo p s) := by
  intro u q hq
  simp only [attachTo, answer_participants, List.getElem?_append] at hq
  split at hq
  · exact h u q hq
  · obtain ⟨hu, rfl⟩ : u = s.participants.length ∧ newParticipant s.participants.length p = q := by
      rw [List.getElem?_singleton] at hq
      split at hq
      · exact ⟨by omega, Option.some.inj hq⟩
      · cases hq
    exact hu ▸ newParticipant_inOrder _ p

theorem attachTo_inv {s : State} (p : Attached) (h : Inv s = true) : Inv (attachTo p s) = true := by
  rw [inv_iff] at h ⊢
  obtain ⟨hparts, hloop⟩ := h
  exact ⟨attachTo_inOrder p hparts, hloop⟩

/-- What leaves the loop and the number of participants keeps the invariant, if it keeps the participants. -/
theorem InPlace.inv {s t : State} (hp : InPlace s t) (hk : PartsKept s.participants t.participants) (h : Inv s = true) :
    Inv t = true := by
  rw [inv_iff] at h ⊢
  obtain ⟨hparts, hphase, htrace, hperiod⟩ := h
  refine ⟨hparts.kept hk hp.count, ?_, ?_, ?_⟩
  · simpa only [phaseSettled, hp.phase_eq] using hphase
  · simpa only [traceCounts, hp.phase_eq, hp.period_eq, hp.trace_eq] using htrace
  · simp only [noPeriodYet, hp.phase_eq, hp.period_eq, Bool.or_eq_true] at hperiod ⊢
    exact hperiod.imp_left hp.active

/-- The loop that stops has passed the periods it ran (R75). -/
theorem stopped_inv {s : State} (h : Inv s = true) (ha : s.active = true) :
    Inv { nextPeriod s with phase := .stopped } = true := by
  rw [inv_iff] at h ⊢
  obtain ⟨hparts, -, htrace, -⟩ := h
  refine ⟨?_, rfl, ?_, ?_⟩
  · simpa only [PartsInOrder, nextPeriod_participants] using hparts
  · simpa [traceCounts] using htrace
  · simp [noPeriodYet, ha]

/-- A period that runs adds its line to the trace (R156). -/
theorem runPeriod_inv {s : State} (h : Inv s = true) (ha : s.active = true) : Inv (runPeriod (nextPeriod s)) = true := by
  rw [inv_iff] at h ⊢
  obtain ⟨hparts, -, htrace, -⟩ := h
  refine ⟨?_, rfl, ?_, ?_⟩
  · have hk := runPeriod_kept (nextPeriod s)
    rw [nextPeriod_participants] at hk
    exact hparts.kept hk (by rw [runPeriod_participants, List.length_map, nextPeriod_participants])
  · simpa [traceCounts] using htrace
  · simp [noPeriodYet, ha]

theorem exec_inv {i : Instr} {s t : State} (h : exec i s = .next t) (hs : Inv s = true) : Inv t = true := by
  obtain ⟨p, -, rfl⟩ | hp | ⟨ha, rfl⟩ | ⟨ha, rfl⟩ := exec_cases h
  · exact attachTo_inv p hs
  · exact hp.inv (exec_kept h) hs
  · exact stopped_inv hs ha
  · exact runPeriod_inv hs ha

theorem nextCommand?_inv {s t : State} {c : Command} (h : nextCommand? s = some (c, t)) : Inv t = Inv s := by
  obtain ⟨rest, -, rfl⟩ | ⟨rest, later, -, -, rfl⟩ := nextCommand?_some h <;> rfl

/-- The invariant does not speak of the packets that wait. -/
theorem fetch?_inv {s t : State} {p : Packet} (h : fetch? s = some (p, t)) : Inv t = Inv s := by
  obtain ⟨rest, -, rfl⟩ | ⟨c, -, -, hc⟩ := fetch?_some h
  · rfl
  · exact nextCommand?_inv hc

theorem runPacket_inv {p : Packet} {s t : State} (h : runPacket p s = .next t) (hs : Inv s = true) : Inv t = true := by
  obtain ⟨i, -, hi⟩ | ⟨-, rfl⟩ := runPacket_next h
  · exact exec_inv hi hs
  · exact hs

/-- Settles O57: by what each instruction does to the loop and to the participants. -/
theorem stepKeepsInv : Obligations.StepKeepsInv := by
  intro s t hs h
  obtain ⟨p, u, hf, hr⟩ | ⟨-, hr⟩ := step_next h
  · exact runPacket_inv hr ((fetch?_inv hf).trans hs)
  · exact exec_inv hr hs

end Sys2Proof.Machine
end

section
/-! Proofs of the family `20_memory.md`: the bus word as the memory of a bit period, the AND of what was written in it (R7, R48,
R79), whatever the order of the turns (R49, R75). -/

namespace Sys2Proof.Machine

/-! ### The wired AND of a list of bits (R7) -/

/-- Dominant wins wherever it stands; with none, the word stays. So the order of the bits cannot be seen. -/
theorem foldl_and_eq (bits : List Bit) (bus : Bit) :
    bits.foldl Bit.and bus = if .dominant ∈ bits then .dominant else bus := by
  induction bits generalizing bus with
  | nil => rfl
  | cons b rest ih =>
    rw [List.foldl_cons, ih]
    cases b with
    | dominant => cases bus <;> simp [Bit.and]
    | recessive => cases bus <;> simp [Bit.and]

theorem foldl_and_perm {bits bits' : List Bit} (h : bits.Perm bits') (bus : Bit) :
    bits.foldl Bit.and bus = bits'.foldl Bit.and bus := by
  simp only [foldl_and_eq, h.mem_iff]

theorem foldl_and_eq_wiredAnd (written : List (Option Bit)) :
    (written.filterMap id).foldl Bit.and .recessive = wiredAnd written := by
  simp [foldl_and_eq, wiredAnd]

/-! ### A bit period that runs -/

/-- On a running bus the loop runs the next period (R75). -/
theorem busPeriod_of_running {s : State} (h : running s = true) : exec .busPeriod s = .next (runPeriod (nextPeriod s)) := by
  simp only [running, Bool.and_eq_true, Bool.not_eq_true', beq_iff_eq] at h
  obtain ⟨⟨hactive, hhalted⟩, hfault⟩ := h
  simp [exec, execBusPeriod, loopStops, hactive, hhalted, hfault]

@[simp] theorem writePhase_cfg (s : State) : (writePhase s).cfg = s.cfg := by simp [writePhase]

@[simp] theorem writePhase_period (s : State) : (writePhase s).period = s.period := by simp [writePhase]

/-- After the write phase each participant has the registers its turn leaves, which do not depend on the bus word (R49). -/
theorem writePhase_participants (s : State) :
    (writePhase s).participants = s.participants.map fun q => (writeTurn s.cfg s.period q .recessive).part := by
  simp only [writePhase, applyRound_participants]
  exact allTurns_parts_of_const (writeTurn_part _ _) _ _ _

/-- The read phase and the boundary leave the bus word of the write phase (R74). -/
theorem runPeriod_busState_eq_writePhase (s : State) : (runPeriod s).busState = (writePhase s).busState := by
  simp only [runPeriod, endPeriod_busState, readPhase, applyRound_busState]
  exact (allTurns_of_bus (readTurn_bus _ _) _ _).2

/-- The bus word of a period is the AND of the bits written in it (R48). -/
theorem runPeriod_busState_eq_wiredAnd (s : State) :
    (runPeriod s).busState = wiredAnd (s.participants.map (writtenBit s.cfg s.period)) :=
  (runPeriod_busState s).trans (foldl_and_eq_wiredAnd _)

/-- Each participant's read turn is given the bus word the period ends with (R48). -/
theorem runPeriod_participants_of_busState (s : State) :
    (runPeriod s).participants = s.participants.map fun q =>
      (readTurn s.cfg s.period (writeTurn s.cfg s.period q .recessive).part (runPeriod s).busState).part := by
  rw [runPeriod_participants, runPeriod_busState_eq_writePhase]

/-- The trace line of a period, in the participants before it (R156). -/
theorem traceLine_writePhase (s : State) :
    traceLine s (writePhase s) =
      { period := s.period
        written := s.participants.map (writtenBit s.cfg s.period)
        read := s.participants.map fun q => readsNow s.cfg s.period (writeTurn s.cfg s.period q .recessive).part
        bus := (runPeriod s).busState } := by
  simp [traceLine, writePhase_participants, runPeriod_busState_eq_writePhase, Function.comp_def]

/-- Settles O21: the period that runs is `runPeriod` of the state whose batch is passed, and each of its parts is given by its lemma. -/
theorem periodIsWiredAnd : Obligations.PeriodIsWiredAnd := by
  intro s h
  have hparts := runPeriod_participants_of_busState (nextPeriod s)
  have hbus := runPeriod_busState_eq_wiredAnd (nextPeriod s)
  have htrace := runPeriod_trace (nextPeriod s)
  rw [traceLine_writePhase] at htrace
  simp only [nextPeriod_cfg, nextPeriod_participants, nextPeriod_trace] at hparts hbus htrace
  exact ⟨_, busPeriod_of_running h, (nextPeriod s).period, runPeriod_period _, nextPeriod_period s, rfl, hbus, hparts, htrace⟩

/-! ### The order of the turns (R49) -/

/-- The write phase ends with the same bus word in any order of its turns. -/
theorem allTurns_write_bus_perm (cfg : Config.Params) (period : Nat) {ps qs : List Participant} (h : ps.Perm qs) (bus : Bit) :
    (allTurns (writeTurn cfg period) ps bus).bus = (allTurns (writeTurn cfg period) qs bus).bus := by
  rw [allTurns_write_bus, allTurns_write_bus]
  exact foldl_and_perm ((h.map _).filterMap _) bus

/-- Turns whose registers do not depend on the bus word leave the same participants in any order. -/
theorem allTurns_parts_perm_of_const {turn : Participant → Bit → Turn} (hturn : ∀ p b c, (turn p b).part = (turn p c).part)
    {ps qs : List Participant} (h : ps.Perm qs) (bus : Bit) : (allTurns turn ps bus).parts.Perm (allTurns turn qs bus).parts := by
  rw [allTurns_parts_of_const hturn ps bus bus, allTurns_parts_of_const hturn qs bus bus]
  exact h.map _

/-- Turns that leave the bus word leave the same participants in any order. -/
theorem allTurns_parts_perm_of_bus {turn : Participant → Bit → Turn} (hturn : ∀ p b, (turn p b).bus = b)
    {ps qs : List Participant} (h : ps.Perm qs) (bus : Bit) : (allTurns turn ps bus).parts.Perm (allTurns turn qs bus).parts := by
  rw [(allTurns_of_bus hturn ps bus).1, (allTurns_of_bus hturn qs bus).1]
  exact h.map _

/-- Settles O23: no turn of the write phase depends on the bus word, whose bits commute, and no turn of the read phase changes it. -/
theorem phaseOrderIrrelevant : Obligations.PhaseOrderIrrelevant := by
  intro cfg period ps qs bus h
  exact ⟨allTurns_write_bus_perm cfg period h bus, allTurns_parts_perm_of_const (writeTurn_part cfg period) h bus,
    (allTurns_of_bus (readTurn_bus cfg period) ps bus).2, allTurns_parts_perm_of_bus (readTurn_bus cfg period) h bus⟩

end Sys2Proof.Machine
end

section
/-! Proofs of the family `30_encoding.md`, the words of instructions: the decoder reads back what the encoder writes, and what it reads
is well formed (R66, R67, R70; the operand words of operations are log 1). -/

namespace Sys2Proof

/-! ### What the operand readers read back (R66, log 1) -/

/-- A length word holds the length of a list that fits it. -/
theorem toNat_lengthWord {α : Type} {xs : List α} (h : lengthFits xs = true) : (BitVec.ofNat 32 xs.length).toNat = xs.length := by
  have hlt : xs.length < 2 ^ 32 := by simpa [lengthFits] using h
  rw [BitVec.toNat_ofNat, Nat.mod_eq_of_lt hlt]

theorem wordAndBit_bitWord (u : Word) (b : Bit) (k : Word → Bit → Instr) : wordAndBit [u, bitWord b] k = .instr (k u b) := by
  cases b <;> rfl

theorem wordAndBytes_bytesWords (w : Word) {data : List Byte} (h : lengthFits data = true) (k : Word → List Byte → Decoded) :
    wordAndBytes (w :: bytesWords data) k = k w data := by
  simp only [bytesWords, wordAndBytes, toNat_lengthWord h, packBytes_length, if_true, unpackBytes_packBytes]

/-- A frame's identifier and payload build the frame (R84). -/
theorem frameNew_frame (f : Frame) : Machine.frameNew f.id.toNat f.data = .frame f := by
  have hid : f.id.toNat < 2 ^ Config.idBits := f.id.isLt
  simp only [Machine.frameNew, if_pos hid, dif_pos f.short, BitVec.ofNat_toNat, BitVec.setWidth_eq]

theorem frame_lengthFits (f : Frame) : lengthFits f.data = true := by
  have hshort := f.short
  simp only [lengthFits, decide_eq_true_eq]
  omega

theorem frameWords_encodeFrame (f : Frame) (k : Frame → Instr) : frameWords (encodeFrame f) k = .instr (k f) := by
  have hid : (f.id.setWidth 32).toNat = f.id.toNat := BitVec.toNat_setWidth_of_le (by decide)
  simp only [frameWords, encodeFrame, wordAndBytes_bytesWords _ (frame_lengthFits f), hid, frameNew_frame]

theorem wordAndFrame_encodeFrame (w : Word) (f : Frame) (k : Word → Frame → Instr) :
    wordAndFrame (w :: encodeFrame f) k = .instr (k w f) := frameWords_encodeFrame f (k w)

theorem scriptWords_encodeScript {script : List RawOp} (h : lengthFits script = true) (k : List RawOp → Instr) :
    scriptWords (encodeScript script) k = .instr (k script) := by
  simp only [encodeScript, scriptWords, toNat_lengthWord h, packScript_length, if_true, unpackScript_packScript]

theorem attachedWords_node (id : Word) (k : Attached → Instr) : attachedWords (encodeAttached (.node id)) k = .instr (k (.node id)) :=
  rfl

theorem attachedWords_raw {script : List RawOp} (h : lengthFits script = true) (k : Attached → Instr) :
    attachedWords (encodeAttached (.raw script)) k = .instr (k (.raw script)) :=
  scriptWords_encodeScript h fun script => k (.raw script)

/-! ### The bits of a header (R66) -/

/-- A word of a high field and a rest, as a number. -/
theorem toNat_append_eq_add {a b : Nat} (hi : BitVec a) (low : BitVec b) : (hi ++ low).toNat = hi.toNat * 2 ^ b + low.toNat := by
  rw [BitVec.toNat_append, ← Nat.shiftLeft_add_eq_or_of_lt low.isLt, Nat.shiftLeft_eq]

/-- The high field, as a number. -/
theorem toNat_append_div {a b : Nat} (hi : BitVec a) (low : BitVec b) : (hi ++ low).toNat / 2 ^ b = hi.toNat := by
  rw [toNat_append_eq_add, Nat.mul_comm, Nat.mul_add_div (Nat.two_pow_pos b), Nat.div_eq_of_lt low.isLt, Nat.add_zero]

theorem toNat_headerOp (h : Word) : (headerOp h).toNat = h.toNat / 2 ^ 28 := by
  have hlt := h.isLt
  rw [headerOp, BitVec.extractLsb'_toNat, Nat.shiftRight_eq_div_pow]
  omega

/-- A word is its high field and its low bits. -/
theorem append_extractLsb' {a b : Nat} {hi : BitVec a} {h : BitVec (a + b)} (hhi : h.toNat / 2 ^ b = hi.toNat) :
    hi ++ h.extractLsb' 0 b = h := by
  apply BitVec.eq_of_toNat_eq
  rw [toNat_append_eq_add, BitVec.extractLsb'_toNat, Nat.shiftRight_zero, ← hhi]
  exact Nat.div_add_mod' _ _

/-! ### The reserved opcodes (R154) -/

theorem decodeHeader_reserved0 (low : BitVec 28) (ops : List Word) :
    decodeHeader ((0 : BitVec 4) ++ low) ops = .instr (.reserved0 low) := by
  have hop : (headerOp ((0 : BitVec 4) ++ low)).toNat = 0 := (toNat_headerOp _).trans (toNat_append_div _ low)
  simp only [decodeHeader, hop, BitVec.extractLsb'_append_eq_right]

theorem decodeHeader_reservedAB (low : BitVec 29) (ops : List Word) :
    decodeHeader ((0b101 : BitVec 3) ++ low) ops = .instr (.reservedAB low) := by
  have htop : ((0b101 : BitVec 3) ++ low).toNat / 2 ^ 29 = 5 := toNat_append_div _ low
  have hop : (headerOp ((0b101 : BitVec 3) ++ low)).toNat = 10 ∨ (headerOp ((0b101 : BitVec 3) ++ low)).toNat = 11 := by
    rw [toNat_headerOp]
    omega
  rcases hop with hop | hop <;> simp only [decodeHeader, hop, BitVec.extractLsb'_append_eq_right]

theorem decodeHeader_reservedCF (low : BitVec 30) (ops : List Word) :
    decodeHeader ((0b11 : BitVec 2) ++ low) ops = .instr (.reservedCF low) := by
  have htop : ((0b11 : BitVec 2) ++ low).toNat / 2 ^ 30 = 3 := toNat_append_div _ low
  have hop : 12 ≤ (headerOp ((0b11 : BitVec 2) ++ low)).toNat := by
    rw [toNat_headerOp]
    omega
  unfold decodeHeader
  split
  case h_13 => rw [BitVec.extractLsb'_append_eq_right]
  all_goals omega

/-! ### The round trip -/

theorem decodeHeader_attachRaw (ops : List Word) : decodeHeader (header 2 0 0 0) ops = scriptWords ops .attachRaw := rfl

theorem decodeHeader_enqueue (uid : BitVec 8) {data : List Byte} (h : payloadFits data = true) :
    decodeHeader (header 5 uid (BitVec.ofNat 4 data.length) 0) (packBytes data) = .instr (.enqueue uid data) := by
  have hle : data.length ≤ 15 := by simpa [payloadFits] using h
  have hlen : (BitVec.ofNat 4 data.length).toNat = data.length := by rw [BitVec.toNat_ofNat]; omega
  have hop : (headerOp (header 5 uid (BitVec.ofNat 4 data.length) 0)).toNat = 5 := by rw [headerOp_header]; rfl
  simp only [decodeHeader, hop, headerUid_header, headerLen_header, headerArg_header, hlen, packBytes_length, unpackBytes_packBytes,
    mustBeZero, beq_self_eq_true, if_true]

/-- Settles O1: each reader gives back what its writer wrote. -/
theorem decodeOfEncode : Obligations.DecodeOfEncode := by
  intro i hwf
  cases i
  case attachRaw script => exact (decodeHeader_attachRaw _).trans (scriptWords_encodeScript hwf _)
  case enqueue uid data => exact decodeHeader_enqueue uid hwf
  case reserved0 low => exact decodeHeader_reserved0 low []
  case reservedAB low => exact decodeHeader_reservedAB low []
  case reservedCF low => exact decodeHeader_reservedCF low []
  case attach | setBehavior | setBusOffFunc | seed | activate | status | halt =>
    simp [encode, decode, decodeCommand, decodeHeader, headerOp_header, headerUid_header, headerLen_header, headerArg_header,
      mustBeZero, noWords]
  case busAttach p =>
    cases p with
    | node id => exact attachedWords_node id _
    | raw script => exact attachedWords_raw hwf _
  case busWrite uid b | stuffWriteBit uid b => exact wordAndBit_bitWord uid b _
  case frameNew id data => exact wordAndBytes_bytesWords id hwf fun id data => .instr (.frameNew id data)
  case frameSize f | frameString f => exact frameWords_encodeFrame f _
  case frameBit f i => exact wordAndFrame_encodeFrame i f fun i f => .frameBit f i
  case queuePushBack uid f | queuePushFront uid f => exact wordAndFrame_encodeFrame uid f _
  -- an operation of one uid word, or of none
  all_goals rfl

/-! ### What is read is well formed (R66) -/

/-- An answer of the decoder is no instruction, or a well-formed one. -/
def Decoded.wf : Decoded → Bool
  | .instr i => i.wf
  | .rejected _ => true

theorem oneWord_wf (ws : List Word) {k : Word → Instr} (hk : ∀ u, (k u).wf = true) : (oneWord ws k).wf = true := by
  unfold oneWord
  split
  · exact hk _
  · rfl

theorem wordAndBit_wf (ws : List Word) {k : Word → Bit → Instr} (hk : ∀ u b, (k u b).wf = true) :
    (wordAndBit ws k).wf = true := by
  unfold wordAndBit
  split
  · split
    · exact hk _ _
    · split
      · exact hk _ _
      · rfl
  · rfl

/-- The bytes unpacked are not more than were asked for. -/
theorem unpackBytes_length_le (n : Nat) (ws : List Word) : (unpackBytes n ws).length ≤ n := List.length_take_le _ _

/-- The payload read is as long as its length word says, at most. -/
theorem wordAndBytes_wf (ws : List Word) {k : Word → List Byte → Decoded}
    (hk : ∀ w data, lengthFits data = true → (k w data).wf = true) : (wordAndBytes ws k).wf = true := by
  unfold wordAndBytes
  split
  · rename_i w n ds
    split
    · refine hk _ _ (decide_eq_true ?_)
      exact Nat.lt_of_le_of_lt (unpackBytes_length_le _ ds) n.isLt
    · rfl
  · rfl

theorem frameWords_wf (ws : List Word) {k : Frame → Instr} (hk : ∀ f, (k f).wf = true) : (frameWords ws k).wf = true := by
  refine wordAndBytes_wf ws fun id data _ => ?_
  split
  · exact hk _
  · rfl
  · rfl

theorem wordAndFrame_wf (ws : List Word) {k : Word → Frame → Instr} (hk : ∀ w f, (k w f).wf = true) :
    (wordAndFrame ws k).wf = true := by
  cases ws with
  | nil => rfl
  | cons w rest => exact frameWords_wf rest (hk w)

/-- A script has an entry for each code. -/
theorem scriptOfCodes_length {cs : List (BitVec 2)} {script : List RawOp} (h : scriptOfCodes cs = some script) :
    script.length = cs.length := by
  induction cs generalizing script with
  | nil => cases h; rfl
  | cons c rest ih =>
    simp only [scriptOfCodes] at h
    split at h
    · cases h
    · obtain ⟨ops, hops, rfl⟩ := Option.map_eq_some_iff.1 h
      simp [ih hops]

theorem unpackScript_length_le {n : Nat} {ws : List Word} {script : List RawOp} (h : unpackScript n ws = some script) :
    script.length ≤ n := by
  rw [scriptOfCodes_length h]
  exact List.length_take_le _ _

theorem scriptWords_wf (ws : List Word) {k : List RawOp → Instr} (hk : ∀ script, lengthFits script = true → (k script).wf = true) :
    (scriptWords ws k).wf = true := by
  unfold scriptWords
  split
  · rename_i n es
    split
    · split
      · rename_i script hscript
        exact hk _ (decide_eq_true (Nat.lt_of_le_of_lt (unpackScript_length_le hscript) n.isLt))
      · rfl
    · rfl
  · rfl

theorem attachedWords_wf (ws : List Word) {k : Attached → Instr} (hnode : ∀ id, (k (.node id)).wf = true)
    (hraw : ∀ script, lengthFits script = true → (k (.raw script)).wf = true) : (attachedWords ws k).wf = true := by
  unfold attachedWords
  split
  · split
    · exact oneWord_wf _ hnode
    · split
      · exact scriptWords_wf _ hraw
      · rfl
  · rfl

theorem noWords_wf (ws : List Word) {i : Instr} (hi : i.wf = true) : (noWords ws i).wf = true := by
  unfold noWords
  split
  · exact hi
  · rfl

theorem mustBeZero_wf (zero : Bool) {d : Decoded} (hd : d.wf = true) : (mustBeZero zero d).wf = true := by
  cases zero
  · rfl
  · exact hd

/-- The payload an ENQUEUE reads is as long as its `LEN` field says, at most. -/
theorem unpackBytes_payloadFits (len : BitVec 4) (ws : List Word) : payloadFits (unpackBytes len.toNat ws) = true := by
  have hle := unpackBytes_length_le len.toNat ws
  have hlt := len.isLt
  exact decide_eq_true (by omega)

theorem decodeHeader_wf (h : Word) (ops : List Word) : (decodeHeader h ops).wf = true := by
  unfold decodeHeader
  split
  case h_3 => exact mustBeZero_wf _ (scriptWords_wf ops fun _ hscript => hscript)
  case h_6 =>
    refine mustBeZero_wf _ ?_
    split
    · exact unpackBytes_payloadFits _ ops
    · rfl
  case h_7 =>
    refine mustBeZero_wf _ ?_
    split <;> rfl
  -- the reserved opcodes
  case h_1 | h_11 | h_12 | h_13 => rfl
  -- the commands without operand words
  all_goals exact mustBeZero_wf _ (noWords_wf ops rfl)

theorem decodeOpid_wf (opid : Nat) (ops : List Word) : (decodeOpid opid ops).wf = true := by
  unfold decodeOpid
  split
  case h_1 => exact attachedWords_wf ops (fun _ => rfl) fun _ hscript => hscript
  case h_2 | h_12 => exact wordAndBit_wf ops fun _ _ => rfl
  case h_4 => exact noWords_wf ops rfl
  case h_5 => exact wordAndBytes_wf ops fun _ _ hdata => hdata
  case h_6 | h_8 => exact frameWords_wf ops fun _ => rfl
  case h_7 | h_9 | h_11 => exact wordAndFrame_wf ops fun _ _ => rfl
  case h_35 => rfl
  all_goals exact oneWord_wf ops fun _ => rfl

theorem decode_wf (p : Packet) : (decode p).wf = true := by
  match p with
  | .command [] | .operation [] => rfl
  | .command (h :: ops) => exact decodeHeader_wf h ops
  | .operation (o :: ops) => exact decodeOpid_wf o.toNat ops

/-! ### A command of one word has one spelling (R66) -/

theorem mustBeZero_eq_instr {zero : Bool} {d : Decoded} {i : Instr} :
    mustBeZero zero d = .instr i ↔ zero = true ∧ d = .instr i := by
  cases zero <;> simp [mustBeZero]

/-- A word with the fields of a header is the header. -/
theorem header_eq_word {h : Word} {op : BitVec 4} {uid : BitVec 8} {len : BitVec 4} {arg : BitVec 16}
    (hop : (headerOp h).toNat = op.toNat) (huid : headerUid h = uid) (hlen : headerLen h = len) (harg : headerArg h = arg) :
    header op uid len arg = h := by
  rw [← BitVec.eq_of_toNat_eq hop, ← huid, ← hlen, ← harg, header_fields]

/-- Every bit of a header that stands alone is read: it is in a field of the instruction, or it must be 0, or it is in the opcode. -/
theorem encode_of_decodeHeader {h : Word} {i : Instr} (hi : decodeHeader h [] = .instr i) : encode i = .command [h] := by
  suffices ∃ w, encode i = .command [w] ∧ w = h by
    obtain ⟨w, hw, rfl⟩ := this
    exact hw
  have htop := toNat_headerOp h
  have hlt := h.isLt
  unfold decodeHeader at hi
  split at hi <;> rename_i hop
  case h_1 =>
    cases hi
    exact ⟨_, rfl, append_extractLsb' (a := 4) (by rw [← htop, hop]; rfl)⟩
  case h_11 | h_12 =>
    cases hi
    exact ⟨_, rfl, append_extractLsb' (a := 3) (show h.toNat / 2 ^ 29 = 5 by omega)⟩
  case h_13 =>
    cases hi
    simp only [imp_false] at *
    exact ⟨_, rfl, append_extractLsb' (a := 2) (show h.toNat / 2 ^ 30 = 3 by omega)⟩
  all_goals
    obtain ⟨hzero, hi⟩ := mustBeZero_eq_instr.1 hi
    simp only [Bool.and_eq_true, beq_iff_eq] at hzero
  case h_2 =>
    cases hi
    obtain ⟨huid, hlen⟩ := hzero
    exact ⟨_, rfl, header_eq_word hop huid hlen rfl⟩
  case h_3 => cases hi
  case h_4 | h_5 =>
    cases hi
    exact ⟨_, rfl, header_eq_word hop rfl hzero rfl⟩
  case h_6 =>
    split at hi
    · rename_i hwords
      cases hi
      have hlen : (headerLen h).toNat = 0 := by simp only [List.length_nil, wordsFor] at hwords; omega
      exact ⟨header 5 (headerUid h) 0 0, by rw [hlen]; rfl, header_eq_word hop rfl (BitVec.eq_of_toNat_eq hlen) hzero⟩
    · cases hi
  case h_7 => cases hi
  case h_8 | h_10 =>
    cases hi
    obtain ⟨⟨huid, hlen⟩, harg⟩ := hzero
    exact ⟨_, rfl, header_eq_word hop huid hlen harg⟩
  case h_9 =>
    cases hi
    obtain ⟨hlen, harg⟩ := hzero
    exact ⟨_, rfl, header_eq_word hop rfl hlen harg⟩

/-- Settles O3. -/
theorem decodedHasWords : Obligations.DecodedHasWords := by
  intro p i hi
  refine ⟨?_, ?_⟩
  · have hwf := decode_wf p
    rwa [hi] at hwf
  · rintro h rfl
    exact encode_of_decodeHeader hi

/-! ### The words of the spec (R145 to R154) and the reserved script code (R64) -/

/-- Settles O2: the decoder computes on the words written out. -/
theorem specWordsDecode : Obligations.SpecWordsDecode := by
  unfold Obligations.SpecWordsDecode
  decide

/-- One reserved code is enough: the codes spell no script. -/
theorem scriptOfCodes_of_reserved {cs : List (BitVec 2)} (h : 0b01 ∈ cs) : scriptOfCodes cs = none := by
  induction cs with
  | nil => cases h
  | cons c rest ih =>
    rcases List.mem_cons.1 h with rfl | hrest
    · rfl
    · simp only [scriptOfCodes, ih hrest]
      cases codeScript c <;> rfl

/-- Settles O5: the reserved code is among the `S` codes the decoder reads, so they spell no script. -/
theorem reservedScriptCodeRefused : Obligations.ReservedScriptCodeRefused := by
  intro n es k s hwords hk hcode
  have hmem : 0b01 ∈ ((es.flatMap wordBytes).flatMap byteCodes).take n.toNat :=
    List.mem_of_getElem? ((List.getElem?_take_of_lt hk).trans hcode)
  have hscript : unpackScript n.toNat es = none := scriptOfCodes_of_reserved hmem
  have hdecode : decode (.command (0x20000000 :: n :: es)) = .rejected .reservedScriptCode :=
    (decodeHeader_attachRaw (n :: es)).trans (by simp only [scriptWords, wordsFor, hwords, Nat.reduceSub, if_true, hscript])
  simp only [Machine.runPacket, hdecode, Machine.rejectPacket]

end Sys2Proof
end

section
/-! Proofs of the family `30_encoding.md`, the length of the stuffed region (R59, R61). -/

namespace Sys2Proof.Machine

/-- A bit with no stuff bit due: it is emitted, and it makes the run longer or starts a new one (R59). -/
theorem stuffLoop_undue {run : Nat} (h : run ≠ 5) (l x : Bit) (rest : List Bit) :
    stuffLoop (some l) run (x :: rest) = x :: stuffLoop (some x) (if x = l then run + 1 else 1) rest := by
  by_cases hx : x = l
  · subst hx; rw [stuffLoop_same h, if_pos rfl]
  · rw [stuffLoop_other h hx, if_neg hx]

/-- With a run of `run` bits behind it, a list of `m` bits gets at most `(m + run - 2) / 4` stuff bits: the first needs `6 - run` more
bits, each later one 4, since a stuff bit is the first of the next run (R61). -/
theorem stuffLoop_length (l : Bit) {run : Nat} (hpos : 1 ≤ run) (hle : run ≤ 5) (bits : List Bit) :
    bits.length ≤ (stuffLoop (some l) run bits).length
      ∧ (stuffLoop (some l) run bits).length ≤ bits.length + (bits.length + run - 2) / 4 := by
  induction bits generalizing l run with
  | nil => exact ⟨Nat.le_refl _, Nat.zero_le _⟩
  | cons x rest ih =>
    by_cases hdue : run = 5
    · subst hdue
      have hrest : 1 ≤ (if x = l.flip then 2 else 1) ∧ (if x = l.flip then 2 else 1) ≤ 2 := by split <;> decide
      obtain ⟨hlower, hupper⟩ := ih x hrest.1 (by omega)
      rw [stuffLoop_due]
      simp only [List.length_cons]
      omega
    · have hrest : 1 ≤ (if x = l then run + 1 else 1) ∧ (if x = l then run + 1 else 1) ≤ run + 1 := by split <;> omega
      obtain ⟨hlower, hupper⟩ := ih x hrest.1 (by omega)
      rw [stuffLoop_undue hdue]
      simp only [List.length_cons]
      omega

theorem stuffEncode_length (region : List Bit) :
    region.length ≤ (stuffEncode region).length
      ∧ (stuffEncode region).length ≤ region.length + (region.length - 2) / 4 := by
  cases region with
  | nil => exact ⟨Nat.le_refl _, Nat.zero_le _⟩
  | cons x rest =>
    obtain ⟨hlower, hupper⟩ := stuffLoop_length x (Nat.le_refl 1) (by decide) rest
    rw [stuffEncode, stuffLoop_first]
    simp only [List.length_cons]
    omega

theorem stuffedRegion_length (f : Frame) : (stuffedRegion f).length = 16 + 8 * f.data.length := by
  rw [stuffedRegion, List.length_cons, frameBits_length, frameSize]
  omega

/-- Settles O37. -/
theorem stuffBound : Obligations.StuffBound := ⟨stuffEncode_length, stuffedRegion_length⟩

end Sys2Proof.Machine
end

section
/-! Proofs of the family `30_encoding.md`, the stuffed frame on the wire: a node alone on the bus, a period at a time (R60, R75, R76, R116,
R124). -/

namespace Sys2Proof.Machine

/-! ### A round of one participant (R75) -/

theorem allTurns_singleton (turn : Participant → Bit → Turn) (p : Participant) (bus : Bit) :
    allTurns turn [p] bus =
      { parts := [(turn p bus).part]
        bus := (turn p bus).bus
        effects := (turn p bus).effects.map fun e => (participantUid p, e)
        fault := (turn p bus).fault } := by
  simp [allTurns, laterFault]

@[simp] theorem runPeriod_cfg (s : State) : (runPeriod s).cfg = s.cfg := by simp [runPeriod, readPhase]

@[simp] theorem runPeriod_halted (s : State) : (runPeriod s).halted = s.halted := by simp [runPeriod, readPhase, writePhase]

/-- The read phase adds the events of its turns to those of the write phase (R38). -/
theorem runPeriod_events (s : State) :
    (runPeriod s).events = (writePhase s).events
      ++ (allTurns (readTurn s.cfg s.period) (writePhase s).participants (writePhase s).busState).effects.filterMap
          (eventOf { writePhase s with phase := .read }) := by
  simp [runPeriod, readPhase]

/-- The read phase adds the fault of its turns to that of the write phase (R160). -/
theorem runPeriod_fault (s : State) :
    (runPeriod s).fault = laterFault (writePhase s).fault
      (allTurns (readTurn s.cfg s.period) (writePhase s).participants (writePhase s).busState).fault := by
  simp [runPeriod, readPhase]

/-! ### A period of a lone node (R75, R76) -/

/-- A running bus whose only participant is the node, and no phase is missed. -/
structure Lone (s : State) (n : Node) : Prop where
  running : running s = true
  noMiss : s.cfg.missedPhases = false
  only : s.participants = [.node n]

/-- A node that is not BusOff is blocked on `W(b)`; when its write has completed it reads, and `a` is its step when it reads `b`. -/
structure LoneTurn (cfg : Config.Params) (n : Node) (b : Bit) (a : Act) : Prop where
  alive : n.st ≠ .busOff
  writes : nodeOp n = some (.write b)
  reads : ∃ m, writeStep n = actOf m ∧ nodeOp m = some .read ∧ readStep cfg m b = a

theorem isFree_of_alive (cfg : Config.Params) {n : Node} (h : n.st ≠ .busOff) : isFree cfg n = false := by simp [isFree, h]

theorem missed_of_noMiss {cfg : Config.Params} (h : cfg.missedPhases = false) (period : Nat) (readPhase : Bool) (uid : Nat) :
    missed cfg period readPhase uid = false := by simp [missed, h]

/-- A node's step leaves the node of `LoneTurn` its uid (R20). -/
theorem LoneTurn.uid {cfg : Config.Params} {n : Node} {b : Bit} {a : Act} (h : LoneTurn cfg n b a) : a.node.uid = n.uid := by
  obtain ⟨m, hm, -, rfl⟩ := h.reads
  have hwrite := (writeStep_quiet n).kept.uid
  rw [hm] at hwrite
  exact (readStep_kept cfg m b).uid.trans hwrite

theorem writeTurn_of_loneTurn {cfg : Config.Params} {n m : Node} {b : Bit} {a : Act} (h : LoneTurn cfg n b a)
    (hmiss : cfg.missedPhases = false) (hm : writeStep n = actOf m) (period : Nat) (bus : Bit) :
    writeTurn cfg period (.node n) bus = nodeTurn (actOf m) (bus.and b) := by
  simp only [writeTurn, nodeWriteTurn, missed_of_noMiss hmiss, isFree_of_alive cfg h.alive, h.writes, hm, Bool.false_eq_true,
    if_false]
  cases hst : n.st with
  | busOff => exact absurd hst h.alive
  | errorActive => rfl
  | errorPassive => rfl

theorem readTurn_of_read {cfg : Config.Params} {m : Node} (hmiss : cfg.missedPhases = false) (halive : m.st ≠ .busOff)
    (hread : nodeOp m = some .read) (period : Nat) (b : Bit) :
    readTurn cfg period (.node m) b = nodeTurn (freed cfg period (readStep cfg m b)) b := by
  simp only [readTurn, nodeReadTurn, missed_of_noMiss hmiss, hread, ruledRead, isFree_of_alive cfg halive, Bool.false_eq_true, if_false]

/-- The write phase of a lone node's period: its bit is the bus word, and the node has nothing to give. -/
theorem writePhase_lone {s : State} {n m : Node} {b : Bit} {a : Act} (hs : Lone s n) (h : LoneTurn s.cfg n b a)
    (hm : writeStep n = actOf m) :
    writePhase s = { s with phase := .write, busState := b, participants := [.node m] } := by
  have hbus : Bit.recessive.and b = b := by cases b <;> rfl
  simp only [writePhase, applyRound, hs.only, allTurns_singleton, writeTurn_of_loneTurn h hs.noMiss hm, hbus]
  simp [nodeTurn, actOf, raiseAny, absorb]

/-- The events of some effects depend on the stamp of the state only (R38). -/
theorem eventOf_congr {s t : State} (hstamp : stampOf s = stampOf t) (hphase : s.phase = t.phase) (e : Nat × Effect) :
    eventOf s e = eventOf t e := by
  unfold eventOf
  rw [hstamp, hphase]

/-- What a period of a lone node does: its bit is on the wire, and the node has run on from the read of it. -/
theorem runPeriod_lone {s : State} {n : Node} {b : Bit} {a : Act} (hs : Lone s n) (h : LoneTurn s.cfg n b a) :
    (runPeriod s).participants = [.node (freed s.cfg s.period a).node]
      ∧ (runPeriod s).trace.map (·.bus) = s.trace.map (·.bus) ++ [b]
      ∧ ((runPeriod s).events = s.events ++ (freed s.cfg s.period a).effects.filterMap fun e =>
          eventOf { s with phase := .read } (n.uid, e))
      ∧ (runPeriod s).fault = laterFault s.fault (freed s.cfg s.period a).fault := by
  obtain ⟨m, hm, hread, hstep⟩ := h.reads
  have hquiet : Quiet n m := by
    have hquiet := writeStep_quiet n
    rwa [hm] at hquiet
  obtain ⟨huid, -, -, -, hst, -, -⟩ := hquiet
  have halive : m.st ≠ .busOff := hst ▸ h.alive
  have hwrite := writePhase_lone hs h hm
  have hturn := readTurn_of_read hs.noMiss halive hread s.period b
  have hread : readPhase (writePhase s) = applyRound (readTurn s.cfg s.period)
      { s with phase := .read, busState := b, participants := [.node m] } := by
    rw [readPhase, hwrite]
  rw [hstep] at hturn
  simp only [runPeriod, hread, endPeriod_participants, endPeriod_trace, endPeriod_events, endPeriod_fault, applyRound_participants,
    applyRound_trace, applyRound_events, applyRound_fault, allTurns_singleton, hturn, nodeTurn, List.filterMap_map, participantUid, huid]
  refine ⟨trivial, by simp [traceLine, hwrite], ?_, trivial⟩
  rfl

/-! ### Bit after bit -/

/-- A period of a lone node from a running bus (R75). -/
theorem lone_nextPeriod {s : State} {n : Node} (h : Lone s n) : Lone (nextPeriod s) n := by
  obtain ⟨hrun, hmiss, honly⟩ := h
  exact ⟨by simpa [running] using hrun, by simpa using hmiss, by simpa using honly⟩

/-- A lone node puts the bits on the wire, one a period, in steps that give nothing and raise no fault. -/
inductive Sends (cfg : Config.Params) : Node → List Bit → Node → Prop
  | done (n : Node) : Sends cfg n [] n
  | bit {n m k : Node} {b : Bit} {bits : List Bit} (turn : LoneTurn cfg n b (actOf m)) (rest : Sends cfg m bits k) :
    Sends cfg n (b :: bits) k

/-- A node that is not BusOff at the end was not BusOff before. -/
theorem Sends.alive {cfg : Config.Params} {n m : Node} {bits : List Bit} (h : Sends cfg n bits m) (hm : m.st ≠ .busOff) :
    n.st ≠ .busOff := by
  cases h with
  | done => exact hm
  | bit turn _ => exact turn.alive

theorem Sends.append {cfg : Config.Params} {n m k : Node} {bits more : List Bit} (h : Sends cfg n bits m) (g : Sends cfg m more k) :
    Sends cfg n (bits ++ more) k := by
  induction h with
  | done n => exact g
  | bit turn _ ih => exact .bit turn (ih g)

theorem freed_of_alive (cfg : Config.Params) (period : Nat) {a : Act} (h : a.node.st ≠ .busOff) : freed cfg period a = a := by
  rw [freed, isFree_of_alive cfg h]; rfl

/-- A period in which the node gives nothing leaves it alone on a running bus. -/
theorem busPeriod_lone {s : State} {n m : Node} {b : Bit} (hs : Lone s n) (h : LoneTurn s.cfg n b (actOf m)) (halive : m.st ≠ .busOff) :
    ∃ t, exec .busPeriod s = .next t ∧ Lone t m ∧ t.cfg = s.cfg ∧ t.trace.map (·.bus) = s.trace.map (·.bus) ++ [b]
      ∧ t.events = s.events := by
  have hrun := hs.running
  have hcfg : (nextPeriod s).cfg = s.cfg := nextPeriod_cfg s
  obtain ⟨hparts, htrace, hevents, hfault⟩ := runPeriod_lone (lone_nextPeriod hs) (hcfg.symm ▸ h)
  rw [freed_of_alive _ _ halive] at hparts hevents hfault
  simp only [running, Bool.and_eq_true, Bool.not_eq_true', beq_iff_eq] at hrun
  obtain ⟨⟨hactive, hhalted⟩, hnofault⟩ := hrun
  refine ⟨_, busPeriod_of_running hs.running, ⟨?_, ?_, hparts⟩, ?_, ?_, ?_⟩
  · simp [running, hactive, hhalted, hfault, hnofault, laterFault, actOf]
  · simpa using hs.noMiss
  · simp
  · simpa using htrace
  · simpa [actOf] using hevents

/-- The last period of a run, in which the node may give something: its bit is on the wire, and its first event is stamped with the
period. -/
theorem busPeriod_lone_event {s : State} {n : Node} {b : Bit} {a : Act} {k : EventKind} {es : List Effect} (hs : Lone s n)
    (h : LoneTurn s.cfg n b a) (heff : a.effects = .event k :: es) :
    ∃ t, exec .busPeriod s = .next t ∧ t.trace.map (·.bus) = s.trace.map (·.bus) ++ [b]
      ∧ ∃ more, t.events = s.events ++ { period := some t.period, phase := .read, uid := n.uid, kind := k } :: more := by
  have hrun := hs.running
  have hcfg : (nextPeriod s).cfg = s.cfg := nextPeriod_cfg s
  obtain ⟨-, htrace, hevents, -⟩ := runPeriod_lone (lone_nextPeriod hs) (hcfg.symm ▸ h)
  have hfreed : ∃ more, (freed (nextPeriod s).cfg (nextPeriod s).period a).effects = .event k :: more := by
    unfold freed
    split
    · exact ⟨_, by simp only [heff]; rfl⟩
    · exact ⟨es, heff⟩
  obtain ⟨more, hmore⟩ := hfreed
  simp only [running, Bool.and_eq_true, Bool.not_eq_true', beq_iff_eq] at hrun
  obtain ⟨⟨hactive, -⟩, -⟩ := hrun
  refine ⟨_, busPeriod_of_running hs.running, by simpa using htrace, ?_⟩
  rw [hevents, hmore]
  simp [eventOf, stampOf, hactive]

/-- The bits of a lone node are on the wire, one a period; in the period of one more bit it gives an event. -/
theorem Sends.runPeriods_event {cfg : Config.Params} {n m : Node} {bits : List Bit} (h : Sends cfg n bits m) {b : Bit} {a : Act}
    {k : EventKind} {es : List Effect} (hlast : LoneTurn cfg m b a) (heff : a.effects = .event k :: es) {s : State} (hs : Lone s n)
    (hcfg : s.cfg = cfg) :
    ∃ t, runPeriods (bits.length + 1) s = some t
      ∧ t.trace.map (·.bus) = s.trace.map (·.bus) ++ bits ++ [b]
      ∧ ∃ more, t.events = s.events ++ { period := some t.period, phase := .read, uid := n.uid, kind := k } :: more := by
  induction h generalizing s with
  | done n =>
    obtain ⟨t, ht, htrace, hevents⟩ := busPeriod_lone_event hs (hcfg ▸ hlast) heff
    exact ⟨t, by simp only [List.length_nil, runPeriods, ht], by rw [List.append_nil, htrace], hevents⟩
  | bit turn rest ih =>
    obtain ⟨u, hu, hlone, hcfg', htrace', hevents'⟩ := busPeriod_lone hs (hcfg ▸ turn) (rest.alive hlast.alive)
    obtain ⟨t, ht, htrace, more, hevents⟩ := ih hlast hlone (hcfg'.trans hcfg)
    have huid := turn.uid
    refine ⟨t, by simpa only [List.length_cons, runPeriods, hu] using ht, ?_, more, ?_⟩
    · rw [htrace, htrace', ← List.append_cons]
    · rw [hevents, hevents', ← huid]; rfl

end Sys2Proof.Machine
end

section
/-! Proofs of the family `30_encoding.md`, a Transmitter alone on the bus sends the stuffed region of its frame (R59, R60, R109, R112,
R115, R124). -/

namespace Sys2Proof.Machine

/-! ### The bits of a frame (R57) -/

/-- The bits in wire order are `bit(0)`, `bit(1)` and so on (R57, R86). -/
theorem frameBits_getElem? (f : Frame) (i : Nat) : (frameBits f)[i]? = frameBit? f i := by
  by_cases hi : i < frameSize f
  · have hmap : frameBits f = (List.range (frameSize f)).map fun j => (frameBit? f j).getD .dominant := by
      refine List.filterMap_eq_map_iff_forall_eq_some.2 fun j hj => ?_
      obtain ⟨b, hb⟩ := frameBit?_isSome (List.mem_range.1 hj)
      simp [hb]
    obtain ⟨b, hb⟩ := frameBit?_isSome hi
    rw [hmap, List.getElem?_map, List.getElem?_range hi]
    simp [hb]
  · rw [frameBit?_none (by omega), List.getElem?_eq_none (by rw [frameBits_length]; omega)]

/-! ### The loop over the bits of a frame, through its three parts (R108, R109, R112 to R114) -/

/-- The part of the frame a bit index lies in. -/
def fieldOf (i : Nat) : Field := if i < 11 then .identifier else if i < 15 then .dlc else .data

/-- A Transmitter of `f` before frame bit `i`: the bit is sent, or the frame has ended. -/
def sendFrom (f : Frame) (i : Nat) (a : Act) : Act := if i < frameSize f then txIter (fieldOf i) i a else enterEof a

section Parts

variable {f : Frame} {a : Act} (hrole : a.node.role = .transmitter) (hcur : a.node.cur = some f)

include hcur in
theorem dataTx_eq_sendFrom {i : Nat} (h : 15 ≤ i) : dataTx i a = sendFrom f i a := by
  have hend : dataEnd a.node = frameSize f := by simp only [dataEnd, hcur, frameDlc_toNat, frameSize]
  have hfield : fieldOf i = .data := by rw [fieldOf, if_neg (by omega), if_neg (by omega)]
  rw [dataTx, hend, sendFrom, hfield]

include hrole hcur in
theorem dlcTx_eq_sendFrom {i : Nat} (h : 11 ≤ i) (hle : i ≤ 15) : dlcTx i a = sendFrom f i a := by
  unfold dlcTx
  split
  · rename_i hlt
    have hfield : fieldOf i = .dlc := by exact (if_neg (by omega)).trans (if_pos hlt)
    rw [sendFrom, hfield, if_pos (by simp only [Config.idBits, Config.dlcBits] at hlt; simp only [frameSize]; omega)]
  · rename_i hge
    obtain rfl : i = 15 := by simp only [Config.idBits, Config.dlcBits] at hge; omega
    simp only [enterData, hrole]
    exact dataTx_eq_sendFrom hcur (Nat.le_refl 15)

include hrole hcur in
theorem arbIter_eq_sendFrom {i : Nat} (hle : i ≤ 11) : arbIter i a = sendFrom f i a := by
  unfold arbIter
  split
  · rename_i hlt
    have hfield : fieldOf i = .identifier := by rw [fieldOf, if_pos hlt]
    simp only [hrole]
    rw [sendFrom, hfield, if_pos (by simp only [frameSize]; omega)]
  · rename_i hge
    obtain rfl : i = 11 := by simp only [Config.idBits] at hge; omega
    simp only [enterDlc, hrole]
    exact dlcTx_eq_sendFrom hrole hcur (Nat.le_refl 11) (by decide)

end Parts

/-- What a Transmitter records of its own bit: an identifier bit goes into `rxId` (R109). -/
def recorded (i : Nat) (b : Bit) (n : Node) : Node := if i < 11 then shiftId b n else n

/-- A Transmitter that reads back the bit it sent goes on with the next (R109, R112). -/
theorem afterTxBit_eq_sendFrom {f : Frame} {a : Act} (hrole : a.node.role = .transmitter) (hcur : a.node.cur = some f) {i : Nat}
    (b : Bit) : afterTxBit (fieldOf i) i b b a = sendFrom f (i + 1) (onRegs (recorded i b) a) := by
  by_cases hid : i < 11
  · have hrec : recorded i b = shiftId b := funext fun n => if_pos hid
    rw [fieldOf, if_pos hid, hrec]
    exact (if_pos rfl).trans (arbIter_eq_sendFrom (a := onRegs (shiftId b) a) hrole hcur (by omega))
  · have hrec : onRegs (recorded i b) a = a := by simp only [onRegs, recorded, if_neg hid]
    rw [fieldOf, if_neg hid, hrec]
    by_cases hdlc : i < 15
    · rw [if_pos hdlc]
      exact (if_pos rfl).trans (dlcTx_eq_sendFrom hrole hcur (by omega) (by omega))
    · rw [if_neg hdlc]
      exact (if_pos rfl).trans (dataTx_eq_sendFrom hcur (by omega))

/-! ### A frame bit and a stuff bit on the wire (R94 to R97, R109, R112) -/

/-- A Transmitter of `f` that is not BusOff. -/
structure Transmits (f : Frame) (n : Node) : Prop where
  role : n.role = .transmitter
  cur : n.cur = some f
  alive : n.st ≠ .busOff

/-- A Transmitter that has read all that it wrote, so its two trackers agree. -/
structure InSync (f : Frame) (t : Tracker) (n : Node) : Prop extends Transmits f n where
  writeTrk : n.writeTrk = t
  readTrk : n.readTrk = t

variable {f : Frame} {t : Tracker} {n : Node} {i : Nat} {x : Bit}

theorem InSync.of_recorded (h : InSync f t n) (i : Nat) (x : Bit) : InSync f t (recorded i x n) := by
  obtain ⟨⟨hrole, hcur, halive⟩, hw, hr⟩ := h
  unfold recorded
  split <;> exact ⟨⟨hrole, hcur, halive⟩, hw, hr⟩

/-- The node blocked at a point. -/
def blocked (p : Point) (n : Node) : Node := { n with pos := some p }

theorem blockAt_actOf (p : Point) (n : Node) : blockAt p (actOf n) = actOf (blocked p n) := rfl

/-- The node that has asked for the write of frame bit `i`. -/
def bitAsked (i : Nat) (x : Bit) (n : Node) : Node := wrote x (.txW (fieldOf i) i x) (.txR (fieldOf i) i x) n

/-- The node that has asked for the write of the stuff bit before frame bit `i`. -/
def stuffAsked (i : Nat) (n : Node) : Node :=
  blocked (.txSW (fieldOf i) i n.writeTrk.last.flip) (trackWrite n.writeTrk.last.flip n)

theorem txSend_of_bit (hcur : n.cur = some f) (hbit : frameBit? f i = some x) :
    txSend (fieldOf i) i (actOf n) = actOf (bitAsked i x n) := by
  have hsent : (actOf n).node.cur.bind (fun c => frameBit? c i) = some x := by simp [actOf, hcur, hbit]
  simp only [txSend, hsent, writeThenRead_eq]
  rfl

theorem stuffDue_eq_false {t : Tracker} (h : t.count ≠ 5) : stuffDue t = false := by simpa [← stuffDue_iff] using h

theorem writeBit_of_alive {a : Act} (h : a.node.st ≠ .busOff) (b : Bit) (p : Point) (next : Act → Act) :
    writeBit b p next a = blockAt p (onRegs (trackWrite b) a) := by
  unfold writeBit
  cases hst : a.node.st with
  | busOff => exact absurd hst h
  | errorActive => rfl
  | errorPassive => rfl

/-- With no stuff bit due, the write of the frame bit is asked for. -/
theorem sendFrom_of_undue (h : InSync f t n) (hdue : t.count ≠ 5) (hi : i < frameSize f) (hbit : frameBit? f i = some x) :
    sendFrom f i (actOf n) = actOf (bitAsked i x n) := by
  have hw : stuffDue (actOf n).node.writeTrk = false := stuffDue_eq_false (by rw [← h.writeTrk] at hdue; exact hdue)
  have hr : stuffDue (actOf n).node.readTrk = false := stuffDue_eq_false (by rw [← h.readTrk] at hdue; exact hdue)
  simp only [sendFrom, if_pos hi, txIter, hw, txCheck, hr, Bool.false_eq_true, if_false]
  exact txSend_of_bit h.cur hbit

/-- With a stuff bit due, its write is asked for. -/
theorem sendFrom_of_due (h : InSync f t n) (hdue : t.count = 5) (hi : i < frameSize f) :
    sendFrom f i (actOf n) = actOf (stuffAsked i n) := by
  have hw : stuffDue (actOf n).node.writeTrk = true := by rw [stuffDue_iff, ← hdue, ← h.writeTrk]; rfl
  simp only [sendFrom, if_pos hi, txIter, hw, if_true]
  exact writeBit_of_alive h.alive _ _ _

/-- The frame bit is on the wire, and both trackers have counted it. -/
theorem loneTurn_bitAsked (cfg : Config.Params) (h : InSync f t n) (i : Nat) (x : Bit) :
    ∃ m, InSync f (track t x) m ∧ LoneTurn cfg (bitAsked i x n) x (sendFrom f (i + 1) (actOf m)) := by
  obtain ⟨⟨hrole, hcur, halive⟩, rfl, hr⟩ := h
  have hpos : (bitAsked i x n).pos = some (.txW (fieldOf i) i x) := congrArg some (if_neg halive)
  have hsync : InSync f (track n.writeTrk x) (trackRead x (blocked (.txR (fieldOf i) i x) (bitAsked i x n))) :=
    ⟨⟨hrole, hcur, halive⟩, rfl, congrArg (track · x) hr⟩
  refine ⟨_, hsync.of_recorded i x, halive, ?_, blocked (.txR (fieldOf i) i x) (bitAsked i x n), ?_, rfl, ?_⟩
  · simp only [nodeOp, hpos, Option.map_some, pointOp]
  · simp only [writeStep, hpos, fromWrite, blockAt_actOf]
  · exact afterTxBit_eq_sendFrom hrole hcur x

/-- The stuff bit is on the wire, and is the first of a new run of both trackers; frame bit `i` is still to be sent. -/
theorem loneTurn_stuffAsked (cfg : Config.Params) (h : InSync f t n) (hdue : t.count = 5) (hi : i < frameSize f)
    (hbit : frameBit? f i = some x) :
    ∃ m, InSync f { last := t.last.flip, count := 1 } m ∧ LoneTurn cfg (stuffAsked i n) t.last.flip (sendFrom f i (actOf m)) := by
  obtain ⟨⟨hrole, hcur, halive⟩, rfl, hr⟩ := h
  have hw : (stuffAsked i n).writeTrk = { last := n.writeTrk.last.flip, count := 1 } := track_flip n.writeTrk
  have hsync : InSync f { last := n.writeTrk.last.flip, count := 1 }
      (trackRead n.writeTrk.last.flip (blocked (.txSR (fieldOf i) i) (stuffAsked i n))) :=
    ⟨⟨hrole, hcur, halive⟩, hw, (congrArg (track · _) hr).trans (track_flip n.writeTrk)⟩
  have hone : (1 : Nat) ≠ 5 := by decide
  refine ⟨_, hsync, halive, rfl, blocked (.txSR (fieldOf i) i) (stuffAsked i n), ?_, rfl, ?_⟩
  · have hwrite : stuffDue (actOf (stuffAsked i n)).node.writeTrk = false :=
      stuffDue_eq_false ((congrArg Tracker.count hw).trans_ne hone)
    have hread : stuffDue (actOf (stuffAsked i n)).node.readTrk = true :=
      (stuffDue_iff _).2 ((congrArg Tracker.count hr).trans hdue)
    show txIter (fieldOf i) i (actOf (stuffAsked i n)) = _
    simp only [txIter, hwrite, txCheck, hread, Bool.false_eq_true, if_false, if_true, blockAt_actOf]
  · rw [sendFrom_of_undue hsync hone hi hbit, ← txSend_of_bit hsync.cur hbit]
    have hflip : n.writeTrk.last.flip ≠ n.readTrk.last := by rw [hr]; exact fun h => Bit.ne_flip _ h.symm
    exact if_neg hflip

/-! ### The end of the frame (R115) -/

/-- A Transmitter about to write bit `k` of EOF. -/
structure AtEof (f : Frame) (k : Nat) (n : Node) : Prop extends Transmits f n where
  pos : n.pos = some (.eofTxW k)

theorem atEof_wrote (h : Transmits f n) (k : Nat) : AtEof f k (wrote .recessive (.eofTxW k) (.eofTxR k) n) :=
  ⟨⟨h.role, h.cur, h.alive⟩, congrArg some (if_neg h.alive)⟩

theorem enterEof_of_transmits (h : Transmits f n) :
    enterEof (actOf n) = actOf (wrote .recessive (.eofTxW 0) (.eofTxR 0) n) := by
  have hrole : (actOf n).node.role = .transmitter := h.role
  simp only [enterEof, hrole, eofWrite, writeThenRead_eq]
  rfl

/-- The Recessive bit `k` of EOF is on the wire; the frame is still held. -/
theorem loneTurn_eof (cfg : Config.Params) {k : Nat} (h : AtEof f k n) :
    ∃ m, Transmits f m ∧ LoneTurn cfg n .recessive (afterEofTx k .recessive (actOf m)) := by
  obtain ⟨⟨hrole, hcur, halive⟩, hpos⟩ := h
  refine ⟨trackRead .recessive (blocked (.eofTxR k) n), ⟨hrole, hcur, halive⟩, halive, ?_, blocked (.eofTxR k) n, ?_, rfl, rfl⟩
  · simp only [nodeOp, hpos, Option.map_some, pointOp]
  · simp only [writeStep, hpos, fromWrite, blockAt_actOf]

/-- The bits of EOF but the last. -/
theorem sends_eof (cfg : Config.Params) {k j : Nat} (h : AtEof f k n) (hkj : k + j = 6) :
    ∃ m, AtEof f 6 m ∧ Sends cfg n (List.replicate j .recessive) m := by
  induction j generalizing k n with
  | zero =>
    obtain rfl : k = 6 := by omega
    exact ⟨n, h, .done n⟩
  | succ j ih =>
    obtain ⟨m, hm, hturn⟩ := loneTurn_eof cfg h
    have hnext : afterEofTx k .recessive (actOf m) = actOf (wrote .recessive (.eofTxW (k + 1)) (.eofTxR (k + 1)) m) := by
      have hlt : k + 1 < 7 := by omega
      simp only [afterEofTx, Config.eofBits, if_pos hlt, eofWrite, writeThenRead_eq]
      rfl
    obtain ⟨l, hl, hsends⟩ := ih (atEof_wrote hm (k + 1)) (by omega)
    exact ⟨l, hl, .bit (hnext ▸ hturn) hsends⟩

/-- Rule 7 adds to the effects (R132, R134). -/
theorem rule7_effects (a : Act) : ∃ more, (rule7 a).effects = a.effects ++ more := by
  unfold rule7
  split
  · rw [updateState_eq]; exact ⟨_, rfl⟩
  · exact ⟨[], (List.append_nil _).symm⟩

/-- After the last bit of EOF the Transmitter reports `TxDone` of its frame first (R115). -/
theorem afterEofTx_effects (h : n.cur = some f) : ∃ more, (afterEofTx 6 .recessive (actOf n)).effects = .event (.txDone f) :: more := by
  have hdeliver : (deliver (actOf n)).effects = [.event (.txDone f)] := by
    have hcur : (actOf n).node.cur = some f := h
    simp only [deliver, hcur]
    rfl
  obtain ⟨more, hmore⟩ := rule7_effects (deliver (actOf n))
  refine ⟨more, ?_⟩
  show (endFrame (rule7 (deliver (actOf n)))).effects = _
  rw [endFrame, enterIntermission_eq]
  exact hmore.trans (by rw [hdeliver]; rfl)

/-! ### The whole frame -/

/-- After a run of 5 the encoder emits a stuff bit, which starts a run of 1 (R59). -/
theorem stuffLoop_stuffBit (l x : Bit) (rest : List Bit) :
    stuffLoop (some l) 5 (x :: rest) = l.flip :: stuffLoop (some l.flip) 1 (x :: rest) := by
  rw [stuffLoop_due, stuffLoop_undue (by decide)]

theorem track_eq (t : Tracker) (x : Bit) : track t x = { last := x, count := if x = t.last then t.count + 1 else 1 } := by
  by_cases h : x = t.last
  · rw [track_same h.symm, if_pos h]
  · rw [track_other (Ne.symm h), if_neg h]

/-- From frame bit `i` on, a lone Transmitter puts the stuffed rest of the frame on the wire, and then begins EOF: its trackers are
the encoder's last bit and run. -/
theorem sends_frameBits (cfg : Config.Params) {bits : List Bit} (hbits : (frameBits f).drop i = bits) (h : InSync f t n) :
    ∃ w m, sendFrom f i (actOf n) = actOf w ∧ Sends cfg w (stuffLoop (some t.last) t.count bits) m ∧ AtEof f 0 m := by
  induction bits generalizing i t n with
  | nil =>
    have hend : frameSize f ≤ i := by rw [← frameBits_length]; exact List.drop_eq_nil_iff.1 hbits
    refine ⟨_, _, ?_, .done _, atEof_wrote h.toTransmits 0⟩
    rw [sendFrom, if_neg (Nat.not_lt.2 hend), enterEof_of_transmits h.toTransmits]
  | cons x rest ih =>
    have hi : i < frameSize f := by
      rw [← frameBits_length]
      exact Nat.lt_of_not_le fun hle => List.cons_ne_nil x rest (hbits.symm.trans (List.drop_eq_nil_iff.2 hle))
    have hbit : frameBit? f i = some x := by
      rw [← frameBits_getElem?, ← List.head?_drop, hbits]; rfl
    have hrest : (frameBits f).drop (i + 1) = rest := by rw [← List.tail_drop, hbits]; rfl
    have hundue : ∀ {t n}, InSync f t n → t.count ≠ 5 → ∃ w m, sendFrom f i (actOf n) = actOf w
        ∧ Sends cfg w (stuffLoop (some t.last) t.count (x :: rest)) m ∧ AtEof f 0 m := by
      intro t n h hdue
      obtain ⟨l, hl, hturn⟩ := loneTurn_bitAsked cfg h i x
      obtain ⟨w, m, hw, hsends, hm⟩ := ih hrest hl
      rw [track_eq] at hsends
      exact ⟨_, m, sendFrom_of_undue h hdue hi hbit, stuffLoop_undue hdue t.last x rest ▸ .bit (hw ▸ hturn) hsends, hm⟩
    by_cases hdue : t.count = 5
    · obtain ⟨l, hl, hturn⟩ := loneTurn_stuffAsked cfg h hdue hi hbit
      obtain ⟨w, m, hw, hsends, hm⟩ := hundue hl (by decide : (1 : Nat) ≠ 5)
      refine ⟨_, m, sendFrom_of_due h hdue hi, ?_, hm⟩
      rw [hdue, stuffLoop_stuffBit]
      exact .bit (hw ▸ hturn) hsends
    · exact hundue h hdue

/-- SOF is on the wire, and is the first bit of both trackers (R107, R116). -/
theorem loneTurn_sof (cfg : Config.Params) (h : Transmits f n) (hpos : n.pos = some .idleSofW)
    (hw : n.writeTrk = { last := .dominant, count := 1 }) (hr : n.readTrk.last = .recessive) :
    ∃ m, InSync f { last := .dominant, count := 1 } m ∧ LoneTurn cfg n .dominant (sendFrom f 0 (actOf m)) := by
  obtain ⟨hrole, hcur, halive⟩ := h
  have hread : track n.readTrk .dominant = { last := .dominant, count := 1 } := track_other (by rw [hr]; decide)
  refine ⟨trackRead .dominant (blocked .idleSofR n), ⟨⟨hrole, hcur, halive⟩, hw, hread⟩,
    halive, ?_, blocked .idleSofR n, ?_, rfl, ?_⟩
  · simp only [nodeOp, hpos, Option.map_some, pointOp]
  · simp only [writeStep, hpos, fromWrite, blockAt_actOf]
  · exact arbIter_eq_sendFrom hrole hcur (Nat.zero_le 11)

/-- A lone Transmitter about to send SOF puts the whole stuffed region and the first six bits of EOF on the wire. -/
theorem sends_region (cfg : Config.Params) (h : Transmits f n) (hpos : n.pos = some .idleSofW)
    (hw : n.writeTrk = { last := .dominant, count := 1 }) (hr : n.readTrk.last = .recessive) :
    ∃ m, AtEof f 6 m ∧ Sends cfg n (stuffEncode (stuffedRegion f) ++ List.replicate 6 .recessive) m := by
  obtain ⟨l, hl, hsof⟩ := loneTurn_sof cfg h hpos hw hr
  obtain ⟨w, k, hwk, hbits, hk⟩ := sends_frameBits cfg List.drop_zero hl
  obtain ⟨m, hm, heof⟩ := sends_eof cfg hk (Nat.zero_add 6)
  exact ⟨m, hm, Sends.append (.bit (hwk ▸ hsof) hbits) heof⟩

/-- A node about to send SOF is a Transmitter (R107). -/
theorem role_of_idleSofW (hok : nodeOk true n = true) (hpos : n.pos = some .idleSofW) : n.role = .transmitter := by
  simp only [nodeOk, hpos, pointOk, sending, Bool.and_eq_true, beq_iff_eq] at hok
  obtain ⟨⟨-, ⟨⟨hrole, -⟩, -⟩, -⟩, -⟩ := hok
  exact hrole

/-- Settles O59: the stuffed region and six bits of EOF go on the wire with nothing given; the seventh ends the frame. -/
theorem loneFrameOnWire : Obligations.LoneFrameOnWire := by
  intro s n f hrun hmiss honly hok halive hpos hcur hw hr
  have htransmits : Transmits f n := ⟨role_of_idleSofW hok hpos, hcur, halive⟩
  obtain ⟨m, hm, hsends⟩ := sends_region s.cfg htransmits hpos hw hr
  obtain ⟨l, hl, hlast⟩ := loneTurn_eof s.cfg hm
  obtain ⟨es, hes⟩ := afterEofTx_effects hl.cur
  obtain ⟨t, ht, htrace, hevents⟩ := hsends.runPeriods_event hlast hes ⟨hrun, hmiss, honly⟩ rfl
  refine ⟨t, ?_, ?_, hevents⟩
  · rw [List.length_append, List.length_replicate] at ht; exact ht
  · rw [htrace, List.append_assoc, List.append_assoc, List.append_assoc]; rfl

end Sys2Proof.Machine
end

section
/-! Proofs of the family `40_bus.md`, one call at a time: `attach`, `busWrite` and `busRead` (R72 to R74), and a bus call on an
inactive bus (R73, R74, R160). -/

namespace Sys2Proof.Machine

/-! ### attach (R72, R145, R146) -/

theorem attachCommand_of_inactive {s : State} (h : s.active = false) (p : Attached) : attachCommand p s = .next (attachTo p s) :=
  if_neg (by simp [h])

theorem execBusAttach_of_inactive {s : State} (h : s.active = false) (p : Attached) : execBusAttach p s = .next (attachTo p s) :=
  if_neg (by simp [h])

/-- The 16 bits of ATTACH's identifier are those of the node's (R145, D28). -/
theorem attachTo_setWidth (id : BitVec 16) (s : State) :
    attachTo (.node (id.setWidth 32)) s = answer (.uid s.participants.length)
      { s with participants := s.participants ++ [.node (Node.reset s.participants.length id.toNat)] } := by
  have hid : (id.setWidth 32).toNat = id.toNat := BitVec.toNat_setWidth_of_le (by decide)
  simp only [attachTo, newParticipant, hid]

/-- Settles O11: on an inactive bus every form is `attachTo`, whose participant is at reset. -/
theorem attachCreates : Obligations.AttachCreates := by
  intro s
  refine ⟨fun hactive id16 id script => ⟨?_, execBusAttach_of_inactive hactive _, attachCommand_of_inactive hactive _,
    execBusAttach_of_inactive hactive _⟩, fun hactive id16 script p => ⟨if_pos hactive, if_pos hactive, if_pos hactive⟩⟩
  exact (attachCommand_of_inactive hactive _).trans (congrArg _ (attachTo_setWidth id16 s))

/-! ### busWrite and busRead (R73, R74) -/

theorem driveBus_of_active {s : State} (h : s.active = true) (b : Bit) : driveBus b s = { s with busState := s.busState.and b } :=
  if_pos h

theorem driveBus_of_inactive {s : State} (h : s.active = false) (b : Bit) : driveBus b s = raiseFault .ioOnInactiveBus s :=
  if_neg (by simp [h])

theorem writeBy_of_alive {st : FcState} (h : st ≠ .busOff) (b : Bit) (s : State) : writeBy st b s = driveBus b s := by
  cases st with
  | busOff => exact absurd rfl h
  | errorActive => rfl
  | errorPassive => rfl

section Participant

variable {s : State} {uid : Word} {p : Participant} (hp : s.participants[uid.toNat]? = some p)
include hp

theorem execBusWrite_of_busOff {n : Node} (hn : p = .node n) (hst : n.st = .busOff) (b : Bit) : execBusWrite uid b s = .next s := by
  simp only [execBusWrite, hp, hn, hst, writeBy]

/-- Every participant but a BusOff node drives the bus. -/
theorem execBusWrite_of_alive (halive : ∀ n, p = .node n → n.st ≠ .busOff) (b : Bit) :
    execBusWrite uid b s = .next (driveBus b s) := by
  cases p with
  | node n => simp only [execBusWrite, hp, writeBy_of_alive (halive n rfl)]
  | raw r => simp only [execBusWrite, hp]

theorem execBusRead_of_active (hactive : s.active = true) : execBusRead uid s = .next (answer (.bit s.busState) s) := by
  simp only [execBusRead, hp, hactive, if_true]

theorem execBusRead_of_inactive (hactive : s.active = false) : execBusRead uid s = .next (raiseFault .ioOnInactiveBus s) := by
  simp only [execBusRead, hp, hactive, Bool.false_eq_true, if_false]

end Participant

/-- Settles O20: a clause for each caller, and for the bus active or not. -/
theorem busWriteAndRead : Obligations.BusWriteAndRead := by
  intro s uid b p hp
  refine ⟨fun n hn hst => execBusWrite_of_busOff hp hn hst b, fun halive hactive => ?_, fun halive hactive => ?_,
    execBusRead_of_active hp, execBusRead_of_inactive hp⟩
  · rw [← driveBus_of_active hactive]; exact execBusWrite_of_alive hp halive b
  · exact (execBusWrite_of_alive hp halive b).trans (congrArg _ (driveBus_of_inactive hactive b))

/-! ### A protocol state's step on an inactive bus (R73, R74, R160; log 4) -/

section Inactive

variable {s : State} {uid : Word} {n : Node} (hn : nodeAt s uid.toNat = some n) (hactive : s.active = false)

include hn hactive in
/-- A node blocked in the state makes its bus call, which is the fault. -/
theorem stateStep_blocked_of_inactive {ps : Ps} (hin : isIn ps n = true) :
    stateStep ps uid s = .next (raiseFault .ioOnInactiveBus s) := by
  obtain ⟨p, hp, hps⟩ := isIn_eq_true.1 hin
  simp only [stateStep, hn, hp, hps, if_true, resumeNode, hactive, Bool.false_eq_true, if_false]
  cases pointOp p <;> rfl

include hn in
/-- A node elsewhere starts at the state's first line. -/
theorem stateStep_elsewhere {ps : Ps} (hin : isIn ps n = false) : stateStep ps uid s = .next (startState ps uid.toNat n s) := by
  unfold stateStep
  simp only [hn]
  cases hp : n.pos with
  | none => rfl
  | some p => exact if_neg (by simpa [isIn, hp] using hin)

/-- The fault of the bus call a step ends at is the last thing the step does. -/
theorem commit_failWith (u : Nat) (a : Act) (r : FaultReason) (s : State) (h : a.fault = none) :
    commit u (failWith r a) s = raiseFault r (commit u a s) := by
  simp only [commit, failWith, h]
  rfl

include hn hactive in
/-- A step from the first line that no fault stops runs to its first bus call, which is the fault. -/
theorem stateStep_start_of_inactive {ps : Ps} {a : Act} (hin : isIn ps n = false) (ha : enterPs ps (actOf n) = a)
    (hfault : a.fault = none) : stateStep ps uid s = .next (raiseFault .ioOnInactiveBus (commit uid.toNat a s)) := by
  rw [stateStep_elsewhere hn hin, startState, ha, hactive, ← commit_failWith uid.toNat a .ioOnInactiveBus s hfault]
  simp only [busCall, andThen, hfault, Bool.false_eq_true, if_false]

include hn hactive in
/-- A fault before the first bus call stops the step there. -/
theorem stateStep_stopped_of_inactive {ps : Ps} {a : Act} {r : FaultReason} (hin : isIn ps n = false)
    (ha : enterPs ps (actOf n) = a) (hfault : a.fault = some r) : stateStep ps uid s = .next (commit uid.toNat a s) := by
  rw [stateStep_elsewhere hn hin, startState, ha, hactive]
  simp only [busCall, andThen, hfault, Bool.false_eq_true, if_false]

end Inactive

/-! ### The first frame bit of a Transmitter (R96, R97, R109, R112; log 18) -/

/-- A stuff bit to write or to read comes before the next frame bit. -/
def StuffFirst (n : Node) : Prop := n.readTrk.count = 5 ∨ (n.writeTrk.count = 5 ∧ n.st ≠ .busOff)

theorem txSend_fault_of_bit {a : Act} {i : Nat} {c : Frame} (f : Field) (hcur : a.node.cur = some c) (hi : i < frameSize c) :
    (txSend f i a).fault = a.fault := by
  obtain ⟨b, hb⟩ := frameBit?_isSome hi
  simp only [txSend, hcur, Option.bind_some, hb, writeThenRead_eq]

/-- No index is in range of no frame (R86). -/
theorem txSend_fault_of_noFrame {a : Act} (f : Field) (i : Nat) (hcur : a.node.cur = none) :
    (txSend f i a).fault = some .bitIndexOutOfRange := by
  simp only [txSend, hcur, Option.bind_none, failWith]

/-- A stuff read blocks before the frame bit (R97). -/
theorem txCheck_fault_of_due {a : Act} (h : a.node.readTrk.count = 5) (f : Field) (i : Nat) : (txCheck f i a).fault = a.fault := by
  simp only [txCheck, (stuffDue_iff _).2 h, if_true, blockAt, onRegs]

theorem txCheck_of_undue {a : Act} (h : a.node.readTrk.count ≠ 5) (f : Field) (i : Nat) : txCheck f i a = txSend f i a := by
  simp only [txCheck, stuffDue_eq_false h, Bool.false_eq_true, if_false]

/-- A stuff write blocks before the stuff read; a BusOff node's is counted and blocks nowhere (R73, R96). -/
theorem txIter_cases (f : Field) (i : Nat) (a : Act) :
    ((a.node.writeTrk.count = 5 ∧ a.node.st ≠ .busOff) ∧ (txIter f i a).fault = a.fault)
      ∨ (¬ (a.node.writeTrk.count = 5 ∧ a.node.st ≠ .busOff)
          ∧ ∃ c, c.node.readTrk = a.node.readTrk ∧ c.node.cur = a.node.cur ∧ c.fault = a.fault
            ∧ txIter f i a = txCheck f i c) := by
  unfold txIter
  by_cases hdue : a.node.writeTrk.count = 5
  · rw [if_pos ((stuffDue_iff _).2 hdue)]
    by_cases hst : a.node.st = .busOff
    · exact .inr ⟨fun h => h.2 hst, onRegs (trackWrite a.node.writeTrk.last.flip) a, rfl, rfl, rfl,
        by simp only [writeBit, hst]⟩
    · exact .inl ⟨⟨hdue, hst⟩, by rw [writeBit_of_alive hst]; rfl⟩
  · rw [if_neg (mt (stuffDue_iff _).1 hdue)]
    exact .inr ⟨fun h => hdue h.1, a, rfl, rfl, rfl, rfl⟩

/-- With a stuff bit first, or a frame bit to send, the iteration ends at a bus call. -/
theorem txIter_fault_of_call {a : Act} {i : Nat} (f : Field)
    (h : (∃ c, a.node.cur = some c ∧ i < frameSize c) ∨ StuffFirst a.node) : (txIter f i a).fault = a.fault := by
  obtain ⟨-, hfault⟩ | ⟨hwrite, b, hread, hcur, hfault, hb⟩ := txIter_cases f i a
  · exact hfault
  · rw [hb, ← hfault]
    by_cases hdue : b.node.readTrk.count = 5
    · exact txCheck_fault_of_due hdue f i
    · rw [txCheck_of_undue hdue]
      obtain ⟨c, hc, hi⟩ | hdue' | hwrite' := h
      · exact txSend_fault_of_bit f (hcur.trans hc) hi
      · exact absurd (hread ▸ hdue') hdue
      · exact absurd hwrite' hwrite

/-- With neither, it is the programmer error of log 18. -/
theorem txIter_fault_of_noFrame {a : Act} (f : Field) (i : Nat) (hnone : a.node.cur = none) (h : ¬ StuffFirst a.node) :
    (txIter f i a).fault = some .bitIndexOutOfRange := by
  obtain ⟨hwrite, -⟩ | ⟨-, b, hread, hcur, -, hb⟩ := txIter_cases f i a
  · exact absurd (.inr hwrite) h
  · rw [hb, txCheck_of_undue fun hdue => h (.inl (hread ▸ hdue))]
    exact txSend_fault_of_noFrame f i (hcur.trans hnone)

/-- Every frame has the bits of its identifier and its DLC (R85). -/
theorem lt_frameSize_of_isSome {n : Node} {i : Nat} (h : n.cur.isSome = true) (hi : i < 15) :
    ∃ c, n.cur = some c ∧ i < frameSize c := by
  obtain ⟨c, hc⟩ := Option.isSome_iff_exists.1 h
  exact ⟨c, hc, by simp only [frameSize]; omega⟩

/-! ### The first line of each state raises no fault of its own (R105 to R121) -/

theorem enterEof_fault (a : Act) : (enterEof a).fault = a.fault := by
  unfold enterEof
  split
  · simp only [eofWrite, writeThenRead_eq]
  · rfl

theorem dataByte_fault (j : Nat) (a : Act) : (dataByte j a).fault = a.fault := by
  unfold dataByte
  split
  · rw [dataCheck_eq]
  · exact enterEof_fault a

/-- The data of a Transmitter ends where its frame does, so each of its indices has a bit (R114). -/
theorem dataTx_fault {i : Nat} (hi : 15 ≤ i) (a : Act) : (dataTx i a).fault = a.fault := by
  unfold dataTx
  split
  · rename_i hlt
    cases hcur : a.node.cur with
    | none => simp only [dataEnd, hcur] at hlt; omega
    | some c =>
      simp only [dataEnd, hcur, frameDlc_toNat] at hlt
      exact txIter_fault_of_call .data (.inl ⟨c, hcur, hlt⟩)
  · exact enterEof_fault a

theorem enterData_fault (a : Act) : (enterData a).fault = a.fault := by
  unfold enterData
  split
  · exact dataTx_fault (Nat.le_refl 15) a
  · exact dataByte_fault 0 a

theorem enterDlc_of_receiver {a : Act} (h : a.node.role = .receiver) : enterDlc a = dlcRx 0 a := by simp only [enterDlc, h]

theorem enterDlc_of_transmitter {a : Act} (h : a.node.role = .transmitter) : enterDlc a = dlcTx 11 a := by simp only [enterDlc, h]

theorem dlcRx_zero_fault (a : Act) : (dlcRx 0 a).fault = a.fault := by
  have hdlc : dlcRx 0 a = dlcCheck 0 a := rfl
  rw [hdlc, dlcCheck_eq]

/-- The first DLC bit of a Transmitter is frame bit 11 (R113). -/
theorem dlcTx_first (a : Act) : dlcTx 11 a = txIter .dlc 11 a := rfl

theorem arbIter_first_of_transmitter {a : Act} (h : a.node.role = .transmitter) : arbIter 0 a = txIter .identifier 0 a := by
  have hlt : 0 < Config.idBits := by decide
  simp only [arbIter, if_pos hlt, h]

theorem arbIter_first_fault {a : Act} (h : a.node.role = .receiver ∨ a.node.cur.isSome = true ∨ StuffFirst a.node) :
    (arbIter 0 a).fault = a.fault := by
  cases hrole : a.node.role with
  | receiver =>
    have hcheck : arbIter 0 a = arbCheck 0 a := by simp only [arbIter, hrole, Config.idBits, Nat.zero_lt_succ, if_true]
    rw [hcheck, arbCheck_eq]
  | transmitter =>
    rw [arbIter_first_of_transmitter hrole]
    obtain hrx | hcall := h
    · rw [hrole] at hrx; cases hrx
    · exact txIter_fault_of_call .identifier (hcall.imp_left (lt_frameSize_of_isSome · (by decide)))

theorem enterEof_actOf (n : Node) : enterEof (actOf n) = actOf
    (if n.role = .transmitter then wrote .recessive (.eofTxW 0) (.eofTxR 0) n else { n with pos := some (.eofRxR 0) }) := by
  unfold enterEof
  split
  · rename_i hrole
    rw [if_pos (show n.role = .transmitter from hrole), eofWrite, writeThenRead_eq]
    rfl
  · rename_i hrole
    have hother : n.role ≠ .transmitter := by rw [show n.role = .receiver from hrole]; decide
    rw [if_neg hother]
    rfl

/-! ### The stuffing primitives on an inactive bus (R94 to R97; log 3) -/

section Primitives

variable {s : State} {uid : Word} {n : Node} (hn : nodeAt s uid.toNat = some n) (hactive : s.active = false)

include hactive in
theorem writeNow_of_alive_of_inactive (u : Nat) (hst : n.st ≠ .busOff) (b : Bit) :
    writeNow u n b s = raiseFault .ioOnInactiveBus (setNode s u (trackWrite b n)) := by
  rw [writeNow, writeBy_of_alive hst, driveBus_of_inactive]
  exact hactive

theorem writeNow_of_busOff (u : Nat) (hst : n.st = .busOff) (b : Bit) : writeNow u n b s = setNode s u (trackWrite b n) := by
  rw [writeNow, hst]
  rfl

/-- The stuff bit starts a run of 1 (R96). -/
theorem trackWrite_flip (n : Node) :
    trackWrite n.writeTrk.last.flip n = { n with writeTrk := { last := n.writeTrk.last.flip, count := 1 } } := by
  rw [trackWrite, track_flip]

include hn

theorem execStuffWriteBit_of_node (b : Bit) : execStuffWriteBit uid b s = .next (writeNow uid.toNat n b s) := by
  simp only [execStuffWriteBit, hn]

theorem execStuffMaybeReadStuff_of_undue (h : n.readTrk.count ≠ 5) :
    execStuffMaybeReadStuff uid s = .next (answer (.truth true) s) := by
  simp only [execStuffMaybeReadStuff, hn, stuffDue_eq_false h, Bool.false_eq_true, if_false]

theorem execStuffMaybeWriteStuff_of_undue (h : n.writeTrk.count ≠ 5) :
    execStuffMaybeWriteStuff uid s = .next (answer (.truth false) s) := by
  simp only [execStuffMaybeWriteStuff, hn, stuffDue_eq_false h, Bool.false_eq_true, if_false]

theorem execStuffMaybeWriteStuff_of_busOff (h : n.writeTrk.count = 5) (hst : n.st = .busOff) :
    execStuffMaybeWriteStuff uid s = .next (answer (.truth true) (writeNow uid.toNat n n.writeTrk.last.flip s)) := by
  have hgoes : writeGoes n.st s = true := by simp [writeGoes, hst]
  simp only [execStuffMaybeWriteStuff, hn, (stuffDue_iff _).2 h, hgoes, if_true]

include hactive

/-- A write that is a fault answers nothing. -/
theorem execStuffMaybeWriteStuff_of_inactive (h : n.writeTrk.count = 5) (hst : n.st ≠ .busOff) :
    execStuffMaybeWriteStuff uid s = .next (writeNow uid.toNat n n.writeTrk.last.flip s) := by
  have hgoes : writeGoes n.st s = false := by simp [writeGoes, hactive, hst]
  simp only [execStuffMaybeWriteStuff, hn, (stuffDue_iff _).2 h, hgoes, Bool.false_eq_true, if_true, if_false]

theorem execStuffReadBit_of_inactive : execStuffReadBit uid s = .next (raiseFault .ioOnInactiveBus s) := by
  simp only [execStuffReadBit, hn, hactive, Bool.false_eq_true, if_false]

theorem execStuffMaybeReadStuff_of_inactive (h : n.readTrk.count = 5) :
    execStuffMaybeReadStuff uid s = .next (raiseFault .ioOnInactiveBus s) := by
  simp only [execStuffMaybeReadStuff, hn, (stuffDue_iff _).2 h, hactive, Bool.false_eq_true, if_true, if_false]

end Primitives

/-- Settles O49: a node blocked in the state, a node that starts it, and the primitives. -/
theorem inactiveBusFaults : Obligations.InactiveBusFaults := by
  intro s uid n hn hactive stuffFirst
  have waits : ∀ ps, isIn ps n = true → stateStep ps uid s = .next (raiseFault .ioOnInactiveBus s) :=
    fun _ => stateStep_blocked_of_inactive hn hactive
  have starts : ∀ {ps a}, isIn ps n = false → enterPs ps (actOf n) = a → a.fault = none →
      stateStep ps uid s = .next (raiseFault .ioOnInactiveBus (commit uid.toNat a s)) := stateStep_start_of_inactive hn hactive
  have stopped : ∀ {ps a r}, isIn ps n = false → enterPs ps (actOf n) = a → a.fault = some r →
      stateStep ps uid s = .next (commit uid.toNat a s) := stateStep_stopped_of_inactive hn hactive
  refine ⟨waits _, waits _, waits _, waits _, waits _, waits _, waits _, waits _,
    fun hin => starts hin (enterIntermission_eq _) rfl,
    fun hin => starts hin (writeThenRead_eq _ _ _ _) rfl,
    fun hin => starts hin (enterBusIdle_eq _) rfl,
    fun hin hcall => starts hin rfl (arbIter_first_fault hcall),
    fun hin hrole hcur hstuff => ?arbitration,
    fun hin hrole => starts hin (enterDlc_of_receiver hrole) (dlcRx_zero_fault _),
    fun hin hrole hcall => starts hin (enterDlc_of_transmitter hrole) ?dlc,
    fun hin hrole hcur hstuff => ?dlcStopped,
    fun hin => starts hin rfl (enterData_fault _),
    fun hin => starts hin (enterEof_actOf n) rfl,
    fun hin => starts hin (enterError_eq _) rfl,
    execStuffReadBit_of_inactive hn hactive,
    execStuffMaybeReadStuff_of_inactive hn hactive,
    execStuffMaybeReadStuff_of_undue hn,
    fun hst b => (execStuffWriteBit_of_node hn b).trans (congrArg _ (writeNow_of_alive_of_inactive hactive _ hst b)),
    fun hst b => (execStuffWriteBit_of_node hn b).trans (congrArg _ (writeNow_of_busOff _ hst b)),
    fun hdue hst => ?writeStuff,
    fun hdue hst => ?busOffStuff,
    execStuffMaybeWriteStuff_of_undue hn⟩
  case arbitration =>
    have hfault : (arbIter 0 (actOf n)).fault = some .bitIndexOutOfRange := by
      rw [arbIter_first_of_transmitter hrole]
      exact txIter_fault_of_noFrame .identifier 0 hcur hstuff
    exact ⟨hfault, stopped hin rfl hfault⟩
  case dlc =>
    rw [dlcTx_first]
    exact txIter_fault_of_call .dlc (hcall.imp_left (lt_frameSize_of_isSome (n := n) · (by decide)))
  case dlcStopped =>
    have hfault : (dlcTx 11 (actOf n)).fault = some .bitIndexOutOfRange := txIter_fault_of_noFrame .dlc 11 hcur hstuff
    exact ⟨hfault, stopped hin (enterDlc_of_transmitter hrole) hfault⟩
  case writeStuff =>
    rw [← trackWrite_flip]
    exact (execStuffMaybeWriteStuff_of_inactive hn hactive hdue hst).trans
      (congrArg _ (writeNow_of_alive_of_inactive hactive _ hst _))
  case busOffStuff =>
    rw [← trackWrite_flip]
    exact (execStuffMaybeWriteStuff_of_busOff hn hdue hst).trans
      (congrArg (Host.Outcome.next <| answer (.truth true) ·) (writeNow_of_busOff _ hst _))

end Sys2Proof.Machine
end

section
/-! Proofs of the family `40_bus.md`, a bit period: each participant's two turns (R75, R80, R81, R139), and what the period gives the
rest of the block (R38, R141, R155, R160, R165). -/

namespace Sys2Proof.Machine

/-! ### A participant of a period (R75) -/

/-- The participant after its turn in the write phase of a period and its turn in the read phase with the bus word `bus`. -/
def afterTurns (cfg : Config.Params) (period : Nat) (bus : Bit) (q : Participant) : Participant :=
  (readTurn cfg period (writeTurn cfg period q .recessive).part bus).part

/-- A period leaves each participant what its two turns do. -/
theorem runPeriod_getElem? (s : State) (u : Nat) :
    (runPeriod s).participants[u]? = (s.participants[u]?).map (afterTurns s.cfg s.period (runPeriod s).busState) := by
  rw [runPeriod_participants_of_busState, List.getElem?_map]
  rfl

theorem runPeriod_nextPeriod_getElem? {s : State} {u : Nat} {q : Participant} (hq : s.participants[u]? = some q) :
    (runPeriod (nextPeriod s)).participants[u]? =
      some (afterTurns s.cfg (nextPeriod s).period (runPeriod (nextPeriod s)).busState q) := by
  rw [runPeriod_getElem?, nextPeriod_participants, hq, nextPeriod_cfg]
  rfl

/-! ### A raw participant follows its script (R36, R81; log 20) -/

section Raw

variable {cfg : Config.Params} (hmiss : cfg.missedPhases = false) (period : Nat) (bus : Bit) {r : Raw}

theorem advanceRaw_of_entry {op : RawOp} (h : r.script[r.index]? = some op) : advanceRaw r = { r with index := r.index + 1 } := by
  rw [advanceRaw, if_pos (List.getElem?_eq_some_iff.1 h).1]

theorem advanceRaw_of_end (h : r.script[r.index]? = none) : advanceRaw r = r := by
  rw [advanceRaw, if_neg (Nat.not_lt.2 (List.getElem?_eq_none_iff.1 h))]

/-- The read of a participant at an entry `R` is recorded, and it moves on. -/
theorem advanceRaw_read_of_entry (h : r.script[r.index]? = some .read) :
    advanceRaw { r with reads := r.reads ++ [bus] } = { r with index := r.index + 1, reads := r.reads ++ [bus] } :=
  advanceRaw_of_entry (r := { r with reads := r.reads ++ [bus] }) h

/-- After the script the read is recorded, and the index stays. -/
theorem advanceRaw_read_of_end (h : r.script[r.index]? = none) :
    advanceRaw { r with reads := r.reads ++ [bus] } = { r with reads := r.reads ++ [bus] } :=
  advanceRaw_of_end (r := { r with reads := r.reads ++ [bus] }) h

theorem rawOp_of_write {b : Bit} (h : r.script[r.index]? = some (.write b)) : rawOp r = .write b := by simp only [rawOp, h]

theorem rawOp_of_read (h : r.script[r.index]? = some .read) : rawOp r = .read := by simp only [rawOp, h]

theorem rawOp_of_end (h : r.script[r.index]? = none) : rawOp r = .read := by simp only [rawOp, h]

include hmiss

theorem writeTurn_raw_of_write {b : Bit} (h : r.script[r.index]? = some (.write b)) :
    (writeTurn cfg period (.raw r) bus).part = .raw { r with index := r.index + 1 } := by
  simp only [writeTurn, rawWriteTurn, missed_of_noMiss hmiss, rawOp_of_write h, advanceRaw_of_entry h, idleTurn, Bool.false_eq_true,
    if_false]

theorem writeTurn_raw_of_read (h : rawOp r = .read) : (writeTurn cfg period (.raw r) bus).part = .raw r := by
  simp only [writeTurn, rawWriteTurn, missed_of_noMiss hmiss, h, idleTurn, Bool.false_eq_true, if_false]

theorem readTurn_raw_of_read (h : rawOp r = .read) :
    (readTurn cfg period (.raw r) bus).part = .raw (advanceRaw { r with reads := r.reads ++ [bus] }) := by
  simp only [readTurn, rawReadTurn, missed_of_noMiss hmiss, h, idleTurn, Bool.false_eq_true, if_false]

theorem readTurn_raw_of_write {b : Bit} (h : rawOp r = .write b) : (readTurn cfg period (.raw r) bus).part = .raw r := by
  simp only [readTurn, rawReadTurn, missed_of_noMiss hmiss, h, idleTurn, Bool.false_eq_true, if_false]

/-- A participant at a write is past it in the read phase. -/
theorem afterTurns_raw_of_write {b : Bit} (h : r.script[r.index]? = some (.write b)) :
    afterTurns cfg period bus (.raw r) = (readTurn cfg period (.raw { r with index := r.index + 1 }) bus).part := by
  rw [afterTurns, writeTurn_raw_of_write hmiss period .recessive h]

/-- A participant at a read has only its turn in the read phase. -/
theorem afterTurns_raw_of_read (h : rawOp r = .read) :
    afterTurns cfg period bus (.raw r) = .raw (advanceRaw { r with reads := r.reads ++ [bus] }) := by
  rw [afterTurns, writeTurn_raw_of_read hmiss period .recessive h, readTurn_raw_of_read hmiss period bus h]

end Raw

/-- Settles O24: the two turns of a raw participant, by the script entry at its index and the one after a write. -/
theorem rawScriptRuns : Obligations.RawScriptRuns := by
  intro s u r hrun hmiss hr
  have hpart := runPeriod_nextPeriod_getElem? hr
  refine ⟨_, busPeriod_of_running hrun, fun b hw hread => ?_, fun b c hw hw' => ?_, fun b hw hend => ?_, fun hread => ?_,
    fun hend => ?_⟩ <;> rw [hpart]
  · rw [afterTurns_raw_of_write hmiss _ _ hw, readTurn_raw_of_read hmiss _ _ (rawOp_of_read hread)]
    exact congrArg (some <| Participant.raw ·) (advanceRaw_read_of_entry _ hread)
  · rw [afterTurns_raw_of_write hmiss _ _ hw, readTurn_raw_of_write hmiss _ _ (rawOp_of_write hw')]
  · rw [afterTurns_raw_of_write hmiss _ _ hw, readTurn_raw_of_read hmiss _ _ (rawOp_of_end hend)]
    exact congrArg (some <| Participant.raw ·) (advanceRaw_read_of_end _ hend)
  · rw [afterTurns_raw_of_read hmiss _ _ (rawOp_of_read hread), advanceRaw_read_of_entry _ hread]
  · rw [afterTurns_raw_of_read hmiss _ _ (rawOp_of_end hend), advanceRaw_read_of_end _ hend]

/-! ### Missed phases (R80; log 12) -/

section Missed

variable {cfg : Config.Params} {period : Nat} {q : Participant}

theorem writeTurn_of_missed (h : missed cfg period false (participantUid q) = true) (bus : Bit) :
    writeTurn cfg period q bus = idleTurn q bus := by
  cases q <;> exact if_pos h

theorem readTurn_of_missed (h : missed cfg period true (participantUid q) = true) (bus : Bit) :
    readTurn cfg period q bus = idleTurn q bus := by
  cases q <;> exact if_pos h

theorem writtenBit_of_missed (h : missed cfg period false (participantUid q) = true) : writtenBit cfg period q = none := by
  cases q with
  | node n => exact if_pos (by simp only [participantUid] at h; simp only [h, Bool.true_or])
  | raw r => exact if_pos h

/-- A participant that misses both phases is left as it was. -/
theorem afterTurns_of_missed (hwrite : missed cfg period false (participantUid q) = true)
    (hread : missed cfg period true (participantUid q) = true) (bus : Bit) : afterTurns cfg period bus q = q := by
  rw [afterTurns, writeTurn_of_missed hwrite]
  exact congrArg Turn.part (readTurn_of_missed hread bus)

end Missed

/-- Settles O25: a participant's index is its uid, by which the free value says what it misses. -/
theorem missedPhaseTakesNoPart : Obligations.MissedPhaseTakesNoPart := by
  intro s u q hrun hdense hq
  have huid : participantUid q = u := (uidsDense_iff s).1 hdense u q hq
  refine ⟨_, busPeriod_of_running hrun, fun hallow hwrite hread => ?_, fun hnone _ => missed_of_noMiss hnone _ _ _⟩
  rw [runPeriod_period] at hwrite hread ⊢
  have hmissed : ∀ phase, Config.miss (nextPeriod s).period u phase = true →
      missed s.cfg (nextPeriod s).period phase (participantUid q) = true := fun phase h => by
    rw [missed, hallow, huid, h]; rfl
  exact ⟨by rw [runPeriod_nextPeriod_getElem? hq, afterTurns_of_missed (hmissed _ hwrite) (hmissed _ hread)],
    writtenBit_of_missed (hmissed _ hwrite)⟩

/-! ### A BusOff node (R73, R139, R168) -/

/-- A BusOff node writes no bit. -/
theorem writtenBit_of_busOff (cfg : Config.Params) (period : Nat) {n : Node} (h : n.st = .busOff) :
    writtenBit cfg period (.node n) = none := by
  simp only [writtenBit, h, beq_self_eq_true, Bool.or_true, if_true]

/-- The bits written do not depend on the registers of a BusOff node. -/
theorem map_writtenBit_set_of_busOff (cfg : Config.Params) (period : Nat) {ps : List Participant} {u : Nat} {n m : Node}
    (hu : ps[u]? = some (.node n)) (hn : n.st = .busOff) (hm : m.st = .busOff) :
    (ps.set u (.node m)).map (writtenBit cfg period) = ps.map (writtenBit cfg period) := by
  obtain ⟨hlt, hget⟩ := List.getElem?_eq_some_iff.1 hu
  have hsame : writtenBit cfg period (.node m) = (ps.map (writtenBit cfg period))[u]'(by simpa using hlt) := by
    rw [List.getElem_map, hget, writtenBit_of_busOff cfg period hn, writtenBit_of_busOff cfg period hm]
  rw [List.map_set, hsame, List.set_getElem_self]

/-- The period a state begins does not depend on its participants. -/
theorem nextPeriod_period_of_participants (s : State) (ps : List Participant) :
    (nextPeriod { s with participants := ps }).period = (nextPeriod s).period := by
  simp only [nextPeriod_period]

/-- Settles O26: the bits written are the same, so the bus word is, and with it what every other participant's turns do. -/
theorem busOffNodeInvisible : Obligations.BusOffNodeInvisible := by
  intro s u n m hrun hu hn hm
  have hbus : (runPeriod (nextPeriod { s with participants := s.participants.set u (.node m) })).busState =
      (runPeriod (nextPeriod s)).busState := by
    simp only [runPeriod_busState_eq_wiredAnd, nextPeriod_participants, nextPeriod_cfg, nextPeriod_period_of_participants,
      map_writtenBit_set_of_busOff s.cfg _ hu hn hm]
  refine ⟨_, _, busPeriod_of_running hrun, busPeriod_of_running hrun, hbus, fun v hv => ?_⟩
  simp only [runPeriod_getElem?, hbus, nextPeriod_participants, nextPeriod_cfg, nextPeriod_period_of_participants,
    List.getElem?_set_ne hv.symm]

/-! ### What every bit period leaves (R75, R141; log 22) -/

/-- The state after one iteration of the loop: a period has run, or the loop stops, or the bus is not active yet. -/
def loopEnd (s : State) : State :=
  if running s then runPeriod (nextPeriod s) else if s.active then { nextPeriod s with phase := .stopped } else closeBoundary s

theorem loopStops_of_not_running {s : State} (hactive : s.active = true) (h : ¬ running s = true) : loopStops s = true := by
  simp only [running, hactive, Bool.true_and] at h
  cases hfault : s.fault with
  | none => simpa [hfault, loopStops] using h
  | some r => simp [loopStops, hfault]

/-- Every iteration of the loop answers its end. -/
theorem busPeriod_eq_loopEnd (s : State) : exec .busPeriod s = .next (loopEnd s) := by
  unfold loopEnd
  split
  · rename_i hrun; exact busPeriod_of_running hrun
  · rename_i hrun
    simp only [exec, execBusPeriod]
    split
    · rename_i hactive; rw [if_pos (loopStops_of_not_running hactive hrun)]
    · rfl

/-- What an iteration of the loop leaves: what the host reads and sets, but for the batch of the boundary, which is passed. -/
structure PassesBatch (s t : State) : Prop where
  results : t.results = s.results
  hostCode : t.hostCode = s.hostCode
  cfg : t.cfg = s.cfg
  bitrate : t.bitrate = s.bitrate
  active : t.active = s.active
  halted : t.halted = s.halted
  placed : t.placed = s.placed
  host : t.host = (closeBoundary s).host

theorem loopEnd_passesBatch (s : State) : PassesBatch s (loopEnd s) := by
  unfold loopEnd
  split
  · constructor
    all_goals simp [runPeriod, readPhase, writePhase]
  · split <;> constructor
    all_goals simp

/-! ### What a bit period that runs gives (R38, R155, R160, R165) -/

theorem PartKept.participantUid {p q : Participant} (h : PartKept p q) : participantUid q = participantUid p := by
  cases h with
  | node h => exact h.uid
  | raw h _ => exact h

/-- The turns of the write phase give `writeEffects`, and the last of their faults (R76; log 31, log 32). -/
theorem allTurns_write_gives (cfg : Config.Params) (period : Nat) (ps : List Participant) (bus : Bit) :
    (allTurns (writeTurn cfg period) ps bus).effects = writeEffects cfg period ps
      ∧ (allTurns (writeTurn cfg period) ps bus).fault =
        (ps.filterMap fun q => (writeTurn cfg period q .recessive).fault).getLast? :=
  allTurns_gives_of_const (writeTurn_gives cfg period) ps bus .recessive

/-- The turns of the read phase give `readEffects`, and the last of their faults. -/
theorem allTurns_read_gives (cfg : Config.Params) (period : Nat) (ps : List Participant) (bus : Bit) :
    (allTurns (readTurn cfg period) (ps.map fun q => (writeTurn cfg period q .recessive).part) bus).effects =
        readEffects cfg period ps bus
      ∧ (allTurns (readTurn cfg period) (ps.map fun q => (writeTurn cfg period q .recessive).part) bus).fault =
        (ps.filterMap fun q => (readTurn cfg period (writeTurn cfg period q .recessive).part bus).fault).getLast? := by
  obtain ⟨heffects, hfault⟩ := allTurns_gives_of_bus (readTurn_bus cfg period)
    (ps.map fun q => (writeTurn cfg period q .recessive).part) bus
  refine ⟨?_, ?_⟩
  · simp only [heffects, List.flatMap_map, (writeTurn_kept cfg period _ .recessive).participantUid, readEffects]
  · rw [hfault, List.filterMap_map]
    rfl

/-- The last fault of two lists of faults, one after the other (R160). -/
theorem laterFault_getLast_append (xs ys : List FaultReason) : laterFault xs.getLast? ys.getLast? = (xs ++ ys).getLast? := by
  rw [List.getLast?_append]
  cases ys.getLast? <;> rfl

section Gives

variable (s : State)

/-- The read phase's turns are given the participants of the write phase, and the bus word the period ends with. -/
theorem readPhase_turns : allTurns (readTurn s.cfg s.period) (writePhase s).participants (writePhase s).busState =
    allTurns (readTurn s.cfg s.period) (s.participants.map fun q => (writeTurn s.cfg s.period q .recessive).part)
      (runPeriod s).busState := by
  rw [writePhase_participants, runPeriod_busState_eq_writePhase]

theorem runPeriod_events_eq : (runPeriod s).events = s.events
    ++ (writeEffects s.cfg s.period s.participants).filterMap (eventOf { s with phase := .write })
    ++ (readEffects s.cfg s.period s.participants (runPeriod s).busState).filterMap (eventOf { s with phase := .read }) := by
  have hwrite : (writePhase s).events = s.events
      ++ (writeEffects s.cfg s.period s.participants).filterMap (eventOf { s with phase := .write }) := by
    simp only [writePhase, applyRound_events, (allTurns_write_gives _ _ _ _).1]
    rfl
  have hstamp : eventOf { writePhase s with phase := .read } = eventOf { s with phase := .read } :=
    funext (eventOf_congr (by simp [stampOf, writePhase]) rfl)
  rw [runPeriod_events, hwrite, readPhase_turns, (allTurns_read_gives _ _ _ _).1, hstamp]

theorem runPeriod_calls_eq : (runPeriod s).calls = s.calls
    ++ (writeEffects s.cfg s.period s.participants
      ++ readEffects s.cfg s.period s.participants (runPeriod s).busState).filterMap (callOf s) := by
  have hstamp : callOf { writePhase s with phase := .read } = callOf s :=
    funext fun e => by simp only [callOf, stampOf, writePhase, applyRound_active, applyRound_period]
  have hread : (runPeriod s).calls = (writePhase s).calls
      ++ (allTurns (readTurn s.cfg s.period) (writePhase s).participants (writePhase s).busState).effects.filterMap
          (callOf { writePhase s with phase := .read }) := by
    simp [runPeriod, readPhase]
  rw [hread, readPhase_turns, (allTurns_read_gives _ _ _ _).1, hstamp, List.filterMap_append, ← List.append_assoc]
  simp only [writePhase, applyRound_calls, (allTurns_write_gives _ _ _ _).1]
  rfl

theorem runPeriod_issued_eq : (runPeriod s).issued = s.issued
    ++ (writeEffects s.cfg s.period s.participants
      ++ readEffects s.cfg s.period s.participants (runPeriod s).busState).flatMap (issuedBy s) := by
  have hcode : issuedBy { writePhase s with phase := .read } = issuedBy s :=
    funext fun e => by simp only [issuedBy, writePhase, applyRound_hostCode]
  have hread : (runPeriod s).issued = (writePhase s).issued
      ++ (allTurns (readTurn s.cfg s.period) (writePhase s).participants (writePhase s).busState).effects.flatMap
          (issuedBy { writePhase s with phase := .read }) := by
    simp [runPeriod, readPhase]
  rw [hread, readPhase_turns, (allTurns_read_gives _ _ _ _).1, hcode, List.flatMap_append, ← List.append_assoc]
  simp only [writePhase, applyRound_issued, (allTurns_write_gives _ _ _ _).1]
  rfl

theorem runPeriod_fault_eq (h : s.fault = none) :
    (runPeriod s).fault = (periodFaults s.cfg s.period s.participants (runPeriod s).busState).getLast? := by
  have hwrite : (writePhase s).fault =
      (s.participants.filterMap fun q => (writeTurn s.cfg s.period q .recessive).fault).getLast? := by
    simp only [writePhase, applyRound_fault, h, (allTurns_write_gives _ _ _ _).2]
    exact laterFault_getLast_append [] _
  rw [runPeriod_fault, hwrite, readPhase_turns, (allTurns_read_gives _ _ _ _).2, laterFault_getLast_append]
  rfl

end Gives

/-- The events of an active bus, stamped with its period (R38). -/
theorem eventOf_of_active {s : State} (h : s.active = true) (phase : Phase) :
    eventOf { s with phase := phase } = fun e =>
      match e.2 with
      | .event k => some { period := some s.period, phase := phase, uid := e.1, kind := k }
      | .call _ => none := by
  have hstamp : stampOf { s with phase := phase } = some s.period := if_pos h
  funext ⟨u, e⟩
  cases e with
  | event k => exact congrArg (some <| Event.mk · phase u k) hstamp
  | call _ => rfl

/-- The callbacks invoked on an active bus, stamped with its period (R138). -/
theorem callOf_of_active {s : State} (h : s.active = true) :
    callOf s = fun e =>
      match e.2 with
      | .event _ => none
      | .call k => some { period := some s.period, uid := e.1, handle := k } := by
  have hstamp : stampOf s = some s.period := if_pos h
  funext ⟨u, e⟩
  cases e with
  | event _ => rfl
  | call k => exact congrArg (some <| Call.mk · u k) hstamp

/-- What an effect issues depends on the handles' commands only (R155). -/
theorem issuedBy_congr {s t : State} (h : s.hostCode = t.hostCode) : issuedBy s = issuedBy t := by
  unfold issuedBy
  rw [h]

/-- Settles O22: a period that runs gives what its two rounds of turns give; every other iteration only passes the batch or stops. -/
theorem periodFrame : Obligations.PeriodFrame := by
  intro s
  obtain ⟨hresults, hhostCode, hcfg, hbitrate, hactive, hhalted, hplaced, hhost⟩ := loopEnd_passesBatch s
  refine ⟨loopEnd s, busPeriod_eq_loopEnd s, hresults, hhostCode, hcfg, hbitrate, hactive, hhalted, hplaced,
    fun later h => hhost.trans (closeBoundary_host_passed s h), fun h => hhost.trans (closeBoundary_host_kept s h),
    fun hrun => ⟨_, _, rfl, rfl, ?running⟩, fun hrun => ?still⟩
  case running =>
    obtain ⟨⟨hlive, -⟩, hfault⟩ : (s.active = true ∧ s.halted = false) ∧ s.fault = none := by simpa [running] using hrun
    have hnext : (nextPeriod s).active = true := (nextPeriod_active s).trans hlive
    have hevents := runPeriod_events_eq (nextPeriod s)
    have hcalls := runPeriod_calls_eq (nextPeriod s)
    have hissued := runPeriod_issued_eq (nextPeriod s)
    have hlast := runPeriod_fault_eq (nextPeriod s) ((nextPeriod_fault s).trans hfault)
    rw [eventOf_of_active hnext, eventOf_of_active hnext] at hevents
    rw [callOf_of_active hnext] at hcalls
    rw [issuedBy_congr (nextPeriod_hostCode s)] at hissued
    simp only [nextPeriod_cfg, nextPeriod_participants, nextPeriod_events, nextPeriod_calls, nextPeriod_issued]
      at hevents hcalls hissued hlast
    rw [loopEnd, if_pos hrun, runPeriod_period]
    exact ⟨hevents, hcalls, hissued, hlast⟩
  case still =>
    rw [loopEnd, if_neg (by simp [hrun])]
    cases s.active <;> simp

end Sys2Proof.Machine
end

section
/-! Proofs of the family `41_frame_queue.md`, Data Frames and the operations on the queue (R57, R84 to R90). -/

namespace Sys2Proof.Machine

/-! ### Frame.new and size() (R84, R85) -/

theorem frameNew_of_invalidId {id : Nat} (h : 2048 ≤ id) (data : List Byte) : frameNew id data = .invalidId :=
  if_neg (by simpa [Config.idBits] using h)

theorem frameNew_of_validId {id : Nat} (h : id < 2048) (data : List Byte) : frameNew id data =
    if h : data.length ≤ 8 then .frame { id := BitVec.ofNat 11 id, data := data, short := h } else .payloadTooLarge :=
  if_pos h

/-- Settles O28: the identifier is checked before the length. -/
theorem frameNewResult : Obligations.FrameNewResult := by
  intro s id data
  refine ⟨fun hid => ?_, fun hid hdata => ?_, fun hid hdata => ?_⟩ <;> simp only [exec, execFrameNew]
  · rw [frameNew_of_invalidId hid]; rfl
  · rw [frameNew_of_validId hid, dif_neg (Nat.not_le.2 hdata)]; rfl
  · rw [frameNew_of_validId hid, dif_pos hdata, BitVec.ofNat_toNat]; rfl

/-- Settles O29: the result is `frameSize`, and a frame's payload has at most 8 bytes. -/
theorem frameSizeResult : Obligations.FrameSizeResult := by
  intro s f
  have := f.short
  exact ⟨rfl, by omega, by omega⟩

/-! ### bit(i) in each part of the frame (R57, R86) -/

theorem frameBit?_identifier (f : Frame) {i : Nat} (h : i < 11) : frameBit? f i = some (.ofBool (f.id.getLsbD (10 - i))) := by
  rw [frameBit?, if_pos (by unfold frameSize; omega), if_pos h]

theorem frameBit?_dlc (f : Frame) {i : Nat} (h : 11 ≤ i) (hlt : i < 15) :
    frameBit? f i = some (.ofBool (f.data.length.testBit (14 - i))) := by
  have hbit : (frameDlc f).getLsbD (14 - i) = f.data.length.testBit (14 - i) := by
    rw [← BitVec.testBit_toNat, frameDlc_toNat]
  rw [frameBit?, if_pos (by unfold frameSize; omega), if_neg (by omega), if_pos hlt, hbit]

theorem frameBit?_data (f : Frame) {k j : Nat} (hk : k < f.data.length) (hj : j < 8) :
    frameBit? f (15 + 8 * k + j) = some (.ofBool (f.data[k].getLsbD (7 - j))) := by
  have hbyte : (15 + 8 * k + j - 15) / 8 = k := by omega
  have hbit : (15 + 8 * k + j - 15) % 8 = j := by omega
  rw [frameBit?, if_pos (by unfold frameSize; omega), if_neg (by omega), if_neg (by omega), hbyte, hbit, frameDataBit,
    List.getD_eq_getElem _ _ hk]

theorem execFrameBit_of_some {f : Frame} {i : Word} {b : Bit} (h : frameBit? f i.toNat = some b) (s : State) :
    exec (.frameBit f i) s = .next (answer (.bit b) s) := by
  simp only [exec, execFrameBit, h]

theorem execFrameBit_of_none {f : Frame} {i : Word} (h : frameBit? f i.toNat = none) (s : State) :
    exec (.frameBit f i) s = .next (raiseFault .bitIndexOutOfRange s) := by
  simp only [exec, execFrameBit, h]

/-- Settles O30: a clause for each part of the frame, and one for the indices after it. -/
theorem frameBitResult : Obligations.FrameBitResult := fun s f _ =>
  ⟨fun h => execFrameBit_of_some (frameBit?_identifier f h) s,
    fun h hlt => execFrameBit_of_some (frameBit?_dlc f h hlt) s,
    fun _ _ hk hj hi => execFrameBit_of_some (hi ▸ frameBit?_data f hk hj) s,
    fun h => execFrameBit_of_none (frameBit?_none h) s⟩

/-! ### toString() (R71, R87) -/

theorem bitChar_ofBool (x : Bool) : bitChar (.ofBool x) = if x then '1' else '0' := by cases x <;> rfl

/-- A stretch of the frame as characters, when its bits are known. -/
theorem frameChars_of_bits {f : Frame} {i n : Nat} {g : Nat → Bool} (h : ∀ j < n, frameBit? f (i + j) = some (.ofBool (g j))) :
    frameChars f i n = (List.range n).map fun j => if g j then '1' else '0' := by
  have hbits : (List.range n).filterMap (fun j => frameBit? f (i + j)) = (List.range n).map fun j => .ofBool (g j) :=
    List.filterMap_eq_map_iff_forall_eq_some.2 fun j hj => h j (List.mem_range.1 hj)
  rw [frameChars, List.filterMap_map]
  refine (congrArg (List.map bitChar) hbits).trans ?_
  simp only [List.map_map, Function.comp_def, bitChar_ofBool]

theorem frameChars_identifier (f : Frame) :
    frameChars f 0 11 = (List.range 11).map fun j => if f.id.getLsbD (10 - j) then '1' else '0' :=
  frameChars_of_bits fun j hj => by rw [Nat.zero_add]; exact frameBit?_identifier f hj

theorem frameChars_dlc (f : Frame) :
    frameChars f 11 4 = (List.range 4).map fun j => if f.data.length.testBit (3 - j) then '1' else '0' :=
  frameChars_of_bits fun j hj => by
    have hbit : 14 - (11 + j) = 3 - j := by omega
    rw [frameBit?_dlc f (by omega) (by omega), hbit]

theorem frameChars_data (f : Frame) {k : Nat} (hk : k < f.data.length) :
    frameChars f (15 + 8 * k) 8 = (List.range 8).map fun j => if f.data[k].getLsbD (7 - j) then '1' else '0' :=
  frameChars_of_bits fun _ hj => frameBit?_data f hk hj

/-- What is said of each byte by its index is said of the byte. -/
theorem flatMap_range_length {α β : Type} {xs : List α} {byIndex : Nat → List β} {byValue : α → List β}
    (h : ∀ (k : Nat) (hk : k < xs.length), byIndex k = byValue xs[k]) : (List.range xs.length).flatMap byIndex = xs.flatMap byValue := by
  have hmap : (List.range xs.length).map byIndex = xs.map byValue :=
    List.ext_getElem (by simp) fun k _ hk => by
      rw [List.getElem_map, List.getElem_range, List.getElem_map]
      exact h k (by simpa using hk)
  rw [List.flatMap_def, List.flatMap_def, hmap]

/-- Settles O31: the three parts of the text are three stretches of the frame's bits. -/
theorem frameStringResult : Obligations.FrameStringResult := by
  intro s f
  refine ⟨frameText f, rfl, ?_⟩
  rw [frameText, frameChars_identifier, frameChars_dlc]
  exact congrArg _ (flatMap_range_length fun k hk => congrArg (' ' :: ·) (frameChars_data f hk))

/-! ### The queue (R88 to R90) -/

theorem onNode_actOf {s : State} {uid : Word} {n : Node} (hn : nodeAt s uid.toNat = some n) (f : Node → Node) :
    onNode uid (fun n => actOf (f n)) s = .next (setNode s uid.toNat (f n)) := by
  simp only [onNode, hn, commit_actOf]

theorem execQueuePopFront_of_nodeAt {s : State} {uid : Word} {n : Node} (hn : nodeAt s uid.toNat = some n) :
    exec (.queuePopFront uid) s = .next (answer (popResult (popFront n).1) (setNode s uid.toNat (popFront n).2)) := by
  simp only [exec, execQueuePopFront, hn]

theorem popFront_of_nil {n : Node} (h : n.queue = []) : popFront n = (none, n) := by simp only [popFront, h]

theorem popFront_of_cons {n : Node} {f : Frame} {rest : List Frame} (h : n.queue = f :: rest) :
    popFront n = (some f, { n with queue := rest }) := by simp only [popFront, h]

/-- Settles O32: each operation on the named node's registers, `popFront` by whether the queue is empty. -/
theorem queueOperations : Obligations.QueueOperations := by
  intro s uid f n hn
  refine ⟨onNode_actOf hn (pushBack f), onNode_actOf hn (pushFront f), fun hqueue => ?_, fun g rest hqueue => ?_⟩ <;>
    rw [execQueuePopFront_of_nodeAt hn]
  · rw [popFront_of_nil hqueue, setNode_self hn]; rfl
  · rw [popFront_of_cons hqueue]; rfl

end Sys2Proof.Machine
end

section
/-! Proofs of the family `41_frame_queue.md`, what a node's step does with its frames: none is dropped and none is copied (R92, R110,
R115, R120). -/

namespace Sys2Proof.Machine

/-! ### The frames an act accounts for (R92) -/

/-- The frames a node has delivered in this step, then the one it sends, then its queue (R92). -/
def accounted (a : Act) : List Frame := delivered a.effects ++ framesOf a.node

theorem accounted_actOf (n : Node) : accounted (actOf n) = framesOf n := rfl

theorem delivered_append (xs ys : List Effect) : delivered (xs ++ ys) = delivered xs ++ delivered ys := List.filterMap_append

theorem accounted_onRegs {f : Node → Node} {a : Act} (h : framesOf (f a.node) = framesOf a.node) :
    accounted (onRegs f a) = accounted a := congrArg (delivered a.effects ++ ·) h

theorem accounted_andThen {a : Act} {f : Act → Act} (h : accounted (f a) = accounted a) : accounted (andThen a f) = accounted a := by
  unfold andThen
  cases a.fault with
  | none => exact h
  | some _ => rfl

/-! ### A frame that moves between `cur` and the queue (R107, R110, R120) -/

theorem framesOf_pushback (n : Node) : framesOf (pushback n) = framesOf n := by
  unfold pushback framesOf
  cases hcur : n.cur with
  | none => simp [hcur]
  | some f => rfl

theorem framesOf_saveError (n : Node) : framesOf (saveError n) = framesOf n := by
  unfold saveError
  cases n.role with
  | transmitter => exact framesOf_pushback _
  | receiver => rfl

/-- A node that holds no frame takes the head of its queue. -/
theorem framesOf_idled {n : Node} (hcur : n.cur = none) : framesOf (idled n) = framesOf n := by
  unfold idled framesOf
  cases hqueue : n.queue with
  | nil => rfl
  | cons f rest => simp [wrote, hcur]

/-- Intermission drops no frame of a node that holds none. -/
theorem framesOf_rested {n : Node} (hcur : n.cur = none) : framesOf (rested n) = framesOf n := by
  simp only [rested, wrote, framesOf, hcur]

/-! ### A bit is sent or received (R94 to R97, R108 to R115) -/

theorem accounted_writeThenRead (b : Bit) (w r : Point) (a : Act) : accounted (writeThenRead b w r a) = accounted a := by
  rw [writeThenRead_eq]; rfl

theorem accounted_txSend (f : Field) (i : Nat) (a : Act) : accounted (txSend f i a) = accounted a := by
  unfold txSend
  split
  · rfl
  · exact accounted_writeThenRead _ _ _ a

theorem accounted_txCheck (f : Field) (i : Nat) (a : Act) : accounted (txCheck f i a) = accounted a := by
  unfold txCheck
  split
  · rfl
  · exact accounted_txSend f i a

theorem accounted_txIter (f : Field) (i : Nat) (a : Act) : accounted (txIter f i a) = accounted a := by
  unfold txIter
  split
  · unfold writeBit
    cases a.node.st with
    | busOff => exact accounted_txCheck f i (onRegs _ a)
    | errorActive => rfl
    | errorPassive => rfl
  · exact accounted_txCheck f i a

theorem accounted_enterEof (a : Act) : accounted (enterEof a) = accounted a := by
  unfold enterEof
  cases a.node.role with
  | transmitter => exact accounted_writeThenRead _ _ _ a
  | receiver => rfl

theorem accounted_dataCheck (j k : Nat) (acc : Byte) (a : Act) : accounted (dataCheck j k acc a) = accounted a := by
  rw [dataCheck_eq]; rfl

theorem accounted_dataByte (j : Nat) (a : Act) : accounted (dataByte j a) = accounted a := by
  unfold dataByte
  split
  · exact accounted_dataCheck j 0 0 a
  · exact accounted_enterEof a

theorem accounted_dataTx (i : Nat) (a : Act) : accounted (dataTx i a) = accounted a := by
  unfold dataTx
  split
  · exact accounted_txIter .data i a
  · exact accounted_enterEof a

theorem accounted_enterData (a : Act) : accounted (enterData a) = accounted a := by
  unfold enterData
  cases a.node.role with
  | transmitter => exact accounted_dataTx 15 a
  | receiver => exact accounted_dataByte 0 a

theorem accounted_dlcRx (k : Nat) (a : Act) : accounted (dlcRx k a) = accounted a := by
  unfold dlcRx
  split
  · rw [dlcCheck_eq]; rfl
  · exact accounted_enterData a

theorem accounted_dlcTx (i : Nat) (a : Act) : accounted (dlcTx i a) = accounted a := by
  unfold dlcTx
  split
  · exact accounted_txIter .dlc i a
  · exact accounted_enterData a

theorem accounted_enterDlc (a : Act) : accounted (enterDlc a) = accounted a := by
  unfold enterDlc
  cases a.node.role with
  | transmitter => exact accounted_dlcTx 11 a
  | receiver => exact accounted_dlcRx 0 a

theorem accounted_arbIter (i : Nat) (a : Act) : accounted (arbIter i a) = accounted a := by
  unfold arbIter
  split
  · cases a.node.role with
    | transmitter => exact accounted_txIter .identifier i a
    | receiver => dsimp only; rw [arbCheck_eq]; rfl
  · exact accounted_enterDlc a

/-! ### Errors (R118, R121) -/

theorem accounted_detect (kind : ErrorKind) (a : Act) : accounted (detect kind a) = accounted a := by
  have henter : ∀ a, accounted (enterError a) = accounted a := fun a => by
    rw [enterError_eq]
    split <;> rfl
  exact (henter _).trans (accounted_onRegs (framesOf_saveError a.node))

/-- A lost arbitration leaves the frame at the head of the queue (R110). -/
theorem accounted_arbitrationLost (r : Bit) (a : Act) :
    accounted (onRegs (fun n => arbitrationLost (shiftId r n)) a) = accounted a :=
  accounted_onRegs (framesOf_pushback _)

theorem accounted_afterTxStuff (f : Field) (i : Nat) (prev b : Bit) (a : Act) :
    accounted (afterTxStuff f i prev b a) = accounted a := by
  unfold afterTxStuff
  split
  · exact accounted_detect _ a
  · exact accounted_txSend f i a

theorem accounted_afterRxStuff (next : Point) (prev b : Bit) (a : Act) : accounted (afterRxStuff next prev b a) = accounted a := by
  unfold afterRxStuff
  split
  · exact accounted_detect _ a
  · rfl

theorem accounted_afterTxBit (f : Field) (i : Nat) (sent b : Bit) (a : Act) : accounted (afterTxBit f i sent b a) = accounted a := by
  unfold afterTxBit
  cases f <;> dsimp only <;> split
  case identifier.isTrue => exact accounted_arbIter (i + 1) (onRegs (shiftId b) a)
  case identifier.isFalse => exact (accounted_arbIter (i + 1) _).trans (accounted_arbitrationLost b a)
  case dlc.isTrue => exact accounted_dlcTx (i + 1) a
  case data.isTrue => exact accounted_dataTx (i + 1) a
  all_goals exact accounted_detect _ a

/-! ### Fault confinement handles no frame (R127 to R138) -/

/-- An act that went on from another without taking, queueing or delivering a frame. -/
structure LeavesFrames (a b : Act) : Prop where
  cur : b.node.cur = a.node.cur
  queue : b.node.queue = a.node.queue
  delivered : delivered b.effects = delivered a.effects

theorem LeavesFrames.refl (a : Act) : LeavesFrames a a := ⟨rfl, rfl, rfl⟩

theorem LeavesFrames.accounted {a b : Act} (h : LeavesFrames a b) : accounted b = accounted a := by
  simp only [Machine.accounted, framesOf, h.cur, h.queue, h.delivered]

theorem delivered_calls (handles : List (BitVec 16)) : delivered (handles.map .call) = [] := by
  rw [delivered, List.filterMap_map]
  exact List.filterMap_eq_nil_iff.2 fun _ _ => rfl

/-- `updateState()` after a change of the counters gives transitions and callbacks only. -/
theorem updateState_onRegs_leavesFrames {f : Node → Node} {a : Act} (hcur : (f a.node).cur = a.node.cur)
    (hqueue : (f a.node).queue = a.node.queue) : LeavesFrames a (updateState (onRegs f a)) := by
  rw [updateState_eq]
  refine ⟨hcur, hqueue, ?_⟩
  dsimp only
  rw [delivered_append]
  refine List.append_right_eq_self.2 ?_
  split
  · rfl
  · split
    · exact delivered_calls _
    · rfl

theorem addTec_leavesFrames (cfg : Config.Params) (k : Nat) (a : Act) : LeavesFrames a (addTec cfg k a) := by
  unfold addTec
  split
  · exact updateState_onRegs_leavesFrames rfl rfl
  · exact ⟨rfl, rfl, rfl⟩

theorem addRec_leavesFrames (cfg : Config.Params) (k : Nat) (a : Act) : LeavesFrames a (addRec cfg k a) := by
  unfold addRec
  split
  · exact updateState_onRegs_leavesFrames rfl rfl
  · exact ⟨rfl, rfl, rfl⟩

theorem rule45_leavesFrames (cfg : Config.Params) (a : Act) : LeavesFrames a (rule45 cfg a) := by
  unfold rule45
  cases a.node.role with
  | transmitter => exact addTec_leavesFrames cfg 8 a
  | receiver => exact addRec_leavesFrames cfg 8 a

theorem rule7_leavesFrames (a : Act) : LeavesFrames a (rule7 a) := by
  unfold rule7
  split
  · exact updateState_onRegs_leavesFrames rfl rfl
  · exact .refl a

theorem rule8_leavesFrames (cfg : Config.Params) (a : Act) : LeavesFrames a (rule8 cfg a) := by
  unfold rule8
  split
  · exact updateState_onRegs_leavesFrames rfl rfl
  · exact .refl a

theorem applyErrorUpdate_leavesFrames (cfg : Config.Params) (a : Act) : LeavesFrames a (applyErrorUpdate cfg a) := by
  unfold applyErrorUpdate
  cases a.node.errorUpdate with
  | none => exact .refl a
  | tecPlus8 => exact addTec_leavesFrames cfg 8 a
  | recPlus1 => exact addRec_leavesFrames cfg 1 a

/-! ### A frame ends (R115, R122) -/

/-- A delivered frame is no longer held. -/
theorem accounted_deliver (a : Act) : accounted (deliver a) = accounted a := by
  unfold deliver
  cases hcur : a.node.cur with
  | none => rfl
  | some f =>
    show delivered (a.effects ++ [.event (.txDone f)]) ++ a.node.queue = _
    rw [delivered_append, List.append_assoc]
    simp only [accounted, framesOf, hcur]
    rfl

theorem cur_deliver (a : Act) : (deliver a).node.cur = none := by
  unfold deliver
  cases hcur : a.node.cur with
  | none => exact hcur
  | some f => rfl

theorem accounted_rxFrame (id : BitVec 11) (dlc : BitVec 4) (data : List Byte) (a : Act) :
    accounted (emit (.rxFrame id dlc data) a) = accounted a := by
  show delivered (a.effects ++ [.event (.rxFrame id dlc data)]) ++ _ = _
  rw [delivered_append]
  exact congrArg (· ++ framesOf a.node) (List.append_nil _)

section NoFrame

variable {a : Act} (hcur : a.node.cur = none)
include hcur

theorem accounted_enterIntermission : accounted (enterIntermission a) = accounted a := by
  rw [enterIntermission_eq]
  exact congrArg (delivered a.effects ++ ·) (framesOf_rested hcur)

theorem accounted_enterBusIdle : accounted (enterBusIdle a) = accounted a := by
  rw [enterBusIdle_eq]
  exact congrArg (delivered a.effects ++ ·) (framesOf_idled hcur)

theorem accounted_endIntermission : accounted (endIntermission a) = accounted a := by
  unfold endIntermission
  split
  · exact accounted_writeThenRead _ _ _ a
  · exact accounted_enterBusIdle hcur

theorem accounted_endFrame : accounted (endFrame a) = accounted a :=
  accounted_enterIntermission (a := onRegs (fun n => { n with prevRole := n.role }) a) hcur

theorem accounted_leaveError (cfg : Config.Params) : accounted (leaveError cfg enterIntermission a) = accounted a := by
  have hleaves := applyErrorUpdate_leavesFrames cfg a
  refine (accounted_andThen ?_).trans hleaves.accounted
  exact accounted_enterIntermission (a := onRegs closeError _) (hleaves.cur.trans hcur)

end NoFrame

theorem accounted_receive (a : Act) : accounted (receive a) = accounted a := by rw [receive_eq]; rfl

/-! ### From a blocking point on (R76) -/

theorem cur_of_betweenFrames {n : Node} (h : betweenFrames n = true) : n.cur = none := by
  simp only [betweenFrames, Bool.and_eq_true, Option.isNone_iff_eq_none] at h
  obtain ⟨hcur, -⟩ := h
  exact hcur

theorem cur_of_receiving {n : Node} (h : receiving n = true) : n.cur = none := by
  simp only [receiving, Bool.and_eq_true, Option.isNone_iff_eq_none] at h
  obtain ⟨⟨-, hcur⟩, -⟩ := h
  exact hcur

theorem cur_of_inError {n : Node} (h : inError n = true) : n.cur = none := by
  simp only [inError, Bool.and_eq_true, Option.isNone_iff_eq_none] at h
  obtain ⟨hcur, -⟩ := h
  exact hcur

theorem accounted_afterIntermission {a : Act} (hcur : a.node.cur = none) (k : Nat) (b : Bit) :
    accounted (afterIntermission k b a) = accounted a := by
  cases b with
  | dominant => exact accounted_writeThenRead _ _ _ a
  | recessive =>
    unfold afterIntermission
    dsimp only
    split
    · exact accounted_writeThenRead _ _ _ a
    · exact accounted_endIntermission hcur

theorem accounted_afterSuspend {a : Act} (hcur : a.node.cur = none) (k : Nat) (b : Bit) :
    accounted (afterSuspend k b a) = accounted a := by
  cases b with
  | dominant => exact accounted_receive a
  | recessive =>
    unfold afterSuspend
    dsimp only
    split
    · exact accounted_writeThenRead _ _ _ a
    · exact accounted_enterBusIdle hcur

theorem accounted_afterIdle {a : Act} (hcur : a.node.cur = none) (b : Bit) : accounted (afterIdle b a) = accounted a := by
  cases b with
  | dominant => exact accounted_receive a
  | recessive => exact accounted_enterBusIdle hcur

theorem accounted_afterDataBit (j k : Nat) (acc : Byte) (b : Bit) (a : Act) :
    accounted (afterDataBit j k acc b a) = accounted a := by
  unfold afterDataBit
  split
  · exact accounted_dataCheck _ _ _ a
  · exact accounted_dataByte (j + 1) (onRegs _ a)

/-- A Transmitter delivers its frame before fault confinement and Intermission go on. -/
theorem accounted_afterEofTx (k : Nat) (b : Bit) (a : Act) : accounted (afterEofTx k b a) = accounted a := by
  cases b with
  | dominant => exact accounted_detect .bit a
  | recessive =>
    unfold afterEofTx
    dsimp only
    split
    · exact accounted_writeThenRead _ _ _ a
    · have hleaves := rule7_leavesFrames (deliver a)
      exact (accounted_endFrame (hleaves.cur.trans (cur_deliver a))).trans (hleaves.accounted.trans (accounted_deliver a))

theorem accounted_afterEofRx {a : Act} (hcur : a.node.cur = none) (cfg : Config.Params) (k : Nat) (b : Bit) :
    accounted (afterEofRx cfg k b a) = accounted a := by
  cases b with
  | dominant => exact accounted_detect .form a
  | recessive =>
    unfold afterEofRx
    dsimp only
    split
    · rfl
    · have hleaves := rule8_leavesFrames cfg (emit (.rxFrame a.node.rxId a.node.rxDlc a.node.rxData) a)
      exact (accounted_endFrame (hleaves.cur.trans hcur)).trans (hleaves.accounted.trans (accounted_rxFrame _ _ _ a))

theorem accounted_nextActive (k : Nat) (a : Act) : accounted (nextActive k a) = accounted a := by
  unfold nextActive
  split <;> exact accounted_writeThenRead _ _ _ a

theorem accounted_afterActive (cfg : Config.Params) (k : Nat) (b : Bit) (a : Act) :
    accounted (afterActive cfg k b a) = accounted a := by
  cases b with
  | dominant => exact accounted_nextActive k a
  | recessive => exact (accounted_andThen (accounted_nextActive k _)).trans (rule45_leavesFrames cfg a).accounted

theorem accounted_afterPassive (cfg : Config.Params) (k : Nat) (first : Bool) (b : Bit) (a : Act) :
    accounted (afterPassive cfg k first b a) = accounted a := by
  cases b with
  | dominant =>
    unfold afterPassive
    dsimp only
    split
    · exact (accounted_andThen (accounted_writeThenRead _ _ _ _)).trans (addRec_leavesFrames cfg 8 a).accounted
    · exact accounted_writeThenRead _ _ _ a
  | recessive =>
    unfold afterPassive
    dsimp only
    split <;> exact accounted_writeThenRead _ _ _ a

theorem accounted_afterWait (b : Bit) (a : Act) : accounted (afterWait b a) = accounted a := by
  cases b <;> exact accounted_writeThenRead _ _ _ a

theorem accounted_afterDelimiter {a : Act} (hcur : a.node.cur = none) (cfg : Config.Params) (k : Nat) :
    accounted (afterDelimiter cfg k a) = accounted a := by
  unfold afterDelimiter
  split
  · exact accounted_writeThenRead _ _ _ a
  · exact accounted_leaveError hcur cfg

/-- From a read point that fits the node's registers: the points a frame is taken at, or `cur` is cleared after, hold none. -/
theorem accounted_fromRead (cfg : Config.Params) (prev b : Bit) {a : Act} {p : Point} (hok : pointOk a.node p = true) :
    accounted (fromRead cfg p prev b a) = accounted a := by
  cases p <;> dsimp only [fromRead] <;> simp only [pointOk, Bool.and_eq_true] at hok
  case intR k => exact accounted_afterIntermission (cur_of_betweenFrames hok.1) k b
  case susR k => exact accounted_afterSuspend (cur_of_betweenFrames hok.1) k b
  case idleR => exact accounted_afterIdle (cur_of_betweenFrames hok) b
  case idleSofR => exact accounted_arbIter 0 a
  case txSR f i => exact accounted_afterTxStuff f i prev b a
  case txR f i sent => exact accounted_afterTxBit f i sent b a
  case arbRxSR i | dlcRxSR i | dataRxSR j i acc => exact accounted_afterRxStuff _ prev b a
  case arbRxR i => exact accounted_arbIter (i + 1) (onRegs (shiftId b) a)
  case dlcRxR k => exact accounted_dlcRx (k + 1) (onRegs (shiftDlc b) a)
  case dataRxR j k acc => exact accounted_afterDataBit j k acc b a
  case eofTxR k => exact accounted_afterEofTx k b a
  case eofRxR k => exact accounted_afterEofRx (cur_of_receiving hok.1.1) cfg k b
  case errAfR k => exact accounted_afterActive cfg k b a
  case errPfR k first => exact accounted_afterPassive cfg k first b a
  case errD1R => exact accounted_afterWait b a
  case errD2R k => exact accounted_afterDelimiter (cur_of_inError hok.1) cfg k

theorem accounted_fromWrite (p : Point) (a : Act) : accounted (fromWrite p a) = accounted a := by
  cases p
  case txSW f i b => exact accounted_txIter f i a
  all_goals rfl

/-! ### A whole step (R92) -/

/-- Reading a bit does not move the node. -/
theorem pointOk_trackRead (b : Bit) (n : Node) (p : Point) : pointOk (trackRead b n) p = pointOk n p := by cases p <;> rfl

theorem accounted_readStep (cfg : Config.Params) {n : Node} (hok : nodeOk true n = true) (b : Bit) :
    accounted (readStep cfg n b) = framesOf n := by
  unfold readStep
  cases hpos : n.pos with
  | none => exact accounted_actOf n
  | some p =>
    simp only [nodeOk, hpos, Bool.true_and, Bool.and_eq_true] at hok
    exact accounted_fromRead cfg n.readTrk.last b (a := actOf (trackRead b n)) ((pointOk_trackRead b n p).trans hok.1)

theorem accounted_writeStep (n : Node) : accounted (writeStep n) = framesOf n := by
  unfold writeStep
  cases n.pos with
  | none => exact accounted_actOf n
  | some p => exact accounted_fromWrite p (actOf n)

/-- Settles O33: the read needs that the node is in order, the write does not. -/
theorem framesConserved : Obligations.FramesConserved :=
  fun cfg n b hok => ⟨accounted_readStep cfg hok b, accounted_writeStep n⟩

end Sys2Proof.Machine
end

section
/-! Proofs of the family `42_bit_stuffing.md`, a Receiver reads a stuffed frame: the stuff bits are dropped and the frame is reported
(R97, R101, R111, R113 to R115). -/

namespace Sys2Proof.Machine

/-! ### A bit shifted in (R109, R111, R113, R114) -/

theorem Bit.toBool_ofBool (x : Bool) : (Bit.ofBool x).toBool = x := by cases x <;> rfl

/-- The high bits of a word, with its next bit shifted in, are one more of its high bits. -/
theorem ushiftRight_append_getLsbD {w : Nat} (v : BitVec w) (m : Nat) :
    (v >>> (m + 1) ++ BitVec.ofBool (v.getLsbD m)).setWidth w = v >>> m := by
  refine BitVec.eq_of_getLsbD_eq fun k hk => ?_
  rw [BitVec.getLsbD_setWidth, BitVec.getLsbD_append, BitVec.getLsbD_ushiftRight, BitVec.getLsbD_ushiftRight]
  cases k with
  | zero => simp [hk]
  | succ k =>
    have hidx : m + 1 + k = m + (k + 1) := by omega
    simp [hk, hidx]

/-! ### Where a Receiver waits for a frame bit (R111, R113, R114, R123) -/

/-- The read points of a Receiver of `f` for frame bit `i`: of the stuff bit before it, and of the bit itself. In the data the bits of
the byte read so far are among the locals. -/
def rxPoints (f : Frame) (i : Nat) : Point × Point :=
  if i < 11 then (.arbRxSR i, .arbRxR i)
  else if i < 15 then (.dlcRxSR (i - 11), .dlcRxR (i - 11))
  else
    let acc := f.data.getD ((i - 15) / 8) 0 >>> (8 - (i - 15) % 8)
    (.dataRxSR ((i - 15) / 8) ((i - 15) % 8) acc, .dataRxR ((i - 15) / 8) ((i - 15) % 8) acc)

theorem rxPoints_identifier (f : Frame) {i : Nat} (h : i < 11) : rxPoints f i = (.arbRxSR i, .arbRxR i) := if_pos h

theorem rxPoints_dlc (f : Frame) {k : Nat} (h : k < 4) : rxPoints f (11 + k) = (.dlcRxSR k, .dlcRxR k) := by
  rw [rxPoints, if_neg (by omega), if_pos (by omega), Nat.add_sub_cancel_left]

theorem rxPoints_data {f : Frame} {j k : Nat} (hj : j < f.data.length) (hk : k < 8) :
    rxPoints f (15 + 8 * j + k) = (.dataRxSR j k (f.data[j] >>> (8 - k)), .dataRxR j k (f.data[j] >>> (8 - k))) := by
  have hbyte : (15 + 8 * j + k - 15) / 8 = j := by omega
  have hbit : (15 + 8 * j + k - 15) % 8 = k := by omega
  rw [rxPoints, if_neg (by omega), if_neg (by omega), hbyte, hbit, List.getD_eq_getElem _ _ hj]

/-- The node that waits for frame bit `i` of `f`, with the stuff bit before it if one is due; after the last bit, for EOF. -/
def awaiting (f : Frame) (i : Nat) (n : Node) : Node :=
  if i < frameSize f then checked (rxPoints f i).1 (rxPoints f i).2 n else blocked (.eofRxR 0) n

/-! ### What a Receiver has recorded (R111, R113, R114) -/

/-- A Receiver that has read `i` bits of `f`: the `rx` registers hold as much of the frame. -/
structure Received (f : Frame) (i : Nat) (n : Node) : Prop where
  role : n.role = .receiver
  rxId : n.rxId = f.id >>> (11 - i)
  rxDlc : n.rxDlc = frameDlc f >>> (15 - i)
  rxData : n.rxData = f.data.take ((i - 15) / 8)

variable {f : Frame} {n : Node} {i j k : Nat} {x : Bit}

/-- After the DLC bits the Receiver knows the number of the bytes to come (R113). -/
theorem Received.rxDlc_toNat (h : Received f i n) (hi : 15 ≤ i) : n.rxDlc.toNat = f.data.length := by
  rw [h.rxDlc, Nat.sub_eq_zero_of_le hi, BitVec.ushiftRight_zero, frameDlc_toNat]

/-- An identifier bit is shifted into `rxId` (R111). -/
theorem Received.shiftId (h : Received f i n) (hi : i < 11) : Received f (i + 1) (shiftId (.ofBool (f.id.getLsbD (10 - i))) n) where
  role := h.role
  rxId := by
    have hshift : 11 - i = 10 - i + 1 := by omega
    have hnext : 11 - (i + 1) = 10 - i := by omega
    rw [Machine.shiftId, Bit.toBool_ofBool, h.rxId, hshift, hnext]
    exact ushiftRight_append_getLsbD f.id (10 - i)
  rxDlc := by
    refine h.rxDlc.trans ?_
    rw [BitVec.ushiftRight_eq_zero (by omega), BitVec.ushiftRight_eq_zero (by omega)]
  rxData := by
    have hnext : (i + 1 - 15) / 8 = (i - 15) / 8 := by omega
    rw [hnext]
    exact h.rxData

/-- A DLC bit is shifted into `rxDlc` (R113). -/
theorem Received.shiftDlc (h : Received f (11 + k) n) (hk : k < 4) :
    Received f (11 + k + 1) (shiftDlc (.ofBool ((frameDlc f).getLsbD (3 - k))) n) where
  role := h.role
  rxId := h.rxId.trans (congrArg (f.id >>> ·) (by omega))
  rxDlc := by
    have hshift : 15 - (11 + k) = 3 - k + 1 := by omega
    have hnext : 15 - (11 + k + 1) = 3 - k := by omega
    rw [Machine.shiftDlc, Bit.toBool_ofBool, h.rxDlc, hshift, hnext]
    exact ushiftRight_append_getLsbD (frameDlc f) (3 - k)
  rxData := h.rxData.trans (congrArg f.data.take (by omega))

/-- A data bit that is not the last of its byte goes into no register (R114). -/
theorem Received.withinByte (h : Received f (15 + 8 * j + k) n) (hk : k + 1 < 8) : Received f (15 + 8 * j + k + 1) n where
  role := h.role
  rxId := h.rxId.trans (congrArg (f.id >>> ·) (by omega))
  rxDlc := h.rxDlc.trans (congrArg (frameDlc f >>> ·) (by omega))
  rxData := h.rxData.trans (congrArg f.data.take (by omega))

/-- With its last bit a byte goes into `rxData` (R114). -/
theorem Received.byte (h : Received f (15 + 8 * j + 7) n) (hj : j < f.data.length) :
    Received f (15 + 8 * (j + 1)) { n with rxData := n.rxData ++ [f.data[j]] } where
  role := h.role
  rxId := h.rxId.trans (congrArg (f.id >>> ·) (by omega))
  rxDlc := h.rxDlc.trans (congrArg (frameDlc f >>> ·) (by omega))
  rxData := by
    have hbytes : (15 + 8 * j + 7 - 15) / 8 = j := by omega
    have hnext : (15 + 8 * (j + 1) - 15) / 8 = j + 1 := by omega
    rw [h.rxData, hbytes, hnext, List.take_append_getElem hj]

theorem Received.of_trackRead (h : Received f i n) (b : Bit) (p : Point) : Received f i (trackRead b (blocked p n)) :=
  ⟨h.role, h.rxId, h.rxDlc, h.rxData⟩

/-- What a Receiver reports of its frame (R115). -/
def reportOf (n : Node) : EventKind := .rxFrame n.rxId n.rxDlc n.rxData

/-- A Receiver that has read every bit of the frame reports the frame. -/
theorem Received.report (h : Received f i n) (hi : frameSize f ≤ i) : reportOf n = .rxFrame f.id (frameDlc f) f.data := by
  unfold frameSize at hi
  rw [reportOf, h.rxId, h.rxDlc, h.rxData, Nat.sub_eq_zero_of_le (by omega), Nat.sub_eq_zero_of_le (by omega),
    List.take_of_length_le (by omega), BitVec.ushiftRight_zero, BitVec.ushiftRight_zero]

/-! ### The loop over the bits of a frame, through its three parts (R111, R113, R114) -/

theorem dataCheck_eq_awaiting (hj : j < f.data.length) (hk : k < 8) :
    dataCheck j k (f.data[j] >>> (8 - k)) (actOf n) = actOf (awaiting f (15 + 8 * j + k) n) := by
  rw [dataCheck_eq, awaiting, if_pos (by unfold frameSize; omega), rxPoints_data hj hk]
  rfl

theorem dataByte_eq_awaiting (h : Received f (15 + 8 * j) n) (hj : j ≤ f.data.length) :
    dataByte j (actOf n) = actOf (awaiting f (15 + 8 * j) n) := by
  have hdlc : (actOf n).node.rxDlc.toNat = f.data.length := h.rxDlc_toNat (by omega)
  rw [dataByte, hdlc]
  split
  · rename_i hlt
    have hnone : f.data[j] >>> (8 - 0) = 0 := BitVec.ushiftRight_eq_zero (Nat.le_refl 8)
    rw [← hnone]
    exact dataCheck_eq_awaiting hlt (by decide)
  · have hrole : (actOf n).node.role = .receiver := h.role
    rw [awaiting, if_neg (by unfold frameSize; omega)]
    simp only [enterEof, hrole]
    rfl

theorem dlcRx_eq_awaiting (h : Received f (11 + k) n) (hk : k ≤ 4) : dlcRx k (actOf n) = actOf (awaiting f (11 + k) n) := by
  unfold dlcRx
  split
  · rename_i hlt
    rw [dlcCheck_eq, awaiting, if_pos (by simp only [Config.dlcBits] at hlt; unfold frameSize; omega), rxPoints_dlc f hlt]
    rfl
  · rename_i hge
    obtain rfl : k = 4 := Nat.le_antisymm hk (Nat.not_lt.1 hge)
    have hrole : (actOf n).node.role = .receiver := h.role
    simp only [enterData, hrole]
    exact dataByte_eq_awaiting (j := 0) h (Nat.zero_le _)

theorem arbIter_eq_awaiting (h : Received f i n) (hi : i ≤ 11) : arbIter i (actOf n) = actOf (awaiting f i n) := by
  have hrole : (actOf n).node.role = .receiver := h.role
  unfold arbIter
  split
  · rename_i hlt
    simp only [hrole]
    rw [arbCheck_eq, awaiting, if_pos (by unfold frameSize; omega), rxPoints_identifier f hlt]
    rfl
  · rename_i hge
    obtain rfl : i = 11 := Nat.le_antisymm hi (Nat.not_lt.1 hge)
    rw [enterDlc_of_receiver hrole]
    exact dlcRx_eq_awaiting (k := 0) h (Nat.zero_le 4)

/-! ### A frame bit and a stuff bit are read (R95, R97, R101) -/

/-- A Receiver with the read tracker of `n` has recorded frame bit `i`, and its step ends with the wait for the next. -/
def TookBit (f : Frame) (i : Nat) (n : Node) (a : Act) : Prop :=
  ∃ m, Received f (i + 1) m ∧ m.readTrk = n.readTrk ∧ a = actOf (awaiting f (i + 1) m)

theorem afterIdBit_tookBit (h : Received f i n) (hi : i < 11) :
    TookBit f i n (afterIdBit i (.ofBool (f.id.getLsbD (10 - i))) (actOf n)) :=
  ⟨_, h.shiftId hi, rfl, arbIter_eq_awaiting (h.shiftId hi) hi⟩

theorem afterDlcBit_tookBit (h : Received f (11 + k) n) (hk : k < 4) :
    TookBit f (11 + k) n (afterDlcBit k (.ofBool ((frameDlc f).getLsbD (3 - k))) (actOf n)) :=
  ⟨_, h.shiftDlc hk, rfl, dlcRx_eq_awaiting (k := k + 1) (h.shiftDlc hk) hk⟩

/-- The high bits of a byte, with its next bit shifted in (R114). -/
theorem shiftByte_getLsbD (v : Byte) (hk : k < 8) : shiftByte (v >>> (8 - k)) (.ofBool (v.getLsbD (7 - k))) = v >>> (7 - k) := by
  have hshift : 8 - k = 7 - k + 1 := by omega
  rw [shiftByte, Bit.toBool_ofBool, hshift]
  exact ushiftRight_append_getLsbD v (7 - k)

theorem afterDataBit_tookBit (h : Received f (15 + 8 * j + k) n) (hj : j < f.data.length) (hk : k < 8) :
    TookBit f (15 + 8 * j + k) n (afterDataBit j k (f.data[j] >>> (8 - k)) (.ofBool (f.data[j].getLsbD (7 - k))) (actOf n)) := by
  rw [afterDataBit, shiftByte_getLsbD f.data[j] hk]
  split
  · rename_i hlt
    have hshift : 7 - k = 8 - (k + 1) := by omega
    rw [hshift]
    exact ⟨n, h.withinByte hlt, rfl, dataCheck_eq_awaiting hj hlt⟩
  · obtain rfl : k = 7 := by omega
    rw [Nat.sub_self, BitVec.ushiftRight_zero]
    exact ⟨_, h.byte hj, rfl, dataByte_eq_awaiting (h.byte hj) hj⟩

/-- The DLC bits as bits of the register (R57). -/
theorem frameBit?_frameDlc (f : Frame) (hk : k < 4) : frameBit? f (11 + k) = some (.ofBool ((frameDlc f).getLsbD (3 - k))) := by
  have hidx : 14 - (11 + k) = 3 - k := by omega
  rw [frameBit?_dlc f (by omega) (by omega), hidx, ← BitVec.testBit_toNat, frameDlc_toNat]

theorem lt_frameSize_of_bit (hbit : frameBit? f i = some x) : i < frameSize f := by
  by_contra hge
  rw [frameBit?_none (Nat.not_lt.1 hge)] at hbit
  cases hbit

/-- A Receiver that has read frame bit `i` records it and waits for the next, in each part of the frame. -/
theorem fromRead_rxPoint (cfg : Config.Params) (prev : Bit) (h : Received f i n) (hbit : frameBit? f i = some x) :
    TookBit f i n (fromRead cfg (rxPoints f i).2 prev x (actOf n)) := by
  have hsize := lt_frameSize_of_bit hbit
  by_cases hid : i < 11
  · obtain rfl := Option.some.inj ((frameBit?_identifier f hid).symm.trans hbit)
    rw [rxPoints_identifier f hid]
    exact afterIdBit_tookBit h hid
  by_cases hdlc : i < 15
  · obtain ⟨k, hk, rfl⟩ : ∃ k < 4, i = 11 + k := ⟨i - 11, by omega, by omega⟩
    obtain rfl := Option.some.inj ((frameBit?_frameDlc f hk).symm.trans hbit)
    rw [rxPoints_dlc f hk]
    exact afterDlcBit_tookBit h hk
  · obtain ⟨j, k, hk, rfl⟩ : ∃ j k, k < 8 ∧ i = 15 + 8 * j + k := ⟨(i - 15) / 8, (i - 15) % 8, by omega, by omega⟩
    have hj : j < f.data.length := by unfold frameSize at hsize; omega
    obtain rfl := Option.some.inj ((frameBit?_data f hj hk).symm.trans hbit)
    rw [rxPoints_data hj hk]
    exact afterDataBit_tookBit h hj hk

/-- After the stuff read a Receiver goes to the read of the frame bit it guards (R97). -/
theorem fromRead_rxStuffPoint (cfg : Config.Params) (f : Frame) (i : Nat) (prev b : Bit) (a : Act) :
    fromRead cfg (rxPoints f i).1 prev b a = afterRxStuff (rxPoints f i).2 prev b a := by
  unfold rxPoints
  split
  · rfl
  · split <;> rfl

theorem awaiting_of_undue (hdue : n.readTrk.count ≠ 5) (hi : i < frameSize f) : awaiting f i n = blocked (rxPoints f i).2 n := by
  rw [awaiting, if_pos hi, checked, if_neg hdue]
  rfl

theorem awaiting_of_due (hdue : n.readTrk.count = 5) (hi : i < frameSize f) : awaiting f i n = blocked (rxPoints f i).1 n := by
  rw [awaiting, if_pos hi, checked, if_pos hdue]
  rfl

/-- With no stuff bit due, a Receiver reads the frame bit. -/
theorem readStep_frameBit (cfg : Config.Params) (h : Received f i n) (hdue : n.readTrk.count ≠ 5)
    (hbit : frameBit? f i = some x) :
    ∃ m, Received f (i + 1) m ∧ m.readTrk = track n.readTrk x ∧ readStep cfg (awaiting f i n) x = actOf (awaiting f (i + 1) m) := by
  rw [awaiting_of_undue hdue (lt_frameSize_of_bit hbit)]
  exact fromRead_rxPoint cfg n.readTrk.last (h.of_trackRead x _) hbit

/-- With a stuff bit due, a Receiver reads it and drops it. -/
theorem readStep_stuffBit (cfg : Config.Params) (h : Received f i n) (hdue : n.readTrk.count = 5) (hi : i < frameSize f) :
    ∃ m, Received f i m ∧ m.readTrk = { last := n.readTrk.last.flip, count := 1 }
      ∧ readStep cfg (awaiting f i n) n.readTrk.last.flip = actOf (awaiting f i m) := by
  have htrk : (trackRead n.readTrk.last.flip (blocked (rxPoints f i).1 n)).readTrk = { last := n.readTrk.last.flip, count := 1 } :=
    track_flip n.readTrk
  have hundue : (trackRead n.readTrk.last.flip (blocked (rxPoints f i).1 n)).readTrk.count ≠ 5 := by
    rw [htrk]; exact (by decide : (1 : Nat) ≠ 5)
  have hflip : n.readTrk.last.flip ≠ n.readTrk.last := fun e => Bit.ne_flip _ e.symm
  refine ⟨_, h.of_trackRead _ (rxPoints f i).1, htrk, ?_⟩
  rw [awaiting_of_due hdue hi, awaiting_of_undue hundue hi]
  exact (fromRead_rxStuffPoint ..).trans (if_neg hflip)

/-! ### The whole frame (R115) -/

/-- A read that gives nothing goes on with the rest of the bits. -/
theorem readAll_cons_of_actOf {cfg : Config.Params} {m : Node} {b : Bit} (h : readStep cfg n b = actOf m) (rest : List Bit) :
    readAll cfg n (b :: rest) = readAll cfg m rest := by
  simp only [readAll, h]
  rfl

/-- A Receiver reads the bits without giving anything, and is then at the first bit of EOF with the registers of `f`. -/
def ReadsFrame (cfg : Config.Params) (f : Frame) (n : Node) (bits : List Bit) : Prop :=
  ∃ m, reportOf m = .rxFrame f.id (frameDlc f) f.data
    ∧ ∀ rest, readAll cfg n (bits ++ rest) = readAll cfg (blocked (.eofRxR 0) m) rest

theorem ReadsFrame.cons {cfg : Config.Params} {m : Node} {b : Bit} {bits : List Bit} (hstep : readStep cfg n b = actOf m)
    (h : ReadsFrame cfg f m bits) : ReadsFrame cfg f n (b :: bits) := by
  obtain ⟨l, hl, hrest⟩ := h
  exact ⟨l, hl, fun rest => (readAll_cons_of_actOf hstep (bits ++ rest)).trans (hrest rest)⟩

/-- From frame bit `i` on, a Receiver reads the stuffed rest of the frame: its read tracker is the encoder's last bit and run. -/
theorem readsFrame_stuffLoop (cfg : Config.Params) {bits : List Bit} (hbits : (frameBits f).drop i = bits) (h : Received f i n) :
    ReadsFrame cfg f (awaiting f i n) (stuffLoop (some n.readTrk.last) n.readTrk.count bits) := by
  induction bits generalizing i n with
  | nil =>
    have hend : frameSize f ≤ i := by rw [← frameBits_length]; exact List.drop_eq_nil_iff.1 hbits
    rw [awaiting, if_neg (Nat.not_lt.2 hend)]
    exact ⟨n, h.report hend, fun _ => rfl⟩
  | cons x xs ih =>
    have hbit : frameBit? f i = some x := by rw [← frameBits_getElem?, ← List.head?_drop, hbits]; rfl
    have hxs : (frameBits f).drop (i + 1) = xs := by rw [← List.tail_drop, hbits]; rfl
    have hundue : ∀ {n}, Received f i n → n.readTrk.count ≠ 5 →
        ReadsFrame cfg f (awaiting f i n) (stuffLoop (some n.readTrk.last) n.readTrk.count (x :: xs)) := by
      intro n h hdue
      obtain ⟨m, hm, htrk, hstep⟩ := readStep_frameBit cfg h hdue hbit
      have hrest := ih hxs hm
      rw [htrk, track_eq] at hrest
      rw [stuffLoop_undue hdue]
      exact hrest.cons hstep
    by_cases hdue : n.readTrk.count = 5
    · obtain ⟨m, hm, htrk, hstep⟩ := readStep_stuffBit cfg h hdue (lt_frameSize_of_bit hbit)
      have hrest := hundue hm (by rw [htrk]; exact (by decide : (1 : Nat) ≠ 5))
      rw [htrk] at hrest
      rw [hdue, stuffLoop_stuffBit]
      exact hrest.cons hstep
    · exact hundue h hdue

/-- Rule 8 adds to the effects (R133, R134). -/
theorem rule8_effects (cfg : Config.Params) (a : Act) : ∃ more, (rule8 cfg a).effects = a.effects ++ more := by
  unfold rule8
  split
  · rw [updateState_eq]; exact ⟨_, rfl⟩
  · exact ⟨[], (List.append_nil _).symm⟩

/-- After the last bit of EOF a Receiver reports its frame first (R115). -/
theorem afterEofRx_effects (cfg : Config.Params) (n : Node) :
    ∃ more, (afterEofRx cfg 6 .recessive (actOf n)).effects = .event (reportOf n) :: more := by
  obtain ⟨more, hmore⟩ := rule8_effects cfg (emit (reportOf n) (actOf n))
  refine ⟨more, ?_⟩
  show (endFrame (rule8 cfg (emit (reportOf n) (actOf n)))).effects = _
  rw [endFrame, enterIntermission_eq]
  exact hmore

/-- The Recessive bits of EOF from bit `k` on: the seventh ends the frame (R115). -/
theorem readAll_eof (cfg : Config.Params) (n : Node) (hkj : k + j = 6) :
    ∃ more, (readAll cfg (blocked (.eofRxR k) n) (List.replicate (j + 1) .recessive)).2 = .event (reportOf n) :: more := by
  induction j generalizing k n with
  | zero =>
    obtain rfl : k = 6 := hkj
    obtain ⟨more, hmore⟩ := afterEofRx_effects cfg (trackRead .recessive (blocked (.eofRxR 6) n))
    exact ⟨more, (List.append_nil _).trans hmore⟩
  | succ j ih =>
    have hstep : readStep cfg (blocked (.eofRxR k) n) .recessive = actOf (blocked (.eofRxR (k + 1)) (trackRead .recessive n)) := by
      have hlt : k + 1 < 7 := by omega
      exact if_pos hlt
    rw [List.replicate_succ, readAll_cons_of_actOf hstep]
    exact ih (trackRead .recessive n) (by omega)

/-- Settles O60: the Receiver is before bit 0 of the frame, reads all its bits, and reports it at the end of EOF. -/
theorem receiverGetsFrame : Obligations.ReceiverGetsFrame := by
  intro cfg n f hpos hrole hread hid hdlc hdata
  have hstart : Received f 0 n :=
    ⟨hrole, hid.trans (BitVec.ushiftRight_eq_zero (by decide)).symm, hdlc.trans (BitVec.ushiftRight_eq_zero (by decide)).symm, hdata⟩
  have hfirst : awaiting f 0 n = n := by
    rw [awaiting_of_undue (by rw [hread]; decide) (by unfold frameSize; omega)]
    exact congrArg (fun p => { n with pos := p }) hpos.symm
  obtain ⟨m, hm, hbits⟩ := readsFrame_stuffLoop cfg List.drop_zero hstart
  obtain ⟨more, hmore⟩ := readAll_eof cfg m (Nat.zero_add 6)
  rw [hfirst, hread] at hbits
  exact ⟨more, (congrArg Prod.snd (hbits _)).trans (hm ▸ hmore)⟩

end Sys2Proof.Machine
end

section
/-! Proofs of the family `42_bit_stuffing.md`, the stuffed region has no six equal bits in a row (R59, R99). -/

namespace Sys2Proof.Machine

variable {l : Bit} {ys : List Bit}

theorem headRun_cons_of_head?_ne (h : ys.head? ≠ some l) : headRun (l :: ys) = 1 := by
  cases ys with
  | nil => rfl
  | cons y ys => exact headRun_other (fun e => h (congrArg some e.symm)) ys

/-- A run before a list that does not go on with its bit is a head run. -/
theorem headRun_replicate_append (h : ys.head? ≠ some l) (r : Nat) : headRun (List.replicate (r + 1) l ++ ys) = r + 1 := by
  induction r with
  | zero => exact headRun_cons_of_head?_ne h
  | succ r ih => exact (headRun_same l (List.replicate r l ++ ys)).trans (congrArg (· + 1) ih)

/-- The runs of a list after a run of another bit are that run and its own. -/
theorem longestRun_replicate_append (h : ys.head? ≠ some l) (r : Nat) :
    longestRun (List.replicate r l ++ ys) = max r (longestRun ys) := by
  induction r with
  | zero => simp
  | succ r ih =>
    have hcons : longestRun (List.replicate (r + 1) l ++ ys)
        = max (headRun (List.replicate (r + 1) l ++ ys)) (longestRun (List.replicate r l ++ ys)) := rfl
    rw [hcons, headRun_replicate_append h, ih]
    omega

/-- The encoder's output has no run of six, together with the run before it that the encoder counts: at 5 the stuff bit ends it. -/
theorem longestRun_stuffLoop (l : Bit) {run : Nat} (hle : run ≤ 5) (bits : List Bit) :
    longestRun (List.replicate run l ++ stuffLoop (some l) run bits) ≤ 5 := by
  induction bits generalizing l run with
  | nil =>
    rw [stuffLoop, longestRun_replicate_append (by simp)]
    exact Nat.max_le.2 ⟨hle, Nat.zero_le 5⟩
  | cons x rest ih =>
    have hundue : ∀ {l run}, run < 5 → longestRun (List.replicate run l ++ stuffLoop (some l) run (x :: rest)) ≤ 5 := by
      intro l run hlt
      by_cases hx : x = l
      · subst hx
        rw [stuffLoop_same (by omega), List.append_cons, ← List.replicate_succ']
        exact ih x hlt
      · rw [stuffLoop_other (by omega) hx, longestRun_replicate_append (by simpa using hx)]
        exact Nat.max_le.2 ⟨by omega, ih x (run := 1) (by decide)⟩
    by_cases hdue : run = 5
    · subst hdue
      have hflip : l.flip ≠ l := fun e => Bit.ne_flip l e.symm
      rw [stuffLoop_stuffBit, longestRun_replicate_append (by simpa using hflip)]
      exact Nat.max_le.2 ⟨Nat.le_refl 5, hundue (l := l.flip) (run := 1) (by decide)⟩
    · exact hundue (by omega)

/-- Settles O36: the first bit of the region is a run of 1 that the encoder counts. -/
theorem stuffedHasNoSix : Obligations.StuffedHasNoSix := by
  intro region
  cases region with
  | nil => exact Nat.zero_le 5
  | cons x rest => exact longestRun_stuffLoop x (run := 1) (by decide) rest

end Sys2Proof.Machine
end

section
/-! Proofs of the family `42_bit_stuffing.md`, the four primitives on an active bus, and a Transmitter's iteration (R94 to R97, R109,
R112). -/

namespace Sys2Proof.Machine

/-! ### The primitives (R94 to R97; log 3) -/

section Active

variable {s : State} {uid : Word} {n : Node} (hn : nodeAt s uid.toNat = some n) (hactive : s.active = true)
include hactive

/-- A node's write on an active bus: the tracker counts the bit, and the bus takes it unless the node is BusOff (R73, R94). -/
theorem writeNow_of_active (u : Nat) (b : Bit) :
    writeNow u n b s = setNode (if n.st = .busOff then s else { s with busState := s.busState.and b }) u
      { n with writeTrk := track n.writeTrk b } := by
  by_cases hst : n.st = .busOff
  · rw [if_pos hst, writeNow_of_busOff u hst, trackWrite]
  · rw [if_neg hst, writeNow, writeBy_of_alive hst, driveBus_of_active (s := setNode s u (trackWrite b n)) hactive]
    rfl

include hn

theorem execStuffReadBit_of_active : execStuffReadBit uid s = .next (answer (.bit s.busState) (readNow uid.toNat n s)) := by
  simp only [execStuffReadBit, hn, hactive, if_true]

theorem execStuffMaybeWriteStuff_of_active (h : n.writeTrk.count = 5) :
    execStuffMaybeWriteStuff uid s = .next (answer (.truth true) (writeNow uid.toNat n n.writeTrk.last.flip s)) := by
  have hgoes : writeGoes n.st s = true := by simp [writeGoes, hactive]
  simp only [execStuffMaybeWriteStuff, hn, (stuffDue_iff _).2 h, hgoes, if_true]

theorem execStuffMaybeReadStuff_of_active (h : n.readTrk.count = 5) :
    execStuffMaybeReadStuff uid s = .next (answer (.truth (s.busState != n.readTrk.last)) (readNow uid.toNat n s)) := by
  simp only [execStuffMaybeReadStuff, hn, (stuffDue_iff _).2 h, hactive, if_true]

end Active

/-- Settles O34: each bit makes the tracker's run longer or starts a new one. -/
theorem writeBitAndReadBit : Obligations.WriteBitAndReadBit := by
  intro s uid b n hn hactive
  have hwrite : exec (.stuffWriteBit uid b) s = _ :=
    (execStuffWriteBit_of_node hn b).trans (congrArg _ (writeNow_of_active hactive uid.toNat b))
  have hread : exec (.stuffReadBit uid) s = _ := execStuffReadBit_of_active hn hactive
  refine ⟨fun h => ?_, fun h => ?_, fun h => ?_, fun h => ?_⟩
  · rw [hwrite, track_same h]
  · rw [hwrite, track_other h]
  · rw [hread, readNow, trackRead, track_same h]
  · rw [hread, readNow, trackRead, track_other h]

/-- Settles O35: a stuff bit is due at a run of 5; the one written starts a run of 1, the one read too unless it is a sixth equal bit. -/
theorem stuffBits : Obligations.StuffBits := by
  intro s uid n hn hactive
  refine ⟨fun h => ?_, execStuffMaybeWriteStuff_of_undue hn, fun h hdiff => ?_, fun h hsame => ?_,
    execStuffMaybeReadStuff_of_undue hn⟩
  · rw [exec, execStuffMaybeWriteStuff_of_active hn hactive h, writeNow_of_active hactive, track_flip]
  · rw [exec, execStuffMaybeReadStuff_of_active hn hactive h, readNow, trackRead, track_other hdiff.symm, bne_iff_ne.2 hdiff]
  · rw [exec, execStuffMaybeReadStuff_of_active hn hactive h, readNow, trackRead, track_same hsame.symm, h, hsame, bne_self_eq_false]

/-! ### One iteration of a Transmitter (R96, R97, R109, R112; log 18) -/

variable {a : Act} {i : Nat}

theorem txIter_of_undue (h : a.node.writeTrk.count ≠ 5) (f : Field) (i : Nat) : txIter f i a = txCheck f i a := by
  simp only [txIter, stuffDue_eq_false h, Bool.false_eq_true, if_false]

theorem txIter_of_due (h : a.node.writeTrk.count = 5) (f : Field) (i : Nat) : txIter f i a =
    writeBit a.node.writeTrk.last.flip (.txSW f i a.node.writeTrk.last.flip) (txCheck f i) a := by
  simp only [txIter, (stuffDue_iff _).2 h, if_true]

/-- The stuff bit of a BusOff node is only counted (R73, R94). -/
theorem writeBit_of_busOff (h : a.node.st = .busOff) (b : Bit) (p : Point) (next : Act → Act) :
    writeBit b p next a = next (onRegs (trackWrite b) a) := by
  simp only [writeBit, h]

theorem txCheck_of_due (h : a.node.readTrk.count = 5) (f : Field) (i : Nat) : txCheck f i a = blockAt (.txSR f i) a := by
  simp only [txCheck, (stuffDue_iff _).2 h, if_true]

theorem txSend_of_frameBit {c : Frame} {b : Bit} (f : Field) (hcur : a.node.cur = some c) (hbit : frameBit? c i = some b) :
    txSend f i a = { a with node := wrote b (.txW f i b) (.txR f i b) a.node } := by
  simp only [txSend, hcur, Option.bind_some, hbit, writeThenRead_eq]

/-- An index outside the frame, or no frame, is the programmer error (R86; log 18). -/
theorem txSend_of_noBit (f : Field) (h : ∀ c, a.node.cur = some c → frameSize c ≤ i) :
    txSend f i a = { a with fault := some .bitIndexOutOfRange } := by
  have hnone : a.node.cur.bind (fun c => frameBit? c i) = none :=
    Option.bind_eq_none_iff.2 fun c hc => frameBit?_none (h c hc)
  simp only [txSend, hnone, failWith]

/-- Settles O38: a clause for each branch of the iteration. -/
theorem transmitterIteration : Obligations.TransmitterIteration := by
  intro f i a
  refine ⟨fun hdue hst => ?_, fun hdue hst => ?_, fun hw hr => ?_, fun c b hw hr hcur hbit => ?_, fun hw hr hout => ?_⟩
  · rw [txIter_of_due hdue, writeBit_of_alive hst, blockAt, onRegs, onRegs, trackWrite_flip]
  · have hone : (1 : Nat) ≠ 5 := by decide
    rw [txIter_of_due hdue, writeBit_of_busOff hst, onRegs, trackWrite_flip, txIter_of_undue hone]
  · rw [txIter_of_undue hw, txCheck_of_due hr, blockAt, onRegs]
  · rw [txIter_of_undue hw, txCheck_of_undue hr, txSend_of_frameBit f hcur hbit]
  · rw [txIter_of_undue hw, txCheck_of_undue hr, txSend_of_noBit f hout]

end Sys2Proof.Machine
end

section
/-! Proofs of the family `43_protocol_fsm.md`, entry into Error and where each frame field ends (R108 to R121). -/

namespace Sys2Proof.Machine

/-! ### Entry into Error (R118, R120, R121, R161) -/

/-- Entry into Error is the first line of Error, on the registers it saves (R118, R161). -/
theorem erred_eq_saveError (n : Node) : erred n =
    if (saveError n).st = .errorActive then wrote .dominant (.errAfW 0) (.errAfR 0) (saveError n)
    else wrote .recessive (.errPfW 0 true) (.errPfR 0 true) (saveError n) := by
  cases hrole : n.role with
  | receiver => simp only [erred, saveError, hrole]
  | transmitter => cases hcur : n.cur <;> simp only [erred, saveError, hrole, pushback, hcur, pushFront]

theorem detect_eq_erred (kind : ErrorKind) (a : Act) : detect kind a = { a with node := erred a.node } := by
  rw [detect, enterError_eq, erred_eq_saveError]
  rfl

/-- Settles O40: entry into Error is `saveError`, then the flag that `st` calls for. -/
theorem errorEntry : Obligations.ErrorEntry := detect_eq_erred

/-! ### Where each frame field ends (R108, R111 to R115) -/

section Fields

variable {a : Act} {i : Nat}

theorem enterData_of_transmitter (h : a.node.role = .transmitter) : enterData a = dataTx 15 a := by simp only [enterData, h]

theorem enterData_of_receiver (h : a.node.role = .receiver) : enterData a = dataByte 0 a := by simp only [enterData, h]

theorem enterEof_of_transmitter (h : a.node.role = .transmitter) :
    enterEof a = { a with node := wrote .recessive (.eofTxW 0) (.eofTxR 0) a.node } := by
  simp only [enterEof, h, eofWrite, writeThenRead_eq]

theorem enterEof_of_receiver (h : a.node.role = .receiver) : enterEof a = blockAt (.eofRxR 0) a := by simp only [enterEof, h]

theorem arbIter_of_transmitter (h : a.node.role = .transmitter) (hi : i < 11) : arbIter i a = txIter .identifier i a := by
  simp only [arbIter, if_pos (show i < Config.idBits from hi), h]

theorem arbIter_of_receiver (h : a.node.role = .receiver) (hi : i < 11) :
    arbIter i a = { a with node := checked (.arbRxSR i) (.arbRxR i) a.node } := by
  simp only [arbIter, if_pos (show i < Config.idBits from hi), h, arbCheck_eq]

theorem arbIter_of_end (hi : 11 ≤ i) : arbIter i a = enterDlc a := if_neg (Nat.not_lt.2 hi)

theorem dlcTx_of_lt (hi : i < 15) : dlcTx i a = txIter .dlc i a := if_pos hi

theorem dlcTx_of_end (hi : 15 ≤ i) : dlcTx i a = enterData a := if_neg (Nat.not_lt.2 hi)

theorem dlcRx_of_lt (hi : i < 4) : dlcRx i a = { a with node := checked (.dlcRxSR i) (.dlcRxR i) a.node } :=
  (if_pos hi).trans (dlcCheck_eq i a)

theorem dlcRx_of_end (hi : 4 ≤ i) : dlcRx i a = enterData a := if_neg (Nat.not_lt.2 hi)

/-- The data of a Transmitter is its frame's payload (R114). -/
theorem dataEnd_of_frame {n : Node} {f : Frame} (h : n.cur = some f) : dataEnd n = 15 + 8 * f.data.length := by
  simp only [dataEnd, h, frameDlc_toNat]

theorem dataTx_of_lt {f : Frame} (hcur : a.node.cur = some f) (hi : i < 15 + 8 * f.data.length) : dataTx i a = txIter .data i a :=
  if_pos (dataEnd_of_frame hcur ▸ hi)

theorem dataTx_of_end {f : Frame} (hcur : a.node.cur = some f) (hi : 15 + 8 * f.data.length ≤ i) : dataTx i a = enterEof a :=
  if_neg (Nat.not_lt.2 (dataEnd_of_frame hcur ▸ hi))

theorem dataByte_of_lt (hi : i < a.node.rxDlc.toNat) :
    dataByte i a = { a with node := checked (.dataRxSR i 0 0) (.dataRxR i 0 0) a.node } :=
  (if_pos hi).trans (dataCheck_eq i 0 0 a)

theorem dataByte_of_end (hi : a.node.rxDlc.toNat ≤ i) : dataByte i a = enterEof a := if_neg (Nat.not_lt.2 hi)

end Fields

/-- Settles O39: each loop test, by its lemma. -/
theorem loopTests : Obligations.LoopTests := by
  intro a i
  refine ⟨fun hi h => arbIter_of_transmitter h hi, fun hi h => arbIter_of_receiver h hi,
    fun hi h => (arbIter_of_end hi).trans (enterDlc_of_transmitter h),
    fun hi h => (arbIter_of_end hi).trans ((enterDlc_of_receiver h).trans (dlcRx_of_lt (by decide))),
    dlcTx_of_lt, dlcTx_of_end, dlcRx_of_lt, dlcRx_of_end, fun f h hcur hdata => ?_, fun f h hcur hdata => ?_,
    fun f => dataTx_of_lt, fun f => dataTx_of_end, fun h hdlc => (enterData_of_receiver h).trans (dataByte_of_lt hdlc),
    fun h hdlc => (enterData_of_receiver h).trans (dataByte_of_end hdlc.le), dataByte_of_lt, dataByte_of_end,
    enterEof_of_transmitter, enterEof_of_receiver⟩
  · exact (enterData_of_transmitter h).trans (dataTx_of_lt hcur (by omega))
  · exact (enterData_of_transmitter h).trans (dataTx_of_end hcur (by simp [hdata]))

end Sys2Proof.Machine
end

section
/-! Proofs of the family `43_protocol_fsm.md`, a node's step in a run of host commands: from a blocking point that fits its registers
the node runs to one that does, and raises no programmer error (R35, R86, R105 to R123, R160). -/

namespace Sys2Proof.Machine

/-! ### What a step must leave (R35, R123, R160) -/

/-- A fault that is no programmer error: none, or the overflow of a finite counter width (R160). -/
def FaultAllowed (r : Option FaultReason) : Prop := r = none ∨ r = some .counterOverflow

/-- A step that leaves the node in order and raises no programmer error. -/
structure EndsInOrder (a : Act) : Prop where
  node : nodeOk true a.node = true
  fault : FaultAllowed a.fault

/-- Whether a node fits a point depends on its role, its frame, its deferred update and what it has received. -/
theorem pointOk_congr {n m : Node} (hrole : m.role = n.role) (hcur : m.cur = n.cur) (hupdate : m.errorUpdate = n.errorUpdate)
    (hdlc : m.rxDlc = n.rxDlc) (hdata : m.rxData = n.rxData) (p : Point) : pointOk m p = pointOk n p := by
  cases p <;>
    simp only [pointOk, betweenFrames, receiving, sending, inError, noUpdate, hrole, hcur, hupdate, hdlc, hdata]

theorem sending_iff {n : Node} :
    sending n = true ↔ n.role = .transmitter ∧ (∃ c, n.cur = some c) ∧ noUpdate n = true := by
  simp only [sending, Bool.and_eq_true, beq_iff_eq, Option.isSome_iff_exists, and_assoc]

theorem receiving_iff {n : Node} : receiving n = true ↔ n.role = .receiver ∧ n.cur = none ∧ noUpdate n = true := by
  simp only [receiving, Bool.and_eq_true, beq_iff_eq, Option.isNone_iff_eq_none, and_assoc]

/-- A Transmitter's four points of a bit hold the same of it (R109, R112). -/
theorem pointOk_txR {n : Node} {f : Field} {i : Nat} {sent : Bit} : pointOk n (.txR f i sent) = true ↔
    sending n = true ∧ inField f i n.cur = true ∧ (f = .identifier → n.rxData = []) := by
  cases f <;> simp [pointOk, and_assoc]

theorem pointOk_arbRxR {n : Node} {i : Nat} : pointOk n (.arbRxR i) = true ↔ receiving n = true ∧ i < 11 ∧ n.rxData = [] := by
  simp [pointOk, and_assoc]

theorem pointOk_dlcRxR {n : Node} {k : Nat} : pointOk n (.dlcRxR k) = true ↔ receiving n = true ∧ k < 4 ∧ n.rxData = [] := by
  simp [pointOk, and_assoc]

theorem pointOk_dataRxR {n : Node} {j k : Nat} {acc : Byte} :
    pointOk n (.dataRxR j k acc) = true ↔ receiving n = true ∧ j < n.rxDlc.toNat ∧ k < 8 ∧ n.rxData.length = j := by
  simp [pointOk, and_assoc]

theorem pointOk_eofRxR {n : Node} {k : Nat} :
    pointOk n (.eofRxR k) = true ↔ receiving n = true ∧ k < 7 ∧ n.rxData.length = n.rxDlc.toNat := by
  simp [pointOk, and_assoc]

theorem nodeOk_iff {n : Node} : nodeOk true n = true ↔
    ∃ p, n.pos = some p ∧ pointOk n p = true ∧ (n.st = .busOff → pointOp p = .read) := by
  cases hpos : n.pos with
  | none => simp [nodeOk, hpos]
  | some p => simp [nodeOk, hpos, busOffReads, Decidable.imp_iff_not_or]

theorem blocked_nodeOk {n : Node} {p : Point} (hok : pointOk n p = true) (hop : pointOp p = .read) :
    nodeOk true (blocked p n) = true :=
  nodeOk_iff.2 ⟨p, rfl, (pointOk_congr rfl rfl rfl rfl rfl p).trans hok, fun _ => hop⟩

/-- A node waits at the write, or, if it is BusOff, at the read that follows (R73). -/
theorem wrote_nodeOk (b : Bit) {w r : Point} {n : Node} (hw : pointOk n w = true) (hr : pointOk n r = true)
    (hop : pointOp r = .read) : nodeOk true (wrote b w r n) = true := by
  refine nodeOk_iff.2 ⟨_, rfl, ?_, ?_⟩
  · refine (pointOk_congr (n := n) rfl rfl rfl rfl rfl _).trans ?_
    split <;> assumption
  · intro hst
    rw [if_pos (show n.st = .busOff from hst)]
    exact hop

theorem checked_nodeOk {sr r : Point} {n : Node} (hsr : pointOk n sr = true) (hr : pointOk n r = true)
    (hopsr : pointOp sr = .read) (hop : pointOp r = .read) : nodeOk true (checked sr r n) = true := by
  unfold checked
  split
  · exact blocked_nodeOk hsr hopsr
  · exact blocked_nodeOk hr hop

/-! ### First lines -/

/-- A node takes a frame of its queue when it holds none (R107). -/
theorem idled_nodeOk {n : Node} (h : betweenFrames n = true) : nodeOk true (idled n) = true := by
  obtain ⟨-, hupdate⟩ : n.cur = none ∧ noUpdate n = true := by simpa [betweenFrames] using h
  unfold idled
  split
  · exact blocked_nodeOk (p := .idleR) h rfl
  · rename_i f rest _
    have hsend : pointOk { n with queue := rest, cur := some f, role := .transmitter, rxId := 0, rxDlc := 0, rxData := [] }
        .idleSofR = true := by simpa [pointOk, sending, noUpdate] using hupdate
    exact wrote_nodeOk _ (w := .idleSofW) hsend hsend rfl

theorem heardSof_nodeOk {n : Node} (h : betweenFrames n = true) : nodeOk true (heardSof n) = true := by
  have hreceive : pointOk { n with role := .receiver, rxId := 0, rxDlc := 0, rxData := [] } (.arbRxR 0) = true := by
    simpa [pointOk, receiving, noUpdate, betweenFrames] using h
  exact checked_nodeOk (sr := .arbRxSR 0) hreceive hreceive rfl rfl

theorem rested_nodeOk {n : Node} (h : noUpdate n = true) : nodeOk true (rested n) = true := by
  have hbetween : pointOk { n with readTrk := ⟨.recessive, 0⟩, writeTrk := ⟨.recessive, 0⟩, cur := none } (.intR 0) = true := by
    simpa [pointOk, betweenFrames, noUpdate] using h
  exact wrote_nodeOk _ (w := .intW 0) hbetween hbetween rfl

/-- Entry into Error leaves the deferred update of the role, and no frame (R118, R120, R161). -/
theorem inError_saveError {n : Node} (h : sending n = true ∨ receiving n = true) : inError (saveError n) = true := by
  obtain h | h := h
  · obtain ⟨hrole, ⟨c, hc⟩, -⟩ := sending_iff.1 h
    simp [saveError, hrole, pushback, hc, pushFront, inError]
  · obtain ⟨hrole, hcur, -⟩ := receiving_iff.1 h
    simp [saveError, hrole, inError, hcur]

theorem erred_nodeOk {n : Node} (h : sending n = true ∨ receiving n = true) : nodeOk true (erred n) = true := by
  have hin := inError_saveError h
  rw [erred_eq_saveError]
  split
  · exact wrote_nodeOk _ (by simpa [pointOk] using hin) (by simpa [pointOk] using hin) rfl
  · exact wrote_nodeOk _ (by simpa [pointOk] using hin) (by simpa [pointOk] using hin) rfl

/-! ### A frame bit is sent (R96, R97, R109, R112) -/

/-- An index of a field lies in the frame (R85). -/
theorem inField_frame {f : Field} {i : Nat} {cur : Option Frame} (h : inField f i cur = true) :
    ∃ c, cur = some c ∧ i < frameSize c := by
  cases cur with
  | none => cases h
  | some c =>
    refine ⟨c, rfl, ?_⟩
    cases f <;> simp only [inField, decide_eq_true_eq] at h <;> simp only [frameSize] <;> omega

section Sends

variable {a : Act} (hf : FaultAllowed a.fault)
include hf

theorem blockAt_inOrder {p : Point} (hok : pointOk a.node p = true) (hop : pointOp p = .read) : EndsInOrder (blockAt p a) :=
  ⟨blocked_nodeOk hok hop, hf⟩

theorem writeThenRead_inOrder (b : Bit) {w r : Point} (hw : pointOk a.node w = true) (hr : pointOk a.node r = true)
    (hop : pointOp r = .read) : EndsInOrder (writeThenRead b w r a) := by
  rw [writeThenRead_eq]
  exact ⟨wrote_nodeOk b hw hr hop, hf⟩

variable {f : Field} {i : Nat} (hok : pointOk a.node (.txSR f i) = true)
include hok

/-- The frame of a Transmitter at a bit of a field has that bit (R86). -/
theorem txSend_inOrder : EndsInOrder (txSend f i a) := by
  obtain ⟨-, hin, -⟩ := (pointOk_txR (sent := .dominant)).1 hok
  obtain ⟨c, hcur, hi⟩ := inField_frame hin
  obtain ⟨b, hbit⟩ := frameBit?_isSome hi
  rw [txSend_of_frameBit f hcur hbit]
  exact ⟨wrote_nodeOk b (w := .txW f i b) (r := .txR f i b) hok hok rfl, hf⟩

theorem txCheck_inOrder : EndsInOrder (txCheck f i a) := by
  unfold txCheck
  split
  · exact blockAt_inOrder hf hok rfl
  · exact txSend_inOrder hf hok

theorem txIter_inOrder : EndsInOrder (txIter f i a) := by
  by_cases hdue : a.node.writeTrk.count = 5
  · rw [txIter_of_due hdue]
    have hcounted : pointOk (trackWrite a.node.writeTrk.last.flip a.node) (.txSR f i) = true :=
      (pointOk_congr rfl rfl rfl rfl rfl _).trans hok
    by_cases hst : a.node.st = .busOff
    · rw [writeBit_of_busOff hst]
      exact txCheck_inOrder (a := onRegs (trackWrite a.node.writeTrk.last.flip) a) hf hcounted
    · rw [writeBit_of_alive hst]
      exact ⟨nodeOk_iff.2 ⟨_, rfl, hcounted, fun h => absurd h hst⟩, hf⟩
  · rw [txIter_of_undue hdue]
    exact txCheck_inOrder hf hok

end Sends


/-! ### The loops of a frame (R108 to R115) -/

theorem role_of_sending {n : Node} (h : sending n = true) : n.role = .transmitter := (sending_iff.1 h).1

theorem frame_of_sending {n : Node} (h : sending n = true) : ∃ c, n.cur = some c := by
  obtain ⟨-, hcur, -⟩ := sending_iff.1 h
  exact hcur

theorem noUpdate_of_sending {n : Node} (h : sending n = true) : noUpdate n = true := by
  obtain ⟨-, -, hupdate⟩ := sending_iff.1 h
  exact hupdate

theorem role_of_receiving {n : Node} (h : receiving n = true) : n.role = .receiver := (receiving_iff.1 h).1

theorem noUpdate_of_receiving {n : Node} (h : receiving n = true) : noUpdate n = true := by
  obtain ⟨-, -, hupdate⟩ := receiving_iff.1 h
  exact hupdate

/-- A node in a frame before its data: a Transmitter, or a Receiver that has received no byte. -/
def BeforeData (n : Node) : Prop := sending n = true ∨ (receiving n = true ∧ n.rxData = [])

section Loops

variable {a : Act} (hf : FaultAllowed a.fault)
include hf

theorem enterEof_inOrder
    (h : sending a.node = true ∨ (receiving a.node = true ∧ a.node.rxData.length = a.node.rxDlc.toNat)) :
    EndsInOrder (enterEof a) := by
  obtain h | ⟨h, hlen⟩ := h
  · rw [enterEof_of_transmitter (role_of_sending h)]
    exact ⟨wrote_nodeOk _ (by simp [pointOk, h]) (by simp [pointOk, h]) rfl, hf⟩
  · rw [enterEof_of_receiver (role_of_receiving h)]
    exact blockAt_inOrder hf (pointOk_eofRxR.2 ⟨h, by decide, hlen⟩) rfl

theorem dataTx_inOrder (h : sending a.node = true) {i : Nat} (hi : 15 ≤ i) : EndsInOrder (dataTx i a) := by
  obtain ⟨c, hcur⟩ := frame_of_sending h
  by_cases hlt : i < 15 + 8 * c.data.length
  · rw [dataTx_of_lt hcur hlt]
    exact txIter_inOrder hf ((pointOk_txR (sent := .dominant)).2 ⟨h, by simp [inField, hcur, hi, hlt], nofun⟩)
  · rw [dataTx_of_end hcur (Nat.not_lt.1 hlt)]
    exact enterEof_inOrder hf (.inl h)

theorem dataByte_inOrder (h : receiving a.node = true) {j : Nat} (hlen : a.node.rxData.length = j)
    (hj : j ≤ a.node.rxDlc.toNat) : EndsInOrder (dataByte j a) := by
  by_cases hlt : j < a.node.rxDlc.toNat
  · rw [dataByte_of_lt hlt]
    have hok : pointOk a.node (.dataRxR j 0 0) = true := pointOk_dataRxR.2 ⟨h, hlt, by decide, hlen⟩
    exact ⟨checked_nodeOk (sr := .dataRxSR j 0 0) hok hok rfl rfl, hf⟩
  · rw [dataByte_of_end (Nat.not_lt.1 hlt)]
    exact enterEof_inOrder hf (.inr ⟨h, by omega⟩)

theorem enterData_inOrder (h : BeforeData a.node) : EndsInOrder (enterData a) := by
  obtain h | ⟨h, hdata⟩ := h
  · rw [enterData_of_transmitter (role_of_sending h)]
    exact dataTx_inOrder hf h (Nat.le_refl 15)
  · rw [enterData_of_receiver (role_of_receiving h)]
    exact dataByte_inOrder hf h (by simp [hdata]) (Nat.zero_le _)

theorem dlcTx_inOrder (h : sending a.node = true) {i : Nat} (hi : 11 ≤ i) : EndsInOrder (dlcTx i a) := by
  by_cases hlt : i < 15
  · rw [dlcTx_of_lt hlt]
    obtain ⟨c, hcur⟩ := frame_of_sending h
    exact txIter_inOrder hf ((pointOk_txR (sent := .dominant)).2 ⟨h, by simp [inField, hcur, hi, hlt], nofun⟩)
  · rw [dlcTx_of_end (Nat.not_lt.1 hlt)]
    exact enterData_inOrder hf (.inl h)

theorem dlcRx_inOrder (h : receiving a.node = true) (hdata : a.node.rxData = []) (k : Nat) : EndsInOrder (dlcRx k a) := by
  by_cases hlt : k < 4
  · rw [dlcRx_of_lt hlt]
    have hok : pointOk a.node (.dlcRxR k) = true := pointOk_dlcRxR.2 ⟨h, hlt, hdata⟩
    exact ⟨checked_nodeOk (sr := .dlcRxSR k) hok hok rfl rfl, hf⟩
  · rw [dlcRx_of_end (Nat.not_lt.1 hlt)]
    exact enterData_inOrder hf (.inr ⟨h, hdata⟩)

theorem enterDlc_inOrder (h : BeforeData a.node) : EndsInOrder (enterDlc a) := by
  obtain h | ⟨h, hdata⟩ := h
  · rw [enterDlc_of_transmitter (role_of_sending h)]
    exact dlcTx_inOrder hf h (Nat.le_refl 11)
  · rw [enterDlc_of_receiver (role_of_receiving h)]
    exact dlcRx_inOrder hf h hdata 0

theorem arbIter_inOrder (h : sending a.node = true ∨ receiving a.node = true) (hdata : a.node.rxData = []) (i : Nat) :
    EndsInOrder (arbIter i a) := by
  by_cases hlt : i < 11
  · obtain h | h := h
    · rw [arbIter_of_transmitter (role_of_sending h) hlt]
      obtain ⟨c, hcur⟩ := frame_of_sending h
      exact txIter_inOrder hf ((pointOk_txR (sent := .dominant)).2 ⟨h, by simp [inField, hcur, hlt], fun _ => hdata⟩)
    · rw [arbIter_of_receiver (role_of_receiving h) hlt]
      have hok : pointOk a.node (.arbRxR i) = true := pointOk_arbRxR.2 ⟨h, hlt, hdata⟩
      exact ⟨checked_nodeOk (sr := .arbRxSR i) hok hok rfl rfl, hf⟩
  · rw [arbIter_of_end (Nat.not_lt.1 hlt)]
    exact enterDlc_inOrder hf (h.imp_right (⟨·, hdata⟩))

theorem detect_inOrder (kind : ErrorKind) (h : sending a.node = true ∨ receiving a.node = true) : EndsInOrder (detect kind a) := by
  rw [detect_eq_erred]
  exact ⟨erred_nodeOk h, hf⟩

end Loops


/-! ### Fault confinement in a step (R126 to R134) -/

/-- An act that went on from another by counting: `st`, the counters and the effects may differ. -/
def Counted (a b : Act) : Prop :=
  ∃ st tec recCtr es, b = { a with node := { a.node with st := st, tec := tec, recCtr := recCtr }, effects := es }

/-- A counter rule counts, or stops the node with the overflow of a finite width (R126). -/
def CountedOrStopped (a b : Act) : Prop := Counted a b ∨ b = failWith .counterOverflow a

theorem Counted.refl (a : Act) : Counted a a := ⟨_, _, _, _, rfl⟩

theorem updateState_counted {a b : Act} (h : Counted a b) : Counted a (updateState b) := by
  obtain ⟨st, tec, recCtr, es, rfl⟩ := h
  rw [updateState_eq]
  exact ⟨_, _, _, _, rfl⟩

theorem addTec_counted (cfg : Config.Params) (k : Nat) (a : Act) : CountedOrStopped a (addTec cfg k a) := by
  unfold addTec
  split
  · exact .inl (updateState_counted ⟨_, _, _, _, rfl⟩)
  · exact .inr rfl

theorem addRec_counted (cfg : Config.Params) (k : Nat) (a : Act) : CountedOrStopped a (addRec cfg k a) := by
  unfold addRec
  split
  · exact .inl (updateState_counted ⟨_, _, _, _, rfl⟩)
  · exact .inr rfl

theorem rule45_counted (cfg : Config.Params) (a : Act) : CountedOrStopped a (rule45 cfg a) := by
  unfold rule45
  cases a.node.role with
  | transmitter => exact addTec_counted cfg 8 a
  | receiver => exact addRec_counted cfg 8 a

theorem applyErrorUpdate_counted (cfg : Config.Params) (a : Act) : CountedOrStopped a (applyErrorUpdate cfg a) := by
  unfold applyErrorUpdate
  cases a.node.errorUpdate with
  | none => exact .inl (.refl a)
  | tecPlus8 => exact addTec_counted cfg 8 a
  | recPlus1 => exact addRec_counted cfg 1 a

theorem rule7_counted (a : Act) : Counted a (rule7 a) := by
  unfold rule7
  split
  · exact updateState_counted ⟨_, _, _, _, rfl⟩
  · exact .refl a

theorem rule8_counted (cfg : Config.Params) (a : Act) : Counted a (rule8 cfg a) := by
  unfold rule8
  split
  · exact updateState_counted ⟨_, _, _, _, rfl⟩
  · exact .refl a

/-- A counter rule stops the node where it is, or lets it run on. -/
theorem andThen_inOrder {a b : Act} {f : Act → Act} (hnode : nodeOk true a.node = true) (hfault : a.fault = none)
    (h : CountedOrStopped a b) (hf : ∀ b, Counted a b → FaultAllowed b.fault → EndsInOrder (f b)) : EndsInOrder (andThen b f) := by
  obtain h | rfl := h
  · have hb : b.fault = none := by
      obtain ⟨_, _, _, _, rfl⟩ := h
      exact hfault
    simp only [andThen, hb]
    exact hf b h (.inl hb)
  · exact ⟨hnode, .inr rfl⟩

/-! ### From a blocking point on (R105 to R122) -/

/-- A Transmitter that loses arbitration goes on as a Receiver, without its frame (R110). -/
theorem receiving_arbitrationLost {n : Node} (h : sending n = true) (b : Bit) : receiving (arbitrationLost (shiftId b n)) = true := by
  obtain ⟨c, hcur⟩ := frame_of_sending h
  have hupdate := noUpdate_of_sending h
  simpa [arbitrationLost, shiftId, pushback, hcur, pushFront, receiving, noUpdate] using hupdate

theorem rxData_arbitrationLost (n : Node) (b : Bit) : (arbitrationLost (shiftId b n)).rxData = n.rxData := by
  cases hcur : n.cur <;> simp [arbitrationLost, shiftId, pushback, hcur, pushFront]

section After

variable {a : Act} (hf : FaultAllowed a.fault)
include hf

theorem enterBusIdle_inOrder (h : betweenFrames a.node = true) : EndsInOrder (enterBusIdle a) := by
  rw [enterBusIdle_eq]
  exact ⟨idled_nodeOk h, hf⟩

theorem receive_inOrder (h : betweenFrames a.node = true) : EndsInOrder (receive a) := by
  rw [receive_eq]
  exact ⟨heardSof_nodeOk h, hf⟩

theorem enterIntermission_inOrder (h : noUpdate a.node = true) : EndsInOrder (enterIntermission a) := by
  rw [enterIntermission_eq]
  exact ⟨rested_nodeOk h, hf⟩

theorem intermissionBit_inOrder (h : betweenFrames a.node = true) {k : Nat} (hk : k < 3) : EndsInOrder (intermissionBit k a) :=
  writeThenRead_inOrder hf _ (by simp [pointOk, h, hk]) (by simp [pointOk, h, hk]) rfl

theorem suspendBit_inOrder (h : betweenFrames a.node = true) {k : Nat} (hk : k < 8) : EndsInOrder (suspendBit k a) :=
  writeThenRead_inOrder hf _ (by simp [pointOk, h, hk]) (by simp [pointOk, h, hk]) rfl

theorem afterIntermission_inOrder (h : betweenFrames a.node = true) (k : Nat) (b : Bit) : EndsInOrder (afterIntermission k b a) := by
  unfold afterIntermission
  split
  · exact intermissionBit_inOrder hf h (by decide)
  · split
    · rename_i hk; exact intermissionBit_inOrder hf h hk
    · unfold endIntermission
      split
      · exact suspendBit_inOrder hf h (by decide)
      · exact enterBusIdle_inOrder hf h

theorem afterSuspend_inOrder (h : betweenFrames a.node = true) (k : Nat) (b : Bit) : EndsInOrder (afterSuspend k b a) := by
  unfold afterSuspend
  split
  · exact receive_inOrder hf h
  · split
    · rename_i hk; exact suspendBit_inOrder hf h hk
    · exact enterBusIdle_inOrder hf h

theorem afterIdle_inOrder (h : betweenFrames a.node = true) (b : Bit) : EndsInOrder (afterIdle b a) := by
  cases b with
  | dominant => exact receive_inOrder hf h
  | recessive => exact enterBusIdle_inOrder hf h

theorem afterTxStuff_inOrder {f : Field} {i : Nat} (hok : pointOk a.node (.txSR f i) = true) (prev b : Bit) :
    EndsInOrder (afterTxStuff f i prev b a) := by
  unfold afterTxStuff
  split
  · obtain ⟨hsend, -⟩ := (pointOk_txR (sent := .dominant)).1 hok
    exact detect_inOrder hf _ (.inl hsend)
  · exact txSend_inOrder hf hok

theorem afterTxBit_inOrder {f : Field} {i : Nat} {sent : Bit} (hok : pointOk a.node (.txR f i sent) = true) (b : Bit) :
    EndsInOrder (afterTxBit f i sent b a) := by
  obtain ⟨hsend, hin, hdata⟩ := pointOk_txR.1 hok
  obtain ⟨c, hcur⟩ := frame_of_sending hsend
  cases f <;> simp only [inField, hcur, decide_eq_true_eq] at hin <;> unfold afterTxBit <;> dsimp only <;> split
  case identifier.isTrue =>
    exact arbIter_inOrder (a := onRegs (shiftId b) a) hf (.inl hsend) (hdata rfl) _
  case identifier.isFalse =>
    refine arbIter_inOrder (a := onRegs (fun n => arbitrationLost (shiftId b n)) a) hf (.inr (receiving_arbitrationLost hsend b)) ?_ _
    exact (rxData_arbitrationLost a.node b).trans (hdata rfl)
  case dlc.isTrue => exact dlcTx_inOrder hf hsend (by omega)
  case data.isTrue => exact dataTx_inOrder hf hsend (by omega)
  all_goals exact detect_inOrder hf _ (.inl hsend)

theorem afterRxStuff_inOrder (h : receiving a.node = true) {next : Point} (hok : pointOk a.node next = true)
    (hop : pointOp next = .read) (prev b : Bit) : EndsInOrder (afterRxStuff next prev b a) := by
  unfold afterRxStuff
  split
  · exact detect_inOrder hf _ (.inr h)
  · exact blockAt_inOrder hf hok hop

theorem afterDataBit_inOrder {j k : Nat} {acc : Byte} (hok : pointOk a.node (.dataRxR j k acc) = true) (b : Bit) :
    EndsInOrder (afterDataBit j k acc b a) := by
  obtain ⟨hreceive, hj, -, hlen⟩ := pointOk_dataRxR.1 hok
  unfold afterDataBit
  split
  · rename_i hlt
    rw [dataCheck_eq]
    have hnext : pointOk a.node (.dataRxR j (k + 1) (shiftByte acc b)) = true := pointOk_dataRxR.2 ⟨hreceive, hj, hlt, hlen⟩
    exact ⟨checked_nodeOk (sr := .dataRxSR j (k + 1) (shiftByte acc b)) hnext hnext rfl rfl, hf⟩
  · exact dataByte_inOrder (a := onRegs (fun n => { n with rxData := n.rxData ++ [shiftByte acc b] }) a) hf hreceive
      (by simp [onRegs, hlen]) hj

theorem endFrame_inOrder (h : noUpdate a.node = true) : EndsInOrder (endFrame a) :=
  enterIntermission_inOrder (a := onRegs (fun n => { n with prevRole := n.role }) a) hf h

/-- A frame that ends, when fault confinement has counted it (R115, R132, R133). -/
theorem endFrame_counted_inOrder {b : Act} (h : Counted a b) (hupdate : noUpdate a.node = true) : EndsInOrder (endFrame b) := by
  obtain ⟨_, _, _, _, rfl⟩ := h
  exact endFrame_inOrder hf hupdate

theorem afterEofTx_inOrder (h : sending a.node = true) (k : Nat) (b : Bit) : EndsInOrder (afterEofTx k b a) := by
  unfold afterEofTx
  split
  · exact detect_inOrder hf _ (.inl h)
  · split
    · rename_i hk
      have hok : pointOk a.node (.eofTxR (k + 1)) = true := by simpa [pointOk, h] using hk
      exact writeThenRead_inOrder hf _ (w := .eofTxW (k + 1)) hok hok rfl
    · obtain ⟨c, hcur⟩ := frame_of_sending h
      have hdeliver : deliver a = onRegs (fun n => { n with cur := none }) (emit (.txDone c) a) := by simp only [deliver, hcur]
      rw [hdeliver]
      exact endFrame_counted_inOrder (a := onRegs (fun n => { n with cur := none }) (emit (.txDone c) a)) hf (rule7_counted _)
        (show noUpdate a.node = true from noUpdate_of_sending h)

theorem afterEofRx_inOrder (cfg : Config.Params) {k : Nat} (hok : pointOk a.node (.eofRxR k) = true) (b : Bit) :
    EndsInOrder (afterEofRx cfg k b a) := by
  obtain ⟨hreceive, -, hlen⟩ := pointOk_eofRxR.1 hok
  unfold afterEofRx
  split
  · exact detect_inOrder hf _ (.inr hreceive)
  · split
    · rename_i hk
      exact blockAt_inOrder hf (pointOk_eofRxR.2 ⟨hreceive, hk, hlen⟩) rfl
    · exact endFrame_counted_inOrder (a := emit (.rxFrame a.node.rxId a.node.rxDlc a.node.rxData) a) hf (rule8_counted cfg _)
        (noUpdate_of_receiving hreceive)

theorem activeFlag_inOrder (h : inError a.node = true) {k : Nat} (hk : k < 6) : EndsInOrder (activeFlag k a) :=
  writeThenRead_inOrder hf _ (by simp [pointOk, h, hk]) (by simp [pointOk, h, hk]) rfl

theorem passiveFlag_inOrder (h : inError a.node = true) {k : Nat} (hk : k < 6) (first : Bool) : EndsInOrder (passiveFlag k first a) :=
  writeThenRead_inOrder hf _ (by simp [pointOk, h, hk]) (by simp [pointOk, h, hk]) rfl

theorem delimiterWait_inOrder (h : inError a.node = true) : EndsInOrder (delimiterWait a) := writeThenRead_inOrder hf _ h h rfl

theorem delimiterBit_inOrder (h : inError a.node = true) {k : Nat} (hk : k < 7) : EndsInOrder (delimiterBit k a) :=
  writeThenRead_inOrder hf _ (by simp [pointOk, h, hk]) (by simp [pointOk, h, hk]) rfl

theorem nextActive_inOrder (h : inError a.node = true) (k : Nat) : EndsInOrder (nextActive k a) := by
  unfold nextActive
  split
  · rename_i hk; exact activeFlag_inOrder hf h hk
  · exact delimiterWait_inOrder hf h

theorem afterWait_inOrder (h : inError a.node = true) (b : Bit) : EndsInOrder (afterWait b a) := by
  cases b with
  | dominant => exact delimiterWait_inOrder hf h
  | recessive => exact delimiterBit_inOrder hf h (by decide)

end After

section Stops

variable {a : Act} (hnode : nodeOk true a.node = true) (hfault : a.fault = none) (h : inError a.node = true)
include hnode hfault h

theorem afterActive_inOrder (cfg : Config.Params) (k : Nat) (b : Bit) : EndsInOrder (afterActive cfg k b a) := by
  cases b with
  | dominant => exact nextActive_inOrder (.inl hfault) h k
  | recessive =>
    refine andThen_inOrder hnode hfault (rule45_counted cfg a) fun b hb hf => ?_
    obtain ⟨_, _, _, _, rfl⟩ := hb
    exact nextActive_inOrder hf h k

theorem afterPassive_inOrder (cfg : Config.Params) (k : Nat) (first : Bool) (b : Bit) :
    EndsInOrder (afterPassive cfg k first b a) := by
  unfold afterPassive
  split
  · split
    · refine andThen_inOrder hnode hfault (addRec_counted cfg 8 a) fun b hb hf => ?_
      obtain ⟨_, _, _, _, rfl⟩ := hb
      exact passiveFlag_inOrder hf h (by decide) false
    · exact passiveFlag_inOrder (.inl hfault) h (by decide) false
  · split
    · rename_i hk; exact passiveFlag_inOrder (.inl hfault) h hk false
    · exact delimiterWait_inOrder (.inl hfault) h

theorem afterDelimiter_inOrder (cfg : Config.Params) (k : Nat) : EndsInOrder (afterDelimiter cfg k a) := by
  unfold afterDelimiter
  split
  · rename_i hk; exact delimiterBit_inOrder (.inl hfault) h hk
  · refine andThen_inOrder hnode hfault (applyErrorUpdate_counted cfg a) fun b _ hf => ?_
    exact enterIntermission_inOrder (a := onRegs closeError b) hf rfl

end Stops

/-! ### A whole step (R76) -/

/-- From a read point that fits the node's registers. -/
theorem fromRead_inOrder (cfg : Config.Params) (prev b : Bit) {a : Act} {p : Point} (hfault : a.fault = none)
    (hpos : a.node.pos = some p) (hok : pointOk a.node p = true) (hop : pointOp p = .read) :
    EndsInOrder (fromRead cfg p prev b a) := by
  have hf : FaultAllowed a.fault := .inl hfault
  have hnode : nodeOk true a.node = true := nodeOk_iff.2 ⟨p, hpos, hok, fun _ => hop⟩
  cases p <;> dsimp only [fromRead]
  case intR k => exact afterIntermission_inOrder hf (Bool.and_eq_true_iff.1 hok).1 k b
  case susR k => exact afterSuspend_inOrder hf (Bool.and_eq_true_iff.1 hok).1 k b
  case idleR => exact afterIdle_inOrder hf hok b
  case idleSofR =>
    obtain ⟨hsend, hdata⟩ := Bool.and_eq_true_iff.1 hok
    exact arbIter_inOrder hf (.inl hsend) (List.isEmpty_iff.1 hdata) 0
  case txSR f i => exact afterTxStuff_inOrder hf hok prev b
  case txR f i sent => exact afterTxBit_inOrder hf hok b
  case arbRxSR i => exact afterRxStuff_inOrder hf (pointOk_arbRxR.1 hok).1 (next := .arbRxR i) hok rfl prev b
  case arbRxR i =>
    obtain ⟨hreceive, -, hdata⟩ := pointOk_arbRxR.1 hok
    exact arbIter_inOrder (a := onRegs (shiftId b) a) hf (.inr hreceive) hdata (i + 1)
  case dlcRxSR k => exact afterRxStuff_inOrder hf (pointOk_dlcRxR.1 hok).1 (next := .dlcRxR k) hok rfl prev b
  case dlcRxR k =>
    obtain ⟨hreceive, -, hdata⟩ := pointOk_dlcRxR.1 hok
    exact dlcRx_inOrder (a := onRegs (shiftDlc b) a) hf hreceive hdata (k + 1)
  case dataRxSR j k acc =>
    exact afterRxStuff_inOrder hf (pointOk_dataRxR (acc := acc).1 hok).1 (next := .dataRxR j k acc) hok rfl prev b
  case dataRxR j k acc => exact afterDataBit_inOrder hf hok b
  case eofTxR k => exact afterEofTx_inOrder hf (Bool.and_eq_true_iff.1 hok).1 k b
  case eofRxR k => exact afterEofRx_inOrder hf cfg hok b
  case errAfR k => exact afterActive_inOrder hnode hfault (Bool.and_eq_true_iff.1 hok).1 cfg k b
  case errPfR k first => exact afterPassive_inOrder hnode hfault (Bool.and_eq_true_iff.1 hok).1 cfg k first b
  case errD1R => exact afterWait_inOrder hf hok b
  case errD2R k => exact afterDelimiter_inOrder hnode hfault (Bool.and_eq_true_iff.1 hok).1 cfg k
  all_goals cases hop

/-- From a write point that fits the node's registers: the read that follows fits them too. -/
theorem fromWrite_inOrder {a : Act} {p : Point} {b : Bit} (hf : FaultAllowed a.fault) (hok : pointOk a.node p = true)
    (hop : pointOp p = .write b) : EndsInOrder (fromWrite p a) := by
  cases p
  case txSW f i c => exact txIter_inOrder hf hok
  case intW | susW | idleSofW | txW | eofTxW | errAfW | errPfW | errD1W | errD2W => exact blockAt_inOrder hf hok rfl
  all_goals cases hop

theorem readStep_inOrder (cfg : Config.Params) {n : Node} (hok : nodeOk true n = true) (hop : nodeOp n = some .read) (b : Bit) :
    EndsInOrder (readStep cfg n b) := by
  obtain ⟨p, hpos, hp, -⟩ := nodeOk_iff.1 hok
  simp only [nodeOp, hpos, Option.map_some, Option.some.injEq] at hop
  simp only [readStep, hpos]
  exact fromRead_inOrder cfg _ b rfl hpos ((pointOk_trackRead b n p).trans hp) hop

theorem writeStep_inOrder {n : Node} (hok : nodeOk true n = true) {b : Bit} (hop : nodeOp n = some (.write b)) :
    EndsInOrder (writeStep n) := by
  obtain ⟨p, hpos, hp, -⟩ := nodeOk_iff.1 hok
  simp only [nodeOp, hpos, Option.map_some, Option.some.injEq] at hop
  simp only [writeStep, hpos]
  exact fromWrite_inOrder (.inl rfl) hp hop

end Sys2Proof.Machine
end

section
/-! Proofs of the family `43_protocol_fsm.md`, the invariant of a run of host commands: every bit period and every command keeps it (R35,
R75, R123, R125, R143, R155). -/

namespace Sys2Proof.Machine

/-! ### What the host and the callbacks send are commands (R143, R155; log 1) -/

theorem noWords_eq_instr {ws : List Word} {i j : Instr} (h : noWords ws i = .instr j) : j = i := by
  unfold noWords at h
  split at h <;> cases h
  rfl

theorem scriptWords_eq_instr {ws : List Word} {k : List RawOp → Instr} {j : Instr} (h : scriptWords ws k = .instr j) :
    ∃ script, j = k script := by
  unfold scriptWords at h
  split at h
  · split at h
    · split at h <;> cases h
      exact ⟨_, rfl⟩
    · cases h
  · cases h

theorem decodeHeader_isHostCommand {w : Word} {ops : List Word} {i : Instr} (h : decodeHeader w ops = .instr i) :
    isHostCommand i = true := by
  unfold decodeHeader at h
  split at h
  -- the reserved opcodes
  case h_1 | h_11 | h_12 | h_13 => cases h; rfl
  case h_3 =>
    obtain ⟨script, rfl⟩ := scriptWords_eq_instr (mustBeZero_eq_instr.1 h).2
    rfl
  case h_6 | h_7 =>
    have hops := (mustBeZero_eq_instr.1 h).2
    split at hops <;> cases hops
    rfl
  -- the commands without operand words
  all_goals
    obtain rfl := noWords_eq_instr (mustBeZero_eq_instr.1 h).2
    rfl

/-- The words of a command spell a host command (R67). -/
theorem decode_isHostCommand {c : Command} {i : Instr} (h : decode (.command c) = .instr i) : isHostCommand i = true := by
  cases c with
  | nil => cases h
  | cons w ops => exact decodeHeader_isHostCommand h

/-! ### The participants of a run (R35, R123, R125) -/

/-- A participant is in order: a node stands at a point that fits its registers, or its registers are free (R125). -/
def PartOk (cfg : Config.Params) (active : Bool) : Participant → Prop
  | .node n => nodeOk active n = true ∨ (active = true ∧ isFree cfg n = true ∧ n.pos.isSome = true)
  | .raw _ => True

theorem raw_partOk {cfg : Config.Params} {active : Bool} (r : Raw) : PartOk cfg active (.raw r) := trivial

/-- Every participant is in order. -/
def PartsOk (s : State) : Prop := ∀ p ∈ s.participants, PartOk s.cfg s.active p

theorem partsOk_iff (s : State) : allNodes (nodeOkOrFree s) s = true ↔ PartsOk s := by
  rw [allNodes, List.all_eq_true]
  refine forall₂_congr fun p _ => ?_
  cases p with
  | node n => simp [PartOk, nodeOkOrFree, and_assoc]
  | raw r => simp [PartOk]

theorem hostInv_iff (s : State) : HostInv s = true ↔ hostDriven s = true ∧ PartsOk s ∧ FaultAllowed s.fault := by
  simp only [HostInv, Bool.and_eq_true, partsOk_iff, noProgrammerError, FaultAllowed, Bool.or_eq_true, beq_iff_eq, and_assoc]

theorem FaultAllowed.laterFault {first second : Option FaultReason} (h : FaultAllowed first) (g : FaultAllowed second) :
    FaultAllowed (laterFault first second) := by
  cases second with
  | none => exact h
  | some r => exact g

/-! ### A round of turns (R75) -/

/-- A turn that leaves the participant in order and raises no programmer error. -/
structure TurnOk (cfg : Config.Params) (t : Turn) : Prop where
  part : PartOk cfg true t.part
  fault : FaultAllowed t.fault

/-- If each turn is in order, so is the round. -/
theorem allTurns_ok {cfg : Config.Params} {turn : Participant → Bit → Turn} {ps : List Participant}
    (h : ∀ p ∈ ps, ∀ b, TurnOk cfg (turn p b)) (bus : Bit) :
    (∀ p ∈ (allTurns turn ps bus).parts, PartOk cfg true p) ∧ FaultAllowed (allTurns turn ps bus).fault := by
  induction ps generalizing bus with
  | nil => exact ⟨fun p hp => (List.not_mem_nil hp).elim, .inl rfl⟩
  | cons q rest ih =>
    have hq := h q List.mem_cons_self bus
    obtain ⟨hparts, hfault⟩ := ih (fun p hp => h p (List.mem_cons_of_mem q hp)) (turn q bus).bus
    refine ⟨fun p hp => ?_, hq.fault.laterFault hfault⟩
    obtain rfl | hp := List.mem_cons.1 hp
    · exact hq.part
    · exact hparts p hp

/-- A round on an active bus whose turns are in order keeps the invariant. -/
theorem applyRound_hostInv {turn : Participant → Bit → Turn} {s : State} (hactive : s.active = true)
    (hplaced : hostDriven s = true) (hfault : FaultAllowed s.fault) (h : ∀ p ∈ s.participants, ∀ b, TurnOk s.cfg (turn p b)) :
    HostInv (applyRound turn s) = true := by
  obtain ⟨hparts, hround⟩ := allTurns_ok h s.busState
  refine (hostInv_iff _).2 ⟨?_, ?_, ?_⟩
  · simpa only [hostDriven, applyRound_placed] using hplaced
  · simpa only [PartsOk, applyRound_participants, applyRound_cfg, applyRound_active, hactive] using hparts
  · rw [applyRound_fault]
    exact hfault.laterFault hround

section Turns

variable {cfg : Config.Params}

theorem idleTurn_ok {p : Participant} (h : PartOk cfg true p) (bus : Bit) : TurnOk cfg (idleTurn p bus) := ⟨h, .inl rfl⟩

theorem nodeTurn_ok {a : Act} (h : EndsInOrder a) (bus : Bit) : TurnOk cfg (nodeTurn a bus) := ⟨.inl h.node, h.fault⟩

/-- A node whose registers are not free stands at a point that fits them. -/
theorem nodeOk_of_partOk {n : Node} (h : PartOk cfg true (.node n)) (hfree : ¬ isFree cfg n = true) : nodeOk true n = true :=
  h.resolve_right fun hn => hfree hn.2.1

theorem isSome_pos_of_partOk {n : Node} (h : PartOk cfg true (.node n)) : n.pos.isSome = true := by
  obtain h | ⟨-, -, h⟩ := h
  · obtain ⟨p, hpos, -⟩ := nodeOk_iff.1 h
    rw [hpos]; rfl
  · exact h

theorem writeTurn_ok (period : Nat) {p : Participant} (h : PartOk cfg true p) (bus : Bit) :
    TurnOk cfg (writeTurn cfg period p bus) := by
  cases p with
  | node n =>
    simp only [writeTurn, nodeWriteTurn]
    split
    · exact idleTurn_ok h bus
    · split
      · exact ⟨h, .inl rfl⟩
      · rename_i hfree
        split
        · rename_i b hop
          exact nodeTurn_ok (writeStep_inOrder (nodeOk_of_partOk h hfree) hop) _
        · exact idleTurn_ok h bus
        · exact idleTurn_ok h bus
  | raw r =>
    simp only [writeTurn, rawWriteTurn]
    split
    · exact idleTurn_ok h bus
    · split <;> exact idleTurn_ok (raw_partOk _) _

/-- Under `havoc` the registers of a node that is BusOff at the end of its step become free (R125). -/
theorem freed_ok (period : Nat) {a : Act} (hpart : PartOk cfg true (.node a.node)) (hfault : FaultAllowed a.fault) :
    PartOk cfg true (.node (freed cfg period a).node) ∧ FaultAllowed (freed cfg period a).fault := by
  unfold freed
  split
  · rename_i hfree
    exact ⟨.inr ⟨rfl, hfree, by simpa [freeNode] using isSome_pos_of_partOk hpart⟩, hfault⟩
  · exact ⟨hpart, hfault⟩

theorem ruledRead_ok {n : Node} {op : BusOp} (h : PartOk cfg true (.node n)) (hop : nodeOp n = some op) (bus : Bit) :
    PartOk cfg true (.node (ruledRead cfg n op bus).node) ∧ FaultAllowed (ruledRead cfg n op bus).fault := by
  unfold ruledRead
  split
  · exact ⟨h, .inl rfl⟩
  · rename_i hfree
    split
    · obtain ⟨hnode, hfault⟩ := readStep_inOrder cfg (nodeOk_of_partOk h hfree) hop bus
      exact ⟨.inl hnode, hfault⟩
    · exact ⟨h, .inl rfl⟩

theorem readTurn_ok (period : Nat) {p : Participant} (h : PartOk cfg true p) (bus : Bit) :
    TurnOk cfg (readTurn cfg period p bus) := by
  cases p with
  | node n =>
    simp only [readTurn, nodeReadTurn]
    split
    · exact idleTurn_ok h bus
    · split
      · rename_i op hop
        obtain ⟨hpart, hfault⟩ := ruledRead_ok h hop bus
        obtain ⟨hpart, hfault⟩ := freed_ok period hpart hfault
        exact ⟨hpart, hfault⟩
      · exact idleTurn_ok h bus
  | raw r =>
    simp only [readTurn, rawReadTurn]
    split
    · exact idleTurn_ok h bus
    · split <;> exact idleTurn_ok (raw_partOk _) _

/-- At activation a node that stands nowhere runs from the first line of BusIdle (R151). -/
theorem startTurn_ok {p : Participant} (h : PartOk cfg false p) (bus : Bit) : TurnOk cfg (startTurn p bus) := by
  cases p with
  | node n =>
    obtain h | ⟨h, -⟩ := h
    · cases hpos : n.pos with
      | none =>
        simp only [nodeOk, hpos, Bool.not_false, Bool.true_and] at h
        exact nodeTurn_ok (enterBusIdle_inOrder (.inl rfl) h) bus
      | some p => simp [nodeOk, hpos] at h
    · cases h
  | raw r => exact idleTurn_ok (raw_partOk _) bus

end Turns

/-! ### A bit period (R75) -/

theorem writePhase_hostInv {s : State} (hs : HostInv s = true) (hactive : s.active = true) : HostInv (writePhase s) = true := by
  obtain ⟨hplaced, hparts, hfault⟩ := (hostInv_iff s).1 hs
  refine applyRound_hostInv (s := { s with phase := .write, busState := .recessive }) hactive hplaced hfault fun p hp => ?_
  exact writeTurn_ok s.period (hactive ▸ hparts p hp)

theorem readPhase_hostInv {s : State} (hs : HostInv s = true) (hactive : s.active = true) : HostInv (readPhase s) = true := by
  obtain ⟨hplaced, hparts, hfault⟩ := (hostInv_iff s).1 hs
  refine applyRound_hostInv (s := { s with phase := .read }) hactive hplaced hfault fun p hp => ?_
  exact readTurn_ok s.period (hactive ▸ hparts p hp)

/-- The invariant does not speak of the host's batches, the period, the phase or the trace. -/
theorem hostInv_congr {s t : State} (hplaced : t.placed = s.placed) (hparts : t.participants = s.participants) (hcfg : t.cfg = s.cfg)
    (hactive : t.active = s.active) (hfault : t.fault = s.fault) (hs : HostInv s = true) : HostInv t = true := by
  rw [hostInv_iff] at hs ⊢
  simpa only [hostDriven, PartsOk, hplaced, hparts, hcfg, hactive, hfault] using hs

theorem runPeriod_hostInv {s : State} (hs : HostInv s = true) (hactive : s.active = true) : HostInv (runPeriod s) = true := by
  have hwrite : (writePhase s).active = true := by simpa [writePhase] using hactive
  exact hostInv_congr (by simp [runPeriod]) (by simp [runPeriod]) (by simp [runPeriod]) (by simp [runPeriod]) (by simp [runPeriod])
    (readPhase_hostInv (writePhase_hostInv hs hactive) hwrite)

theorem nextPeriod_hostInv {s : State} (hs : HostInv s = true) : HostInv (nextPeriod s) = true :=
  hostInv_congr (nextPeriod_placed s) (nextPeriod_participants s) (nextPeriod_cfg s) (nextPeriod_active s) (nextPeriod_fault s) hs

theorem busPeriod_hostInv {s t : State} (h : exec .busPeriod s = .next t) (hs : HostInv s = true) : HostInv t = true := by
  obtain ⟨-, rfl⟩ | ⟨-, -, rfl⟩ | ⟨hactive, -, rfl⟩ := busPeriod_next h
  · exact hostInv_congr (closeBoundary_placed s) (closeBoundary_participants s) (closeBoundary_cfg s) (closeBoundary_active s)
      (closeBoundary_fault s) hs
  · exact nextPeriod_hostInv hs
  · exact runPeriod_hostInv (nextPeriod_hostInv hs) ((nextPeriod_active s).trans hactive)

/-! ### A host command (R143) -/

/-- The end of a node's step between periods, for a node that is still in order, and no programmer error. -/
theorem commit_hostInv {s : State} {u : Nat} {a : Act} (hs : HostInv s = true) (hpart : PartOk s.cfg s.active (.node a.node))
    (hfault : FaultAllowed a.fault) : HostInv (commit u a s) = true := by
  obtain ⟨hplaced, hparts, hs⟩ := (hostInv_iff s).1 hs
  refine (hostInv_iff _).2 ⟨?_, fun p hp => ?_, ?_⟩
  · simpa only [hostDriven, commit_placed] using hplaced
  · rw [commit_participants] at hp
    rw [commit_cfg, commit_active]
    obtain hp | rfl := List.mem_or_eq_of_mem_set hp
    · exact hparts p hp
    · exact hpart
  · rw [commit_fault]
    exact hs.laterFault hfault

theorem setNode_hostInv {s : State} {u : Nat} {n : Node} (hs : HostInv s = true) (hpart : PartOk s.cfg s.active (.node n)) :
    HostInv (setNode s u n) = true := by
  rw [← commit_actOf]
  exact commit_hostInv hs hpart (.inl rfl)

theorem nodeAt_partOk {s : State} (hs : HostInv s = true) {u : Nat} {n : Node} (hn : nodeAt s u = some n) :
    PartOk s.cfg s.active (.node n) := by
  obtain ⟨-, hparts, -⟩ := (hostInv_iff s).1 hs
  exact hparts _ (List.mem_of_getElem? (nodeAt_eq_some.1 hn))

theorem attachTo_hostInv {s : State} (p : Attached) (hs : HostInv s = true) (hstill : s.active = false) :
    HostInv (attachTo p s) = true := by
  obtain ⟨hplaced, hparts, hfault⟩ := (hostInv_iff s).1 hs
  refine (hostInv_iff _).2 ⟨hplaced, fun q hq => ?_, hfault⟩
  obtain hq | hq := List.mem_append.1 hq
  · exact hparts q hq
  · obtain rfl := List.mem_singleton.1 hq
    cases p with
    | node id => exact .inl (by simp [attachTo, answer, hstill]; rfl)
    | raw script => exact raw_partOk _

/-- SEED changes the counters and `st` of a node that stands nowhere yet (R150). -/
theorem seedStep_partOk {cfg : Config.Params} {n : Node} (h : PartOk cfg false (.node n)) (v w : Nat) :
    PartOk cfg false (.node (seedStep v w n).node) := by
  obtain h | ⟨h, -⟩ := h
  · rw [seedStep, updateState_eq]
    exact .inl h
  · cases h

theorem seedStep_fault (v w : Nat) (n : Node) : (seedStep v w n).fault = none := by
  rw [seedStep, updateState_eq]; rfl

theorem hostStep_hostInv {i : Instr} {s t : State} (h : HostStep s i t) (hs : HostInv s = true) : HostInv t = true := by
  cases h with
  | answered => exact hs
  | attached _ p still => exact attachTo_hostInv p hs still
  | started still =>
    obtain ⟨hplaced, hparts, hfault⟩ := (hostInv_iff s).1 hs
    exact applyRound_hostInv (s := { s with active := true }) rfl hplaced hfault fun p hp => startTurn_ok (still ▸ hparts p hp)
  | behaves uid handle n hn =>
    have hpart := nodeAt_partOk hs hn
    exact setNode_hostInv (n := { n with behavior := handleOf handle }) hs hpart
  | calls uid handle n hn =>
    have hpart := nodeAt_partOk hs hn
    exact setNode_hostInv (n := { n with busOffFunc := handleOf handle }) hs hpart
  | enqueued uid data f n hn =>
    have hpart := nodeAt_partOk hs hn
    exact setNode_hostInv (n := pushBack f n) hs hpart
  | seeded uid v w n hn still =>
    have hpart := nodeAt_partOk hs hn
    rw [still] at hpart
    exact commit_hostInv hs (still.symm ▸ seedStep_partOk hpart _ _) (.inl (seedStep_fault _ _ n))
  | tooWide =>
    obtain ⟨hplaced, hparts, -⟩ := (hostInv_iff s).1 hs
    exact (hostInv_iff _).2 ⟨hplaced, hparts, .inr rfl⟩
  | halts => exact hs

/-! ### A step (R141, R155) -/

/-- In a run of host commands the next packet is a command, and taking it keeps the invariant. -/
theorem fetch?_hostInv {s t : State} {p : Packet} (h : fetch? s = some (p, t)) (hs : HostInv s = true) :
    (∃ c, p = .command c) ∧ HostInv t = true := by
  obtain ⟨hplaced, hrest⟩ := (hostInv_iff s).1 hs
  obtain ⟨rest, hp, rfl⟩ | ⟨c, -, rfl, hc⟩ := fetch?_some h
  · simp only [hostDriven, hp, List.all_cons, Bool.and_eq_true] at hplaced
    refine ⟨?_, (hostInv_iff _).2 ⟨hplaced.2, hrest⟩⟩
    cases p with
    | command c => exact ⟨c, rfl⟩
    | operation ws => cases hplaced.1
  · refine ⟨⟨c, rfl⟩, ?_⟩
    obtain ⟨rest, -, rfl⟩ | ⟨rest, later, -, -, rfl⟩ := nextCommand?_some hc <;> exact hs

/-- Settles O58: a step runs a host command or a bit period, and each keeps the invariant. -/
theorem stepKeepsHostInv : Obligations.StepKeepsHostInv := by
  intro s t hs h
  obtain ⟨p, u, hf, hr⟩ | ⟨-, hr⟩ := step_next h
  · obtain ⟨⟨c, rfl⟩, hu⟩ := fetch?_hostInv hf hs
    obtain ⟨i, hi, hexec⟩ | ⟨-, rfl⟩ := runPacket_next hr
    · exact hostStep_hostInv (hostCommand_step (decode_isHostCommand hi) hexec) hu
    · exact hu
  · exact busPeriod_hostInv hr hs

end Sys2Proof.Machine
end

section
/-! Proofs of the family `43_protocol_fsm.md`, the protocol states a node's step leads to, and a free BusOff node (R102, R123, R125). -/

namespace Sys2Proof.Machine

/-! ### Where a step leads (R102, R123) -/

/-- A node that stands at a point stands in one of these protocol states. -/
def StandsIn (l : List Ps) (n : Node) : Prop := ∀ p, n.pos = some p → pointPs p ∈ l

/-- The protocol state in which a Transmitter sends a field (R108, R113, R114). -/
def fieldPs : Field → Ps
  | .identifier => .arbitration
  | .dlc => .dlc
  | .data => .data

/-- The points of a Transmitter's bit lie in the state of its field. -/
theorem pointPs_txSW (f : Field) (i : Nat) (b : Bit) : pointPs (.txSW f i b) = fieldPs f := by cases f <;> rfl

theorem pointPs_txSR (f : Field) (i : Nat) : pointPs (.txSR f i) = fieldPs f := by cases f <;> rfl

theorem pointPs_txW (f : Field) (i : Nat) (b : Bit) : pointPs (.txW f i b) = fieldPs f := by cases f <;> rfl

theorem pointPs_txR (f : Field) (i : Nat) (b : Bit) : pointPs (.txR f i b) = fieldPs f := by cases f <;> rfl

section Lines

variable {l : List Ps}

theorem blockAt_standsIn {p : Point} (hp : pointPs p ∈ l) (a : Act) : StandsIn l (blockAt p a).node := by
  rintro q ⟨⟩
  exact hp

theorem wrote_standsIn {w r : Point} (hw : pointPs w ∈ l) (hr : pointPs r ∈ l) (b : Bit) (n : Node) :
    StandsIn l (wrote b w r n) := by
  rintro q ⟨⟩
  split <;> assumption

theorem checked_standsIn {sr r : Point} (hsr : pointPs sr ∈ l) (hr : pointPs r ∈ l) (n : Node) : StandsIn l (checked sr r n) := by
  rintro q ⟨⟩
  split <;> assumption

theorem writeThenRead_standsIn {w r : Point} (hw : pointPs w ∈ l) (hr : pointPs r ∈ l) (b : Bit) (a : Act) :
    StandsIn l (writeThenRead b w r a).node := by
  rw [writeThenRead_eq]
  exact wrote_standsIn hw hr b a.node

theorem enterBusIdle_standsIn (h : .busIdle ∈ l) (a : Act) : StandsIn l (enterBusIdle a).node := by
  rw [enterBusIdle_eq, idled]
  split
  · exact blockAt_standsIn (p := .idleR) h a
  · exact wrote_standsIn h h _ _

theorem receive_standsIn (h : .arbitration ∈ l) (a : Act) : StandsIn l (receive a).node := by
  rw [receive_eq]
  exact checked_standsIn h h _

theorem enterIntermission_standsIn (h : .intermission ∈ l) (a : Act) : StandsIn l (enterIntermission a).node := by
  rw [enterIntermission_eq]
  exact wrote_standsIn h h _ _

theorem detect_standsIn (h : .error ∈ l) (kind : ErrorKind) (a : Act) : StandsIn l (detect kind a).node := by
  rw [detect_eq_erred, erred_eq_saveError]
  split <;> exact wrote_standsIn h h _ _

theorem enterEof_standsIn (h : .eof ∈ l) (a : Act) : StandsIn l (enterEof a).node := by
  cases hrole : a.node.role with
  | transmitter => rw [enterEof_of_transmitter hrole]; exact wrote_standsIn h h _ _
  | receiver => rw [enterEof_of_receiver hrole]; exact blockAt_standsIn h a

theorem dataByte_standsIn (hdata : .data ∈ l) (heof : .eof ∈ l) (j : Nat) (a : Act) : StandsIn l (dataByte j a).node := by
  unfold dataByte
  split
  · rw [dataCheck_eq]; exact checked_standsIn hdata hdata _
  · exact enterEof_standsIn heof a

end Lines

/-! ### The loops of a frame: a programmer error leaves the node where it stands (log 18) -/

section Loops

variable {l : List Ps} {a : Act} (ha : StandsIn l a.node)
include ha

theorem txSend_standsIn {f : Field} (h : fieldPs f ∈ l) (i : Nat) : StandsIn l (txSend f i a).node := by
  unfold txSend
  split
  · exact ha
  · rename_i b _
    exact writeThenRead_standsIn (pointPs_txW f i b ▸ h) (pointPs_txR f i b ▸ h) b a

theorem txCheck_standsIn {f : Field} (h : fieldPs f ∈ l) (i : Nat) : StandsIn l (txCheck f i a).node := by
  unfold txCheck
  split
  · exact blockAt_standsIn (pointPs_txSR f i ▸ h) a
  · exact txSend_standsIn ha h i

theorem txIter_standsIn {f : Field} (h : fieldPs f ∈ l) (i : Nat) : StandsIn l (txIter f i a).node := by
  by_cases hdue : a.node.writeTrk.count = 5
  · rw [txIter_of_due hdue]
    by_cases hst : a.node.st = .busOff
    · rw [writeBit_of_busOff hst]
      exact txCheck_standsIn (a := onRegs (trackWrite a.node.writeTrk.last.flip) a) ha h i
    · rw [writeBit_of_alive hst]
      exact blockAt_standsIn (pointPs_txSW f i _ ▸ h) _
  · rw [txIter_of_undue hdue]
    exact txCheck_standsIn ha h i

theorem dataTx_standsIn (hdata : .data ∈ l) (heof : .eof ∈ l) (i : Nat) : StandsIn l (dataTx i a).node := by
  unfold dataTx
  split
  · exact txIter_standsIn (f := .data) ha hdata i
  · exact enterEof_standsIn heof a

theorem enterData_standsIn (hdata : .data ∈ l) (heof : .eof ∈ l) : StandsIn l (enterData a).node := by
  cases hrole : a.node.role with
  | transmitter => rw [enterData_of_transmitter hrole]; exact dataTx_standsIn ha hdata heof 15
  | receiver => rw [enterData_of_receiver hrole]; exact dataByte_standsIn hdata heof 0 a

theorem dlcTx_standsIn (hdlc : .dlc ∈ l) (hdata : .data ∈ l) (heof : .eof ∈ l) (i : Nat) : StandsIn l (dlcTx i a).node := by
  unfold dlcTx
  split
  · exact txIter_standsIn (f := .dlc) ha hdlc i
  · exact enterData_standsIn ha hdata heof

theorem dlcRx_standsIn (hdlc : .dlc ∈ l) (hdata : .data ∈ l) (heof : .eof ∈ l) (k : Nat) : StandsIn l (dlcRx k a).node := by
  unfold dlcRx
  split
  · rw [dlcCheck_eq]; exact checked_standsIn hdlc hdlc _
  · exact enterData_standsIn ha hdata heof

/-- The first line of DLC makes a bus call of DLC (R113). -/
theorem enterDlc_standsIn (hdlc : .dlc ∈ l) : StandsIn l (enterDlc a).node := by
  cases hrole : a.node.role with
  | transmitter =>
    rw [enterDlc_of_transmitter hrole, dlcTx_first]
    exact txIter_standsIn (f := .dlc) ha hdlc 11
  | receiver =>
    rw [enterDlc_of_receiver hrole, dlcRx_of_lt (by decide)]
    exact checked_standsIn hdlc hdlc _

theorem arbIter_standsIn (harb : .arbitration ∈ l) (hdlc : .dlc ∈ l) (i : Nat) : StandsIn l (arbIter i a).node := by
  unfold arbIter
  split
  · split
    · exact txIter_standsIn (f := .identifier) ha harb i
    · rw [arbCheck_eq]; exact checked_standsIn harb harb _
  · exact enterDlc_standsIn ha hdlc

/-- Arbitration begins with a bus call of its own (R108). -/
theorem enterArbitration_standsIn (h : .arbitration ∈ l) : StandsIn l (enterArbitration a).node := by
  unfold enterArbitration
  cases hrole : a.node.role with
  | transmitter =>
    rw [arbIter_first_of_transmitter hrole]
    exact txIter_standsIn (f := .identifier) ha h 0
  | receiver =>
    rw [arbIter_of_receiver hrole (by decide)]
    exact checked_standsIn h h _

end Loops

/-! ### The rows of the table (R102) -/

/-- A node may stay in its state. -/
theorem mem_nextPs_self (ps : Ps) : ps ∈ nextPs ps := by cases ps <;> decide

/-- A bit is written and read back in one state. -/
theorem writeThenRead_stays (w r : Point) (h : pointPs r = pointPs w) (b : Bit) (a : Act) :
    StandsIn (nextPs (pointPs w)) (writeThenRead b w r a).node :=
  writeThenRead_standsIn (mem_nextPs_self _) (h ▸ mem_nextPs_self _) b a

/-- A Transmitter's error is detected in each field. -/
theorem error_mem_nextPs_fieldPs (f : Field) : .error ∈ nextPs (fieldPs f) := by cases f <;> decide

theorem afterIntermission_standsIn (k : Nat) (b : Bit) (a : Act) :
    StandsIn (nextPs .intermission) (afterIntermission k b a).node := by
  have hbit : ∀ k, StandsIn (nextPs .intermission) (intermissionBit k a).node := fun k =>
    writeThenRead_stays (.intW k) (.intR k) rfl _ a
  unfold afterIntermission
  split
  · exact hbit 0
  · split
    · exact hbit (k + 1)
    · unfold endIntermission
      split
      · exact writeThenRead_standsIn (by decide) (by decide) _ a
      · exact enterBusIdle_standsIn (by decide) a

theorem afterSuspend_standsIn (k : Nat) (b : Bit) (a : Act) :
    StandsIn (nextPs .suspendTransmission) (afterSuspend k b a).node := by
  unfold afterSuspend
  split
  · exact receive_standsIn (by decide) a
  · split
    · exact writeThenRead_stays (.susW (k + 1)) (.susR (k + 1)) rfl _ a
    · exact enterBusIdle_standsIn (by decide) a

theorem afterIdle_standsIn (b : Bit) (a : Act) : StandsIn (nextPs .busIdle) (afterIdle b a).node := by
  cases b with
  | dominant => exact receive_standsIn (by decide) a
  | recessive => exact enterBusIdle_standsIn (by decide) a

theorem afterRxStuff_standsIn {ps : Ps} {next : Point} (hnext : pointPs next = ps) (herror : .error ∈ nextPs ps) (prev b : Bit)
    (a : Act) : StandsIn (nextPs ps) (afterRxStuff next prev b a).node := by
  unfold afterRxStuff
  split
  · exact detect_standsIn herror _ a
  · exact blockAt_standsIn (hnext ▸ mem_nextPs_self _) a

theorem afterDataBit_standsIn (j k : Nat) (acc : Byte) (b : Bit) (a : Act) :
    StandsIn (nextPs .data) (afterDataBit j k acc b a).node := by
  unfold afterDataBit
  split
  · rw [dataCheck_eq]
    have hdata : Ps.data ∈ nextPs .data := mem_nextPs_self .data
    exact checked_standsIn (sr := .dataRxSR j (k + 1) _) (r := .dataRxR j (k + 1) _) hdata hdata _
  · exact dataByte_standsIn (by decide) (by decide) (j + 1) _

theorem endFrame_standsIn (a : Act) : StandsIn (nextPs .eof) (endFrame a).node := enterIntermission_standsIn (by decide) _

theorem afterEofTx_standsIn (k : Nat) (b : Bit) (a : Act) : StandsIn (nextPs .eof) (afterEofTx k b a).node := by
  unfold afterEofTx
  split
  · exact detect_standsIn (by decide) _ a
  · split
    · exact writeThenRead_stays (.eofTxW (k + 1)) (.eofTxR (k + 1)) rfl _ a
    · exact endFrame_standsIn _

theorem afterEofRx_standsIn (cfg : Config.Params) (k : Nat) (b : Bit) (a : Act) :
    StandsIn (nextPs .eof) (afterEofRx cfg k b a).node := by
  unfold afterEofRx
  split
  · exact detect_standsIn (by decide) _ a
  · split
    · exact blockAt_standsIn (p := .eofRxR (k + 1)) (mem_nextPs_self .eof) a
    · exact endFrame_standsIn _

theorem pos_arbitrationLost (n : Node) : (arbitrationLost n).pos = n.pos := by
  cases hcur : n.cur <;> simp only [arbitrationLost, pushback, hcur, pushFront]

section FromTransmitter

variable {f : Field} {a : Act} (ha : StandsIn (nextPs (fieldPs f)) a.node)
include ha

theorem afterTxStuff_standsIn (i : Nat) (prev b : Bit) : StandsIn (nextPs (fieldPs f)) (afterTxStuff f i prev b a).node := by
  unfold afterTxStuff
  split
  · exact detect_standsIn (error_mem_nextPs_fieldPs f) _ a
  · exact txSend_standsIn ha (mem_nextPs_self _) i

theorem afterTxBit_standsIn (i : Nat) (sent b : Bit) : StandsIn (nextPs (fieldPs f)) (afterTxBit f i sent b a).node := by
  have herror := detect_standsIn (error_mem_nextPs_fieldPs f) .bit a
  unfold afterTxBit
  cases f <;> dsimp only <;> split
  case identifier.isTrue => exact arbIter_standsIn (a := onRegs (shiftId b) a) ha (by decide) (by decide) (i + 1)
  case identifier.isFalse =>
    refine arbIter_standsIn (a := onRegs (fun n => arbitrationLost (shiftId b n)) a) ?_ (by decide) (by decide) (i + 1)
    exact fun p hp => ha p ((pos_arbitrationLost (shiftId b a.node)).symm.trans hp)
  case dlc.isTrue => exact dlcTx_standsIn ha (by decide) (by decide) (by decide) (i + 1)
  case data.isTrue => exact dataTx_standsIn ha (by decide) (by decide) (i + 1)
  all_goals exact herror

end FromTransmitter

section FromError

variable {a : Act}

/-- A counter rule leaves the node where it stands, and if it does not stop it, the node runs on. -/
theorem andThen_standsIn {b : Act} {f : Act → Act} (ha : StandsIn (nextPs .error) a.node) (h : CountedOrStopped a b)
    (hf : StandsIn (nextPs .error) (f b).node) : StandsIn (nextPs .error) (andThen b f).node := by
  unfold andThen
  split
  · exact hf
  · obtain ⟨_, _, _, _, rfl⟩ | rfl := h <;> exact ha

theorem nextActive_standsIn (k : Nat) (a : Act) : StandsIn (nextPs .error) (nextActive k a).node := by
  unfold nextActive
  split
  · exact writeThenRead_stays (.errAfW (k + 1)) (.errAfR (k + 1)) rfl _ a
  · exact writeThenRead_stays .errD1W .errD1R rfl _ a

theorem passiveFlag_standsIn (k : Nat) (first : Bool) (a : Act) : StandsIn (nextPs .error) (passiveFlag k first a).node :=
  writeThenRead_stays (.errPfW k first) (.errPfR k first) rfl _ a

theorem afterWait_standsIn (b : Bit) (a : Act) : StandsIn (nextPs .error) (afterWait b a).node := by
  cases b with
  | dominant => exact writeThenRead_stays .errD1W .errD1R rfl _ a
  | recessive => exact writeThenRead_stays (.errD2W 0) (.errD2R 0) rfl _ a

variable (ha : StandsIn (nextPs .error) a.node)
include ha

theorem afterActive_standsIn (cfg : Config.Params) (k : Nat) (b : Bit) : StandsIn (nextPs .error) (afterActive cfg k b a).node := by
  cases b with
  | dominant => exact nextActive_standsIn k a
  | recessive => exact andThen_standsIn ha (rule45_counted cfg a) (nextActive_standsIn k _)

theorem afterPassive_standsIn (cfg : Config.Params) (k : Nat) (first : Bool) (b : Bit) :
    StandsIn (nextPs .error) (afterPassive cfg k first b a).node := by
  unfold afterPassive
  split
  · split
    · exact andThen_standsIn ha (addRec_counted cfg 8 a) (passiveFlag_standsIn 0 false _)
    · exact passiveFlag_standsIn 0 false a
  · split
    · exact passiveFlag_standsIn (k + 1) false a
    · exact writeThenRead_stays .errD1W .errD1R rfl _ a

theorem afterDelimiter_standsIn (cfg : Config.Params) (k : Nat) : StandsIn (nextPs .error) (afterDelimiter cfg k a).node := by
  unfold afterDelimiter
  split
  · exact writeThenRead_stays (.errD2W (k + 1)) (.errD2R (k + 1)) rfl _ a
  · exact andThen_standsIn ha (applyErrorUpdate_counted cfg a) (enterIntermission_standsIn (by decide) _)

end FromError

/-! ### A whole step (R102) -/

/-- From a point the node stands at, a completed read leads where the table does. -/
theorem fromRead_standsIn (cfg : Config.Params) (prev b : Bit) {a : Act} {p : Point} (hpos : a.node.pos = some p) :
    StandsIn (nextPs (pointPs p)) (fromRead cfg p prev b a).node := by
  have ha : StandsIn (nextPs (pointPs p)) a.node := by
    intro q hq
    obtain rfl : p = q := Option.some.inj (hpos.symm.trans hq)
    exact mem_nextPs_self _
  cases p <;> dsimp only [fromRead]
  case intR k => exact afterIntermission_standsIn k b a
  case susR k => exact afterSuspend_standsIn k b a
  case idleR => exact afterIdle_standsIn b a
  case idleSofR => exact enterArbitration_standsIn ha (l := nextPs .busIdle) (by decide)
  case txSR f i =>
    rw [pointPs_txSR] at ha ⊢
    exact afterTxStuff_standsIn ha i prev b
  case txR f i sent =>
    rw [pointPs_txR] at ha ⊢
    exact afterTxBit_standsIn ha i sent b
  case arbRxSR i => exact afterRxStuff_standsIn (ps := .arbitration) rfl (by decide) prev b a
  case arbRxR i => exact arbIter_standsIn (a := onRegs (shiftId b) a) ha (l := nextPs .arbitration) (by decide) (by decide) (i + 1)
  case dlcRxSR k => exact afterRxStuff_standsIn (ps := .dlc) rfl (by decide) prev b a
  case dlcRxR k =>
    exact dlcRx_standsIn (a := onRegs (shiftDlc b) a) ha (l := nextPs .dlc) (by decide) (by decide) (by decide) (k + 1)
  case dataRxSR j k acc => exact afterRxStuff_standsIn (ps := .data) rfl (by decide) prev b a
  case dataRxR j k acc => exact afterDataBit_standsIn j k acc b a
  case eofTxR k => exact afterEofTx_standsIn k b a
  case eofRxR k => exact afterEofRx_standsIn cfg k b a
  case errAfR k => exact afterActive_standsIn ha cfg k b
  case errPfR k first => exact afterPassive_standsIn ha cfg k first b
  case errD1R => exact afterWait_standsIn b a
  case errD2R k => exact afterDelimiter_standsIn ha cfg k
  -- a node blocked on a write completes no read
  all_goals exact ha

/-- A completed write leads to the read that follows, in the same state. -/
theorem fromWrite_standsIn {a : Act} {p : Point} (hpos : a.node.pos = some p) : StandsIn [pointPs p] (fromWrite p a).node := by
  have ha : StandsIn [pointPs p] a.node := by
    intro q hq
    obtain rfl : p = q := Option.some.inj (hpos.symm.trans hq)
    exact List.mem_singleton_self _
  cases p <;> dsimp only [fromWrite]
  case txSW f i b =>
    rw [pointPs_txSW] at ha ⊢
    exact txIter_standsIn ha (List.mem_singleton_self _) i
  case txW f i sent =>
    refine blockAt_standsIn (List.mem_singleton.2 ?_) a
    rw [pointPs_txR, pointPs_txW]
  case intW | susW | idleSofW | eofTxW | errAfW | errPfW | errD1W | errD2W =>
    exact blockAt_standsIn (List.mem_singleton_self _) a
  -- a node blocked on a read completes no write
  all_goals exact ha

/-- Settles O50: each blocking point leads where its row of the table says. -/
theorem transitionTable : Obligations.TransitionTable := by
  intro cfg n b p q hpos
  simp only [readStep, writeStep, hpos]
  exact ⟨fun hq => fromRead_standsIn cfg n.readTrk.last b (a := actOf (trackRead b n)) hpos q hq,
    fun hq => List.mem_singleton.1 (fromWrite_standsIn (a := actOf n) hpos q hq)⟩

/-! ### A BusOff node under `havoc` (R125; log 13) -/

/-- A free position is a read point. -/
theorem pointOp_freePos (p : Point) : pointOp (freePos p) = .read := by
  unfold freePos
  split
  · assumption
  · rfl

/-- Where no phase is missed, the registers of a BusOff node after a period are free. -/
theorem afterTurns_of_free {cfg : Config.Params} {n : Node} (hfree : isFree cfg n = true) (hmiss : cfg.missedPhases = false)
    (hpos : n.pos.isSome = true) (period : Nat) (bus : Bit) :
    afterTurns cfg period bus (.node n) = .node (freeNode (Config.havoc period n.uid) n) := by
  obtain ⟨p, hp⟩ := Option.isSome_iff_exists.1 hpos
  have hop : nodeOp n = some (pointOp p) := by rw [nodeOp, hp]; rfl
  have hwrite : (writeTurn cfg period (.node n) .recessive).part = .node n := by
    simp only [writeTurn, nodeWriteTurn, missed_of_noMiss hmiss, Bool.false_eq_true, if_false, hfree, if_true]
    rfl
  rw [afterTurns, hwrite]
  simp only [readTurn, nodeReadTurn, missed_of_noMiss hmiss, Bool.false_eq_true, if_false, hop, ruledRead, hfree, if_true, nodeTurn,
    freed, actOf]

/-- Settles O27: the free registers are those R125 lists, and the free position is a read point. -/
theorem freeBusOffNode : Obligations.FreeBusOffNode := by
  intro s u n hrun hhavoc hmiss hu hst hpos
  have hfree : isFree s.cfg n = true := by simp [isFree, hhavoc, hst]
  have hpart := runPeriod_nextPeriod_getElem? hu
  rw [afterTurns_of_free hfree hmiss hpos] at hpart
  obtain ⟨p, hp⟩ := Option.isSome_iff_exists.1 hpos
  refine ⟨_, _, busPeriod_of_running hrun, hpart, hst, rfl, rfl, rfl, rfl, ?_, writtenBit_of_busOff _ _ hst, List.length_take_le 15 _⟩
  simp only [nodeOp, freeNode, hp, Option.map_some, pointOp_freePos]

end Sys2Proof.Machine
end

section
/-! Proofs of the family `43_protocol_fsm.md`, the operations on the protocol states of a node of an active bus, at each blocking point (R105
to R122; log 4). -/

namespace Sys2Proof.Machine

/-! ### From an operation to what the node runs (R73, R74, R76; log 4) -/

section Steps

variable {s : State} {uid : Word} {n : Node} (hn : nodeAt s uid.toNat = some n) (hactive : s.active = true)
include hn hactive

/-- A node at a read point of the state runs on with the bus bit. -/
theorem stateStep_of_read {ps : Ps} {p : Point} {b : Bit} {a : Act} (hp : n.pos = some p) (hps : pointPs p = ps)
    (hop : pointOp p = .read) (hb : s.busState = b)
    (ha : fromRead s.cfg p n.readTrk.last b (actOf { n with readTrk := track n.readTrk s.busState }) = a) :
    stateStep ps uid s = .next (commit uid.toNat a s) := by
  rw [stateStep_read ps hn hactive hp hps hop, ← ha, ← hb]

/-- A node elsewhere runs from the state's first line. -/
theorem stateStep_of_start {ps : Ps} {a : Act} (hin : isIn ps n = false) (ha : enterPs ps (actOf n) = a) :
    stateStep ps uid s = .next (commit uid.toNat a s) := by
  rw [stateStep_start ps hn hactive hin, ha]

end Steps

/-! ### Intermission and SuspendTransmission (R105, R106) -/

section Between

variable {k : Nat} {a : Act}

theorem intermissionBit_eq (k : Nat) (a : Act) :
    intermissionBit k a = { a with node := wrote .recessive (.intW k) (.intR k) a.node } := writeThenRead_eq _ _ _ a

theorem suspendBit_eq (k : Nat) (a : Act) :
    suspendBit k a = { a with node := wrote .recessive (.susW k) (.susR k) a.node } := writeThenRead_eq _ _ _ a

theorem afterIntermission_next (h : k + 1 < 3) : afterIntermission k .recessive a = intermissionBit (k + 1) a := if_pos h

theorem afterIntermission_end (h : 3 ≤ k + 1) : afterIntermission k .recessive a = endIntermission a := if_neg (Nat.not_lt.2 h)

theorem endIntermission_suspends (hst : a.node.st = .errorPassive) (hprev : a.node.prevRole = .transmitter) :
    endIntermission a = suspendBit 0 a := if_pos ⟨hst, hprev⟩

theorem endIntermission_idles (h : a.node.st ≠ .errorPassive ∨ a.node.prevRole = .receiver) :
    endIntermission a = enterBusIdle a := by
  refine if_neg fun ⟨hst, hprev⟩ => ?_
  obtain h | h := h
  · exact h hst
  · rw [hprev] at h; cases h

theorem afterSuspend_next (h : k + 1 < 8) : afterSuspend k .recessive a = suspendBit (k + 1) a := if_pos h

theorem afterSuspend_end (h : 8 ≤ k + 1) : afterSuspend k .recessive a = enterBusIdle a := if_neg (Nat.not_lt.2 h)

end Between

/-- Settles O41: a clause for each branch after a read, and the first lines. -/
theorem intermissionAndSuspend : Obligations.IntermissionAndSuspend := by
  intro s uid n _ hn hactive rfl
  refine ⟨fun k hp => stateStep_write .intermission hn hactive hp rfl rfl,
    fun k hp hb => stateStep_of_read hn hactive hp rfl rfl hb (intermissionBit_eq 0 _),
    fun k hp hb hk => stateStep_of_read hn hactive hp rfl rfl hb ((afterIntermission_next hk).trans (intermissionBit_eq _ _)),
    fun k hp hb hk hst hprev => stateStep_of_read hn hactive hp rfl rfl hb ?suspends,
    fun k hp hb hk h => stateStep_of_read hn hactive hp rfl rfl hb ?idles,
    fun hin => stateStep_of_start hn hactive hin (enterIntermission_eq _),
    fun k hp => stateStep_write .suspendTransmission hn hactive hp rfl rfl,
    fun k hp hb => stateStep_of_read hn hactive hp rfl rfl hb (receive_eq _),
    fun k hp hb hk => stateStep_of_read hn hactive hp rfl rfl hb ((afterSuspend_next hk).trans (suspendBit_eq _ _)),
    fun k hp hb hk => stateStep_of_read hn hactive hp rfl rfl hb ((afterSuspend_end hk).trans (enterBusIdle_eq _)),
    fun hin => stateStep_of_start hn hactive hin (suspendBit_eq 0 _)⟩
  case suspends => exact (afterIntermission_end hk).trans ((endIntermission_suspends hst hprev).trans (suspendBit_eq 0 _))
  case idles => exact (afterIntermission_end hk).trans ((endIntermission_idles h).trans (enterBusIdle_eq _))

/-! ### BusIdle (R107, R108) -/

/-- Settles O42: a clause for each read of an idle bus, and the SOF, whose read-back is not looked at. -/
theorem busIdleResult : Obligations.BusIdleResult := by
  intro s uid n _ hn hactive rfl
  exact ⟨fun hp hb => stateStep_of_read hn hactive hp rfl rfl hb (receive_eq _),
    fun hp hb => stateStep_of_read hn hactive hp rfl rfl hb (enterBusIdle_eq _),
    fun hp => stateStep_write .busIdle hn hactive hp rfl rfl,
    fun hp => stateStep_of_read hn hactive hp rfl rfl rfl rfl,
    fun hin => stateStep_of_start hn hactive hin (enterBusIdle_eq _)⟩

/-! ### A frame bit of a Transmitter (R96, R97, R109, R112) -/

section Tx

variable {s : State} {uid : Word} {n : Node} (hn : nodeAt s uid.toNat = some n) (hactive : s.active = true)
variable {f : Field} {i : Nat} {b : Bit}
include hn hactive

/-- After the stuff bit the same frame bit is tried again. -/
theorem stateStep_txSW (hp : n.pos = some (.txSW f i b)) :
    stateStep (fieldPs f) uid s = .next (commit uid.toNat (txIter f i (actOf n)) (writeBy n.st b s)) :=
  stateStep_write _ hn hactive hp (pointPs_txSW f i b) rfl

theorem stateStep_txSR_same (hp : n.pos = some (.txSR f i)) (hb : s.busState = n.readTrk.last) :
    stateStep (fieldPs f) uid s =
      .next (commit uid.toNat (detect .stuff (actOf { n with readTrk := track n.readTrk s.busState })) s) :=
  stateStep_of_read hn hactive hp (pointPs_txSR f i) rfl rfl (if_pos hb)

theorem stateStep_txSR_other {c : Frame} (hp : n.pos = some (.txSR f i)) (hb : s.busState ≠ n.readTrk.last) (hcur : n.cur = some c)
    (hbit : frameBit? c i = some b) :
    stateStep (fieldPs f) uid s =
      .next (moved uid.toNat (wrote b (.txW f i b) (.txR f i b) { n with readTrk := track n.readTrk s.busState }) [] s) :=
  stateStep_of_read hn hactive hp (pointPs_txSR f i) rfl rfl
    ((if_neg hb).trans (txSend_of_frameBit (a := actOf { n with readTrk := track n.readTrk s.busState }) f hcur hbit))

theorem stateStep_txW (hp : n.pos = some (.txW f i b)) :
    stateStep (fieldPs f) uid s = .next (moved uid.toNat { n with pos := some (.txR f i b) } [] (writeBy n.st b s)) :=
  stateStep_write _ hn hactive hp (pointPs_txW f i b) rfl

end Tx

/-! ### A stuff check of a Receiver (R97, R111, R113, R114) -/

section Rx

variable {s : State} {uid : Word} {n : Node} (hn : nodeAt s uid.toNat = some n) (hactive : s.active = true)
variable {sr r : Point} (hrun : ∀ cfg prev b a, fromRead cfg sr prev b a = afterRxStuff r prev b a) (hop : pointOp sr = .read)
include hn hactive hrun hop

theorem stateStep_rxStuff_same (hp : n.pos = some sr) (hb : s.busState = n.readTrk.last) :
    stateStep (pointPs sr) uid s =
      .next (commit uid.toNat (detect .stuff (actOf { n with readTrk := track n.readTrk s.busState })) s) :=
  stateStep_of_read hn hactive hp rfl hop rfl ((hrun _ _ _ _).trans (if_pos hb))

theorem stateStep_rxStuff_other (hp : n.pos = some sr) (hb : s.busState ≠ n.readTrk.last) :
    stateStep (pointPs sr) uid s =
      .next (moved uid.toNat { n with readTrk := track n.readTrk s.busState, pos := some r } [] s) :=
  stateStep_of_read hn hactive hp rfl hop rfl ((hrun _ _ _ _).trans (if_neg hb))

end Rx

/-! ### A bit shifted in -/

/-- A bit appended to a register whose highest bit is dropped is a left shift (R109, R113, R114). -/
theorem setWidth_append_ofBool {w : Nat} (x : BitVec w) (c : Bool) :
    (x ++ BitVec.ofBool c).setWidth w = x <<< 1 ||| BitVec.ofNat w c.toNat := by
  refine BitVec.eq_of_getLsbD_eq fun k hk => ?_
  rw [BitVec.getLsbD_setWidth, BitVec.getLsbD_append, BitVec.getLsbD_or, BitVec.getLsbD_shiftLeft, BitVec.getLsbD_ofNat]
  cases k with
  | zero => cases c <;> simp [hk]
  | succ k => cases c <;> simp [hk, Nat.testBit_succ]

theorem shiftId_eq (b : Bit) (n : Node) :
    shiftId b n = { n with rxId := n.rxId <<< 1 ||| BitVec.ofNat 11 b.toBool.toNat } := by
  rw [shiftId, setWidth_append_ofBool]

theorem shiftDlc_eq (b : Bit) (n : Node) :
    shiftDlc b n = { n with rxDlc := n.rxDlc <<< 1 ||| BitVec.ofNat 4 b.toBool.toNat } := by
  rw [shiftDlc, setWidth_append_ofBool]

theorem shiftByte_eq (acc : Byte) (b : Bit) : shiftByte acc b = acc <<< 1 ||| BitVec.ofNat 8 b.toBool.toNat :=
  setWidth_append_ofBool acc _

/-- A Transmitter that loses arbitration becomes a Receiver, and its frame goes back to the head of its queue (R110). -/
theorem arbitrationLost_of_frame {n : Node} {c : Frame} (hcur : n.cur = some c) :
    arbitrationLost n = { n with role := .receiver, queue := c :: n.queue, cur := none } := by
  simp only [arbitrationLost, pushback, hcur, pushFront]

/-! ### Arbitration (R108 to R111) -/

/-- Settles O43: a clause for each blocking point and for each way its bit is read. -/
theorem arbitrationResult : Obligations.ArbitrationResult := by
  intro s uid n _ i hn hactive rfl
  refine ⟨fun b hp => stateStep_txSW hn hactive hp, fun hp hb => stateStep_txSR_same hn hactive hp hb,
    fun c b hp hb hcur hbit => stateStep_txSR_other hn hactive hp hb hcur hbit, fun b hp => stateStep_txW hn hactive hp,
    fun hp => stateStep_of_read hn hactive hp rfl rfl rfl ?sent, fun c b hp hb hcur => stateStep_of_read hn hactive hp rfl rfl rfl ?lost,
    fun hp hb => stateStep_rxStuff_same hn hactive (fun _ _ _ _ => rfl) rfl hp hb,
    fun hp hb => stateStep_rxStuff_other hn hactive (fun _ _ _ _ => rfl) rfl hp hb,
    fun hp => stateStep_of_read hn hactive hp rfl rfl rfl ?received,
    fun hin => stateStep_of_start hn hactive hin rfl⟩
  case sent => exact (if_pos rfl).trans (congrArg (arbIter (i + 1) <| actOf ·) (shiftId_eq _ _))
  case lost =>
    refine (if_neg hb.symm).trans (congrArg (arbIter (i + 1) <| actOf ·) ?_)
    exact (congrArg arbitrationLost (shiftId_eq _ _)).trans (arbitrationLost_of_frame hcur)
  case received => exact congrArg (arbIter (i + 1) <| actOf ·) (shiftId_eq _ _)


/-! ### DLC and Data (R112 to R114) -/

/-- Settles O44: a clause for each blocking point and for each way its bit is read. -/
theorem dlcResult : Obligations.DlcResult := by
  intro s uid n _ i hn hactive rfl
  exact ⟨fun b hp => stateStep_txSW hn hactive hp, fun hp hb => stateStep_txSR_same hn hactive hp hb,
    fun c b hp hb hcur hbit => stateStep_txSR_other hn hactive hp hb hcur hbit, fun b hp => stateStep_txW hn hactive hp,
    fun hp => stateStep_of_read hn hactive hp rfl rfl rfl (if_pos rfl),
    fun b hp hb => stateStep_of_read hn hactive hp rfl rfl rfl (if_neg hb.symm),
    fun hp hb => stateStep_rxStuff_same hn hactive (fun _ _ _ _ => rfl) rfl hp hb,
    fun hp hb => stateStep_rxStuff_other hn hactive (fun _ _ _ _ => rfl) rfl hp hb,
    fun hp => stateStep_of_read hn hactive hp rfl rfl rfl (congrArg (dlcRx (i + 1) <| actOf ·) (shiftDlc_eq _ _)),
    fun hin hrole => stateStep_of_start hn hactive hin (enterDlc_of_transmitter hrole),
    fun hin hrole => stateStep_of_start hn hactive hin (enterDlc_of_receiver hrole)⟩

/-- Settles O45: a clause for each blocking point and for each way its bit is read. -/
theorem dataResult : Obligations.DataResult := by
  intro s uid n _ i hn hactive rfl
  refine ⟨fun b hp => stateStep_txSW hn hactive hp, fun hp hb => stateStep_txSR_same hn hactive hp hb,
    fun c b hp hb hcur hbit => stateStep_txSR_other hn hactive hp hb hcur hbit, fun b hp => stateStep_txW hn hactive hp,
    fun hp => stateStep_of_read hn hactive hp rfl rfl rfl (if_pos rfl),
    fun b hp hb => stateStep_of_read hn hactive hp rfl rfl rfl (if_neg hb.symm),
    fun k acc hp hb => stateStep_rxStuff_same hn hactive (fun _ _ _ _ => rfl) rfl hp hb,
    fun k acc hp hb => stateStep_rxStuff_other hn hactive (fun _ _ _ _ => rfl) rfl hp hb,
    fun k acc x hx hp hk => stateStep_of_read hn hactive hp rfl rfl rfl ?within,
    fun k acc x hx hp hk => stateStep_of_read hn hactive hp rfl rfl rfl ?byte,
    fun hin => stateStep_of_start hn hactive hin rfl⟩
  case within =>
    rw [hx, ← shiftByte_eq]
    exact (if_pos hk).trans (dataCheck_eq _ _ _ _)
  case byte =>
    rw [hx, ← shiftByte_eq]
    exact if_neg (Nat.not_lt.2 hk)

/-! ### EOF (R115, R132, R133) -/

section EndOfFrame

variable {cfg : Config.Params} {a : Act} {k : Nat}

theorem eofWrite_eq (k : Nat) (a : Act) :
    eofWrite k a = { a with node := wrote .recessive (.eofTxW k) (.eofTxR k) a.node } := writeThenRead_eq _ _ _ a

theorem endFrame_eq (a : Act) : endFrame a = { a with node := rested { a.node with prevRole := a.node.role } } :=
  enterIntermission_eq _

theorem deliver_of_frame {f : Frame} (h : a.node.cur = some f) :
    deliver a = { a with node := { a.node with cur := none }, effects := a.effects ++ [.event (.txDone f)] } := by
  simp only [deliver, h]
  rfl

theorem rule7_of_zero (h : a.node.tec = 0) : rule7 a = a := if_neg (by omega)

theorem rule7_of_pos (h : 0 < a.node.tec) : rule7 a = updateState { a with node := { a.node with tec := a.node.tec - 1 } } := if_pos h

theorem rule8_of_zero (h : a.node.recCtr = 0) : rule8 cfg a = a := if_neg (by omega)

theorem rule8_of_pos (h : 0 < a.node.recCtr) :
    rule8 cfg a = updateState { a with node := { a.node with
      recCtr := if 127 < a.node.recCtr then cfg.rule8Clamp else a.node.recCtr - 1 } } := if_pos h

@[simp] theorem updateState_role (a : Act) : (updateState a).node.role = a.node.role := by rw [updateState_eq]

@[simp] theorem updateState_fault (a : Act) : (updateState a).fault = a.fault := by rw [updateState_eq]

theorem afterEofTx_next (h : k + 1 < 7) : afterEofTx k .recessive a = eofWrite (k + 1) a := if_pos h

theorem afterEofTx_end {f : Frame} (h : 7 ≤ k + 1) (hcur : a.node.cur = some f) : afterEofTx k .recessive a =
    endFrame (rule7 { a with node := { a.node with cur := none }, effects := a.effects ++ [.event (.txDone f)] }) := by
  rw [← deliver_of_frame hcur]
  exact if_neg (Nat.not_lt.2 h)

theorem afterEofRx_next (h : k + 1 < 7) : afterEofRx cfg k .recessive a = blockAt (.eofRxR (k + 1)) a := if_pos h

theorem afterEofRx_end (h : 7 ≤ k + 1) : afterEofRx cfg k .recessive a =
    endFrame (rule8 cfg (emit (.rxFrame a.node.rxId a.node.rxDlc a.node.rxData) a)) := if_neg (Nat.not_lt.2 h)

/-- The end of a frame after fault confinement has moved a node that raised no fault (R132, R133, R134). -/
theorem endFrame_updateState (h : a.fault = none) : endFrame (updateState a) =
    { node := rested { (updateState a).node with prevRole := a.node.role }, effects := (updateState a).effects, fault := none } := by
  have hfault : (updateState a).fault = none := (updateState_fault a).trans h
  rw [endFrame_eq, updateState_role, ← hfault]

end EndOfFrame

/-- Settles O46: a clause for each blocking point, and at the seventh bit one for each way the counter stands. -/
theorem eofResult : Obligations.EofResult := by
  intro s uid n _ k hn hactive rfl
  refine ⟨fun hp => stateStep_write .eof hn hactive hp rfl rfl,
    fun hp hb => stateStep_of_read hn hactive hp rfl rfl hb rfl,
    fun hp hb hk => stateStep_of_read hn hactive hp rfl rfl hb ((afterEofTx_next hk).trans (eofWrite_eq _ _)),
    fun f hp hb hk hcur htec => stateStep_of_read hn hactive hp rfl rfl hb ?sent,
    fun f a hp hb hk hcur htec ha => stateStep_of_read hn hactive hp rfl rfl hb ?sentCounted,
    fun hp hb => stateStep_of_read hn hactive hp rfl rfl hb rfl,
    fun hp hb hk => stateStep_of_read hn hactive hp rfl rfl hb (afterEofRx_next hk),
    fun hp hb hk hrec => stateStep_of_read hn hactive hp rfl rfl hb ?received,
    fun a hp hb hk hrec ha => stateStep_of_read hn hactive hp rfl rfl hb ?receivedCounted,
    fun hin hrole => stateStep_of_start hn hactive hin (enterEof_of_transmitter hrole),
    fun hin hrole => stateStep_of_start hn hactive hin (enterEof_of_receiver hrole)⟩
  case sent =>
    refine (afterEofTx_end hk hcur).trans ?_
    rw [rule7_of_zero htec, endFrame_eq]
    rfl
  case sentCounted =>
    refine (afterEofTx_end hk hcur).trans ?_
    rw [rule7_of_pos htec, endFrame_updateState rfl, ha]
    rfl
  case received =>
    refine (afterEofRx_end hk).trans ?_
    rw [rule8_of_zero hrec, endFrame_eq]
    rfl
  case receivedCounted =>
    refine (afterEofRx_end hk).trans ?_
    rw [rule8_of_pos hrec, endFrame_updateState rfl, ha]
    rfl

/-! ### The flags of Error (R121, R130, R131) -/

section Unbounded

variable {cfg : Config.Params} (hcfg : cfg.cntW = none) (a : Act)
include hcfg

theorem counterFits_of_unbounded (v : Nat) : counterFits cfg v = true := by
  simp only [counterFits, hcfg]

theorem addTec_of_unbounded (k : Nat) : addTec cfg k a = updateState { a with node := { a.node with tec := a.node.tec + k } } :=
  if_pos (counterFits_of_unbounded hcfg _)

theorem addRec_of_unbounded (k : Nat) : addRec cfg k a = updateState { a with node := { a.node with recCtr := a.node.recCtr + k } } :=
  if_pos (counterFits_of_unbounded hcfg _)

theorem rule45_of_unbounded (n : Node) : rule45 cfg (actOf n) =
    updateState (actOf (if n.role = .transmitter then { n with tec := n.tec + 8 } else { n with recCtr := n.recCtr + 8 })) := by
  cases hrole : n.role with
  | transmitter => simpa [rule45, actOf, hrole] using addTec_of_unbounded hcfg (actOf n) 8
  | receiver => simpa [rule45, actOf, hrole] using addRec_of_unbounded hcfg (actOf n) 8

end Unbounded

theorem andThen_of_noFault {a : Act} (h : a.fault = none) (f : Act → Act) : andThen a f = f a := by simp only [andThen, h]

section Flags

variable (cfg : Config.Params) {a : Act} {k : Nat} (first : Bool)

theorem activeFlag_eq (k : Nat) (a : Act) :
    activeFlag k a = { a with node := wrote .dominant (.errAfW k) (.errAfR k) a.node } := writeThenRead_eq _ _ _ a

theorem passiveFlag_eq (k : Nat) (first : Bool) (a : Act) :
    passiveFlag k first a = { a with node := wrote .recessive (.errPfW k first) (.errPfR k first) a.node } := writeThenRead_eq _ _ _ a

theorem delimiterWait_eq (a : Act) :
    delimiterWait a = { a with node := wrote .recessive .errD1W .errD1R a.node } := writeThenRead_eq _ _ _ a

theorem delimiterBit_eq (k : Nat) (a : Act) :
    delimiterBit k a = { a with node := wrote .recessive (.errD2W k) (.errD2R k) a.node } := writeThenRead_eq _ _ _ a

theorem nextActive_eq (k : Nat) (a : Act) : nextActive k a = { a with node :=
    (if k + 1 < 6 then wrote .dominant (.errAfW (k + 1)) (.errAfR (k + 1)) a.node
     else wrote .recessive .errD1W .errD1R a.node) } := by
  by_cases hk : k + 1 < 6
  · rw [if_pos hk]; exact (if_pos hk).trans (activeFlag_eq _ a)
  · rw [if_neg hk]; exact (if_neg hk).trans (delimiterWait_eq a)

theorem afterPassive_next (h : k + 1 < 6) : afterPassive cfg k first .recessive a = passiveFlag (k + 1) false a := if_pos h

theorem afterPassive_end (h : 6 ≤ k + 1) : afterPassive cfg k first .recessive a = delimiterWait a := if_neg (Nat.not_lt.2 h)

/-- A Dominant bit restarts the flag; rule 2 is for a Receiver's first bit only (R121, R130). -/
theorem afterPassive_restarts {first : Bool} (k : Nat) (h : first = false ∨ a.node.role = .transmitter) :
    afterPassive cfg k first .dominant a = passiveFlag 0 false a := by
  refine if_neg fun ⟨hfirst, hrole⟩ => ?_
  obtain h | h := h
  · rw [h] at hfirst; cases hfirst
  · rw [h] at hrole; cases hrole

theorem afterPassive_rule2 (k : Nat) (h : a.node.role = .receiver) :
    afterPassive cfg k true .dominant a = andThen (rule2 cfg a) (passiveFlag 0 false) := if_pos ⟨rfl, h⟩

end Flags

/-- What a node that fault confinement has moved does next on its registers, after no fault (R134). -/
theorem updateState_with_node {a b : Act} (h : b = updateState a) (hfault : a.fault = none) (m : Node) :
    { b with node := m } = { node := m, effects := b.effects, fault := none } := by
  rw [← hfault, ← updateState_fault a, ← h]

/-- Settles O47: a clause for each blocking point of a flag and for each bit read there. -/
theorem errorFlagResult : Obligations.ErrorFlagResult := by
  intro s uid n _ k hn hactive hcfg rfl
  refine ⟨fun hp => stateStep_write .error hn hactive hp rfl rfl,
    fun hp hb hk => stateStep_of_read hn hactive hp rfl rfl hb ((if_pos hk).trans (activeFlag_eq _ _)),
    fun hp hb hk => stateStep_of_read hn hactive hp rfl rfl hb ((if_neg (Nat.not_lt.2 hk)).trans (delimiterWait_eq _)),
    fun a hp hb ha => stateStep_of_read hn hactive hp rfl rfl hb ?rule45,
    fun first hp => stateStep_write .error hn hactive hp rfl rfl,
    fun first hp hb hk => stateStep_of_read hn hactive hp rfl rfl hb ((afterPassive_next s.cfg first hk).trans (passiveFlag_eq _ _ _)),
    fun first hp hb hk => stateStep_of_read hn hactive hp rfl rfl hb ((afterPassive_end s.cfg first hk).trans (delimiterWait_eq _)),
    fun first hp hb h => stateStep_of_read hn hactive hp rfl rfl hb ((afterPassive_restarts s.cfg k h).trans (passiveFlag_eq _ _ _)),
    fun a hp hb hrole ha => stateStep_of_read hn hactive hp rfl rfl hb ?rule2,
    fun hin => stateStep_of_start hn hactive hin (enterError_eq _)⟩
  case rule45 =>
    have hrule : rule45 s.cfg (actOf { n with readTrk := track n.readTrk s.busState }) = a :=
      (rule45_of_unbounded hcfg _).trans ha.symm
    have hfault : a.fault = none := by rw [ha, updateState_fault]; rfl
    show andThen (rule45 s.cfg _) (nextActive k) = _
    rw [hrule, andThen_of_noFault hfault, nextActive_eq]
    exact updateState_with_node ha rfl _
  case rule2 =>
    have hrule : rule2 s.cfg (actOf { n with readTrk := track n.readTrk s.busState }) = a :=
      (addRec_of_unbounded hcfg _ 8).trans ha.symm
    have hfault : a.fault = none := by rw [ha, updateState_fault]; rfl
    refine (afterPassive_rule2 s.cfg k hrole).trans ?_
    rw [hrule, andThen_of_noFault hfault, passiveFlag_eq]
    exact updateState_with_node ha rfl _

/-! ### The delimiter, and the return from Error (R122, R128, R129, R162) -/

theorem afterDelimiter_next {cfg : Config.Params} {a : Act} {k : Nat} (h : k + 1 < 7) :
    afterDelimiter cfg k a = delimiterBit (k + 1) a := if_pos h

theorem afterDelimiter_end {cfg : Config.Params} {a : Act} {k : Nat} (h : 7 ≤ k + 1) :
    afterDelimiter cfg k a = leaveError cfg enterIntermission a := if_neg (Nat.not_lt.2 h)

theorem applyErrorUpdate_none {cfg : Config.Params} {a : Act} (h : a.node.errorUpdate = .none) : applyErrorUpdate cfg a = a := by
  simp only [applyErrorUpdate, h]

theorem applyErrorUpdate_recPlus1 {cfg : Config.Params} {a : Act} (h : a.node.errorUpdate = .recPlus1) :
    applyErrorUpdate cfg a = addRec cfg 1 a := by simp only [applyErrorUpdate, h, recPlus1]

theorem applyErrorUpdate_tecPlus8 {cfg : Config.Params} {a : Act} (h : a.node.errorUpdate = .tecPlus8) :
    applyErrorUpdate cfg a = addTec cfg 8 a := by simp only [applyErrorUpdate, h, tecPlus8]

/-- The return from Error, when the deferred update raises no fault: the node rests in Intermission (R122, R162). -/
theorem leaveError_of_noFault {cfg : Config.Params} {a b : Act} {r : Role} (hb : applyErrorUpdate cfg a = b)
    (hfault : b.fault = none) (hrole : b.node.role = r) : leaveError cfg enterIntermission a =
      { node := rested { b.node with errorUpdate := .none, prevRole := r }, effects := b.effects, fault := none } := by
  rw [leaveError, hb, andThen_of_noFault hfault, enterIntermission_eq, ← hfault, ← hrole]
  rfl

/-- Settles O48: a clause for each blocking point of the delimiter, and the return for each deferred update. -/
theorem errorReturnResult : Obligations.ErrorReturnResult := by
  intro s uid n _ k hn hactive hcfg rfl
  refine ⟨fun hp => stateStep_write .error hn hactive hp rfl rfl,
    fun hp hb => stateStep_of_read hn hactive hp rfl rfl hb (delimiterWait_eq _),
    fun hp hb => stateStep_of_read hn hactive hp rfl rfl hb (delimiterBit_eq 0 _),
    fun hp => stateStep_write .error hn hactive hp rfl rfl,
    fun hp hk => stateStep_of_read hn hactive hp rfl rfl rfl ((afterDelimiter_next hk).trans (delimiterBit_eq _ _)),
    fun a hp hk ha => stateStep_of_read hn hactive hp rfl rfl rfl ((afterDelimiter_end hk).trans ?_)⟩
  have hrun : applyErrorUpdate s.cfg (actOf { n with readTrk := track n.readTrk s.busState }) = a := by
    rw [ha]
    split
    · rename_i hupdate; exact applyErrorUpdate_none hupdate
    · rename_i hupdate; exact (applyErrorUpdate_recPlus1 hupdate).trans (addRec_of_unbounded hcfg _ 1)
    · rename_i hupdate; exact (applyErrorUpdate_tecPlus8 hupdate).trans (addTec_of_unbounded hcfg _ 8)
  have hkeep : a.fault = none ∧ a.node.role = n.role := by
    rw [ha]
    split
    · exact ⟨rfl, rfl⟩
    · exact ⟨updateState_fault _, updateState_role _⟩
    · exact ⟨updateState_fault _, updateState_role _⟩
  obtain ⟨hfault, hrole⟩ := hkeep
  exact leaveError_of_noFault hrun hfault hrole

end Sys2Proof.Machine
end

section
/-! Proofs of the family `44_fault_confinement.md`: BusOff is permanent (R139), the transitions of `updateState()` and the operations
that are its parts (R134 to R138), and the counter rules (R126, R128 to R133). -/

namespace Sys2Proof.Machine

/-! ### BusOff is permanent (R139) -/

/-- Settles O55: BusOff is among what every instruction keeps of a node. -/
theorem busOffPermanent : Obligations.BusOffPermanent := by
  intro i s t u n h hn hst
  obtain ⟨q, hq, hk⟩ := exec_kept h u _ hn
  cases hk with
  | node hk => exact ⟨_, hq, hk.busOff hst⟩

/-! ### After updateState() (R134, R140) -/

/-- Only rule 10 leads to BusOff, and it needs `tec > 255` (R136, R138). -/
theorem updateTarget_eq_busOff {n : Node} (h : updateTarget n = .busOff) (hst : n.st ≠ .busOff) : 255 < n.tec := by
  by_contra htec
  cases hn : n.st with
  | errorActive =>
    simp only [updateTarget, hn, rule9Target] at h
    split at h <;> cases h
  | errorPassive =>
    simp only [updateTarget, hn, if_neg htec, rule11Target] at h
    split at h <;> cases h
  | busOff => exact hst hn

/-- Settles O54: `updateState()` writes `st` alone, and by its table. -/
theorem countersAfterUpdate : Obligations.CountersAfterUpdate := by
  intro a
  have hcounters := updateTarget_counters a.node
  rw [updateState_eq]
  refine ⟨fun hst => ?_, fun hst => updateTarget_eq_busOff hst, rfl, rfl⟩
  have hst : updateTarget a.node = .errorActive := hst
  simpa [countersOk, hst] using hcounters

/-! ### An operation on a node (R142, R76) -/

section OnNode

variable {uid : Word} {n : Node} {s : State} (hn : nodeAt s uid.toNat = some n) {f : Node → Act}
include hn

/-- An operation on a node commits what it makes of the node. -/
theorem onNode_of_act {a : Act} (h : f n = a) : onNode uid f s = .next (commit uid.toNat a s) := by
  simp only [onNode, hn, h]

/-- An operation that makes nothing of the node changes nothing. -/
theorem onNode_of_stays (h : f n = actOf n) : onNode uid f s = .next s := by
  rw [onNode_of_act hn h, commit_actOf, setNode_self hn]

/-- An operation that only fails sets the fault register and changes nothing else (R160). -/
theorem onNode_of_failWith {r : FaultReason} (h : f n = failWith r (actOf n)) : onNode uid f s = .next (raiseFault r s) := by
  rw [onNode_of_act hn h]
  exact congrArg _ ((commit_of_fault uid.toNat n r s).trans (congrArg _ (setNode_self hn)))

end OnNode

/-! ### The tail of updateState(), and the entry into BusOff (R134, R138) -/

theorem enterBusOff_eq (a : Act) : enterBusOff a =
    { a with effects := a.effects ++ .event .busOff :: a.node.busOffFunc.toList.map .call } := by
  cases h : a.node.busOffFunc <;> simp [enterBusOff, emit, h]

section MoveTo

variable {n : Node} {old next : FcState}

theorem moveTo_same (h : next = n.st) : moveTo next (actOf n) = actOf n := if_pos h

theorem moveTo_alive (hst : n.st = old) (hnew : next ≠ old) (halive : next ≠ .busOff) : moveTo next (actOf n) =
    { node := { n with st := next }, effects := [.event (.stateChange old next n.tec n.recCtr)], fault := none } := by
  subst hst
  exact (if_neg hnew).trans (if_neg halive)

theorem moveTo_busOff (hst : n.st = old) (hold : old ≠ .busOff) : moveTo .busOff (actOf n) =
    { node := { n with st := .busOff }
      effects := .event (.stateChange old .busOff n.tec n.recCtr) :: .event .busOff :: n.busOffFunc.toList.map .call
      fault := none } := by
  subst hst
  exact (if_neg hold.symm).trans ((if_pos rfl).trans (enterBusOff_eq _))

end MoveTo

/-! ### The one transition of each of rules 9, 10 and 11 (R135 to R137) -/

section Rules

variable {n : Node}

theorem moveTo_rule9 (hst : n.st = .errorActive) (h : 127 < n.tec ∨ 127 < n.recCtr) : moveTo (rule9Target n) (actOf n) =
    { node := { n with st := .errorPassive }
      effects := [.event (.stateChange .errorActive .errorPassive n.tec n.recCtr)]
      fault := none } := by
  rw [show rule9Target n = .errorPassive from if_pos ⟨hst, h⟩]
  exact moveTo_alive hst (by decide) (by decide)

theorem moveTo_rule9_stays (h : n.st ≠ .errorActive ∨ n.tec ≤ 127 ∧ n.recCtr ≤ 127) :
    moveTo (rule9Target n) (actOf n) = actOf n := by
  refine moveTo_same (if_neg fun ⟨hst, hlimit⟩ => ?_)
  obtain hother | ⟨htec, hrec⟩ := h
  · exact hother hst
  · exact hlimit.elim htec.not_gt hrec.not_gt

theorem moveTo_rule10 (hst : n.st = .errorPassive) (h : 255 < n.tec) : moveTo (rule10Target n) (actOf n) =
    { node := { n with st := .busOff }
      effects := .event (.stateChange .errorPassive .busOff n.tec n.recCtr) :: .event .busOff :: n.busOffFunc.toList.map .call
      fault := none } := by
  rw [show rule10Target n = .busOff from if_pos ⟨hst, h⟩]
  exact moveTo_busOff hst (by decide)

theorem moveTo_rule10_stays (h : n.st ≠ .errorPassive ∨ n.tec ≤ 255) : moveTo (rule10Target n) (actOf n) = actOf n := by
  refine moveTo_same (if_neg fun ⟨hst, hlimit⟩ => ?_)
  obtain hother | htec := h
  · exact hother hst
  · exact htec.not_gt hlimit

theorem moveTo_rule11 (hst : n.st = .errorPassive) (htec : n.tec < 128) (hrec : n.recCtr < 128) :
    moveTo (rule11Target n) (actOf n) =
      { node := { n with st := .errorActive }
        effects := [.event (.stateChange .errorPassive .errorActive n.tec n.recCtr)]
        fault := none } := by
  rw [show rule11Target n = .errorActive from if_pos ⟨hst, Nat.le_of_lt_succ htec, Nat.le_of_lt_succ hrec⟩]
  exact moveTo_alive hst (by decide) (by decide)

theorem moveTo_rule11_stays (h : n.st ≠ .errorPassive ∨ 127 < n.tec ∨ 127 < n.recCtr) :
    moveTo (rule11Target n) (actOf n) = actOf n := by
  refine moveTo_same (if_neg fun ⟨hst, htec, hrec⟩ => ?_)
  obtain hother | hlimit := h
  · exact hother hst
  · exact hlimit.elim htec.not_gt hrec.not_gt

/-! ### Which rule updateState() runs (R134) -/

theorem updateState_of_errorActive (hst : n.st = .errorActive) :
    updateState (actOf n) = moveTo (rule9Target n) (actOf n) := by
  simp only [updateState, updateTarget, actOf, hst]

theorem updateState_of_errorPassive_over (hst : n.st = .errorPassive) (h : 255 < n.tec) :
    updateState (actOf n) = moveTo (rule10Target n) (actOf n) := by
  simp only [updateState, updateTarget, actOf, hst, h, if_true]

theorem updateState_of_errorPassive_under (hst : n.st = .errorPassive) (h : n.tec ≤ 255) :
    updateState (actOf n) = moveTo (rule11Target n) (actOf n) := by
  simp only [updateState, updateTarget, actOf, hst, h.not_gt, if_false]

theorem updateState_of_busOff (hst : n.st = .busOff) : updateState (actOf n) = actOf n :=
  moveTo_same ((updateTarget_busOff hst).trans hst.symm)

end Rules

/-- Settles O51: by the rule that `updateState()` runs in each state. -/
theorem stateTransitions : Obligations.StateTransitions := by
  intro s uid n hn
  refine ⟨fun hst h => onNode_of_act hn ((updateState_of_errorActive hst).trans (moveTo_rule9 hst h)),
    fun hst h => onNode_of_act hn ((updateState_of_errorPassive_over hst h).trans (moveTo_rule10 hst h)),
    fun hst htec hrec => onNode_of_act hn
      ((updateState_of_errorPassive_under hst (by omega)).trans (moveTo_rule11 hst htec hrec)),
    fun h => onNode_of_stays hn ?_⟩
  obtain ⟨hst, hlimits⟩ | ⟨hst, htec, hlimits⟩ | hst := h
  · exact (updateState_of_errorActive hst).trans (moveTo_rule9_stays (.inr hlimits))
  · exact (updateState_of_errorPassive_under hst htec).trans (moveTo_rule11_stays (.inr hlimits))
  · exact updateState_of_busOff hst

/-! ### The entry into BusOff, as an operation (R138, R155) -/

section Calls

variable (s : State) (u : Nat) (k : EventKind) (handles : List (BitVec 16))

theorem filterMap_eventOf_calls : (Effect.event k :: handles.map .call).filterMap (fun e => eventOf s (u, e)) =
    [{ period := stampOf s, phase := s.phase, uid := u, kind := k }] := by
  have hcalls : (handles.map Effect.call).filterMap (fun e => eventOf s (u, e)) = [] := by
    rw [List.filterMap_map]
    exact List.filterMap_eq_nil_iff.2 fun _ _ => rfl
  exact congrArg (List.cons _) hcalls

theorem filterMap_callOf_calls : (Effect.event k :: handles.map .call).filterMap (fun e => callOf s (u, e)) =
    handles.map fun h => { period := stampOf s, uid := u, handle := h } := by
  rw [List.filterMap_cons_none rfl, List.filterMap_map]
  exact congrFun List.filterMap_eq_map handles

theorem flatMap_issuedBy_calls : (Effect.event k :: handles.map .call).flatMap (fun e => issuedBy s (u, e)) =
    handles.flatMap (callbackCommands s.hostCode) := by
  rw [List.flatMap_cons, List.flatMap_map]
  rfl

end Calls

/-- The entry into BusOff stamps one event, records the call of the callback, and issues the callback's commands (R138, R155). -/
theorem commit_enterBusOff {s : State} {u : Nat} {n : Node} (hn : nodeAt s u = some n) : commit u (enterBusOff (actOf n)) s =
    { s with
      events := s.events ++ [{ period := stampOf s, phase := s.phase, uid := n.uid, kind := .busOff }]
      calls := s.calls ++ n.busOffFunc.toList.map fun h => { period := stampOf s, uid := n.uid, handle := h }
      issued := s.issued ++ n.busOffFunc.toList.flatMap (callbackCommands s.hostCode) } := by
  have hparts : s.participants.set u (.node n) = s.participants := congrArg State.participants (setNode_self hn)
  rw [commit_eq, enterBusOff_eq]
  simp only [actOf, List.nil_append, filterMap_eventOf_calls, filterMap_callOf_calls, flatMap_issuedBy_calls, hparts, laterFault]

/-- Settles O53: a clause for each rule's transition and for its condition not met, and the entry into BusOff. -/
theorem transitionOperations : Obligations.TransitionOperations := by
  intro s uid n hn
  exact ⟨fun hst h => onNode_of_act hn (moveTo_rule9 hst h), fun h => onNode_of_stays hn (moveTo_rule9_stays h),
    fun hst h => onNode_of_act hn (moveTo_rule10 hst h), fun h => onNode_of_stays hn (moveTo_rule10_stays h),
    fun hst htec hrec => onNode_of_act hn (moveTo_rule11 hst htec hrec), fun h => onNode_of_stays hn (moveTo_rule11_stays h),
    (onNode_of_act hn rfl).trans (congrArg _ (commit_enterBusOff hn))⟩

/-! ### The counter rules (R126, R128 to R133) -/

section Counters

variable {cfg : Config.Params} {k : Nat} {a : Act}

theorem addTec_of_fits (h : ∀ w, cfg.cntW = some w → a.node.tec + k < 2 ^ w) :
    addTec cfg k a = updateState { a with node := { a.node with tec := a.node.tec + k } } := if_pos ((counterFits_iff _ _).2 h)

theorem addTec_of_not_fits (h : ¬ ∀ w, cfg.cntW = some w → a.node.tec + k < 2 ^ w) :
    addTec cfg k a = failWith .counterOverflow a := if_neg (mt (counterFits_iff _ _).1 h)

theorem addRec_of_fits (h : ∀ w, cfg.cntW = some w → a.node.recCtr + k < 2 ^ w) :
    addRec cfg k a = updateState { a with node := { a.node with recCtr := a.node.recCtr + k } } :=
  if_pos ((counterFits_iff _ _).2 h)

theorem addRec_of_not_fits (h : ¬ ∀ w, cfg.cntW = some w → a.node.recCtr + k < 2 ^ w) :
    addRec cfg k a = failWith .counterOverflow a := if_neg (mt (counterFits_iff _ _).1 h)

theorem rule45_of_transmitter (h : a.node.role = .transmitter) : rule45 cfg a = addTec cfg 8 a := by simp only [rule45, h]

theorem rule45_of_receiver (h : a.node.role = .receiver) : rule45 cfg a = addRec cfg 8 a := by simp only [rule45, h]

theorem rule8_of_counted (h : 0 < a.node.recCtr) (hle : a.node.recCtr ≤ 127) :
    rule8 cfg a = updateState { a with node := { a.node with recCtr := a.node.recCtr - 1 } } := by
  rw [rule8_of_pos h, if_neg hle.not_gt]

theorem rule8_of_clamped (h : 127 < a.node.recCtr) :
    rule8 cfg a = updateState { a with node := { a.node with recCtr := cfg.rule8Clamp } } := by
  rw [rule8_of_pos (Nat.zero_lt_of_lt h), if_pos h]

end Counters

/-- Settles O52: each rule by its counter, its role where it has one, and whether the increment fits. -/
theorem counterRules : Obligations.CounterRules := by
  intro s uid n hn
  exact ⟨fun h => onNode_of_act hn (addTec_of_fits h), fun h => onNode_of_failWith hn (addTec_of_not_fits h),
    fun h => onNode_of_act hn (addRec_of_fits h), fun h => onNode_of_failWith hn (addRec_of_not_fits h),
    fun h => onNode_of_act hn (addRec_of_fits h), fun h => onNode_of_failWith hn (addRec_of_not_fits h),
    fun hrole h => onNode_of_act hn ((rule45_of_transmitter hrole).trans (addTec_of_fits h)),
    fun hrole h => onNode_of_failWith hn ((rule45_of_transmitter hrole).trans (addTec_of_not_fits h)),
    fun hrole h => onNode_of_act hn ((rule45_of_receiver hrole).trans (addRec_of_fits h)),
    fun hrole h => onNode_of_failWith hn ((rule45_of_receiver hrole).trans (addRec_of_not_fits h)),
    fun h => onNode_of_stays hn (rule7_of_zero h), fun h => onNode_of_act hn (rule7_of_pos h),
    fun h => onNode_of_stays hn (rule8_of_zero h), fun h hle => onNode_of_act hn (rule8_of_counted h hle),
    fun h => onNode_of_act hn (rule8_of_clamped h)⟩

end Sys2Proof.Machine
end

section
/-! Proofs of the family `45_host_interface.md`: the step and the reserved headers (R51, R141, R154, R155), each host command by the
cases it answers (R147 to R154), and what a host command can touch (R142, R143). -/

namespace Sys2Proof.Machine

/-! ### The packets of a step (R51, R141, R154, R155) -/

theorem runPacket_of_instr {p : Packet} {i : Instr} (h : decode p = .instr i) (s : State) : runPacket p s = exec i s := by
  simp only [runPacket, h]

theorem runPacket_of_reservedField {p : Packet} (h : decode p = .rejected .reservedField) (s : State) :
    runPacket p s = .next (answerCode .reservedCommand s) := by
  simp only [runPacket, h, rejectPacket]

section Fetched

variable {s t : State} (hs : stuck? s = none)
include hs

theorem step_of_fetch? {p : Packet} {i : Instr} (hf : fetch? s = some (p, t)) (hi : decode p = .instr i) : step s = exec i t := by
  simp only [step, hs, hf, runPacket_of_instr hi]

theorem step_of_fetch?_none (hf : fetch? s = none) : step s = exec .busPeriod s := by
  simp only [step, hs, hf]

end Fetched

section Next

variable {s : State} (hp : s.placed = [])
include hp

theorem fetch?_of_issued {c : Command} {rest : List Command} (hissued : s.issued = c :: rest) :
    fetch? s = some (.command c, { s with issued := rest }) := by
  simp only [fetch?, hp, nextCommand?, hissued, Option.map_some]

theorem fetch?_of_host {c : Command} {rest : List Command} {later : List (List Command)} (hissued : s.issued = [])
    (hhost : s.host = (c :: rest) :: later) : fetch? s = some (.command c, { s with host := rest :: later }) := by
  simp only [fetch?, hp, nextCommand?, hissued, hhost, Option.map_some]

theorem fetch?_of_none (hissued : s.issued = []) (hhost : s.host = [] ∨ ∃ later, s.host = [] :: later) : fetch? s = none := by
  obtain hhost | ⟨later, hhost⟩ := hhost <;> simp only [fetch?, hp, nextCommand?, hissued, hhost, Option.map_none]

end Next

theorem fetch?_of_placed {s : State} {p : Packet} {rest : List Packet} (h : s.placed = p :: rest) :
    fetch? s = some (p, { s with placed := rest }) := by
  simp only [fetch?, h]

theorem instr?_eq_some {d : Decoded} {i : Instr} : d.instr? = some i ↔ d = .instr i := by
  cases d <;> simp [Decoded.instr?]

/-- Settles O6: by where the next packet is taken from. -/
theorem stepRunsDecoded : Obligations.StepRunsDecoded := by
  intro s hs
  refine ⟨fun p rest i hp hi => step_of_fetch? hs (fetch?_of_placed hp) hi,
    fun c rest i hp hc hi => step_of_fetch? hs (fetch?_of_issued hp hc) hi,
    fun c rest later i hp hissued hc hi => step_of_fetch? hs (fetch?_of_host hp hissued hc) hi,
    fun hp hissued hhost => step_of_fetch?_none hs (fetch?_of_none hp hissued hhost), fun nbits w i hi => ?_⟩
  exact step_of_fetch? (s := s.withFetchWord nbits w) hs (fetch?_of_placed rfl) (instr?_eq_some.1 hi)

/-! ### Reserved headers (R142, R154) -/

/-- The check of the fields that must be 0 fails when its opposite holds. -/
theorem mustBeZero_of_nonzero {zero nonzero : Bool} (h : nonzero = true) (hnot : nonzero = !zero) (d : Decoded) :
    mustBeZero zero d = .rejected .reservedField := by
  subst hnot
  simp only [Bool.not_eq_true'] at h
  rw [h]; rfl

/-- A reserved header has a reserved opcode, or a field is refused before the operand words are looked at (log 27). -/
theorem decodeHeader_of_reserved {h : Word} (hres : reservedHeader h = true) (ops : List Word) :
    decodeHeader h ops = .rejected .reservedField ∨ (∃ low, decodeHeader h ops = .instr (.reserved0 low))
      ∨ (∃ low, decodeHeader h ops = .instr (.reservedAB low)) ∨ ∃ low, decodeHeader h ops = .instr (.reservedCF low) := by
  unfold reservedHeader at hres
  unfold decodeHeader
  split <;> rename_i hop
  case h_1 => exact .inr (.inl ⟨_, rfl⟩)
  case h_11 | h_12 => exact .inr (.inr (.inl ⟨_, rfl⟩))
  case h_13 => exact .inr (.inr (.inr ⟨_, rfl⟩))
  all_goals
    rw [hop] at hres
    exact .inl (mustBeZero_of_nonzero hres (by simp only [bne, Bool.not_and]) _)

/-- Settles O4: a field that must be 0 is refused, and the reserved opcodes are instructions that answer the same. -/
theorem reservedHeaderRefused : Obligations.ReservedHeaderRefused := by
  intro h ops s hres
  obtain hd | ⟨low, hd⟩ | ⟨low, hd⟩ | ⟨low, hd⟩ := decodeHeader_of_reserved hres ops
  · exact runPacket_of_reservedField (p := .command (h :: ops)) hd s
  all_goals exact runPacket_of_instr (p := .command (h :: ops)) hd s

/-- Settles O17: each of these commands is its answer. -/
theorem haltAndReserved : Obligations.HaltAndReserved := fun _ => ⟨rfl, fun _ => rfl, fun _ => rfl, fun _ => rfl⟩

/-! ### A uid that names no node (R142; log 2) -/

section NoNode

variable {s : State} {uid : Word} (h : nodeAt s uid.toNat = none)
include h

theorem onNode_of_noNode (f : Node → Act) : onNode uid f s = .next (answerCode .noSuchNode s) := by simp only [onNode, h]

theorem stateStep_of_noNode (ps : Ps) : stateStep ps uid s = .next (answerCode .noSuchNode s) := by simp only [stateStep, h]

end NoNode

theorem nodeCommand_of_noNode {s : State} {uid : BitVec 8} (h : nodeAt s uid.toNat = none) (f : Node → Node) :
    nodeCommand uid f s = .next (answerCode .noSuchNode s) := by simp only [nodeCommand, h]

/-- Every row that needs a node looks its uid up first. -/
theorem exec_of_noNode {s : State} {i : Instr} {u : Nat} (hi : nodeOperand i = some u) (h : nodeAt s u = none) :
    exec i s = .next (answerCode .noSuchNode s) := by
  cases i <;> cases hi
  case setBehavior | setBusOffFunc => exact nodeCommand_of_noNode h _
  case enqueue => simp only [exec, execEnqueue, h]
  case seed => simp only [exec, execSeed, h]
  case status => simp only [exec, execStatus, h]
  case queuePopFront => simp only [exec, execQueuePopFront, h]
  case stuffWriteBit => simp only [exec, execStuffWriteBit, h]
  case stuffReadBit => simp only [exec, execStuffReadBit, h]
  case stuffMaybeWriteStuff => simp only [exec, execStuffMaybeWriteStuff, h]
  case stuffMaybeReadStuff => simp only [exec, execStuffMaybeReadStuff, h]
  case fsmIntermission | fsmSuspendTransmission | fsmBusIdle | fsmArbitration | fsmDlc | fsmData | fsmEof | fsmError =>
    exact stateStep_of_noNode h _
  all_goals exact onNode_of_noNode h _

/-- Settles O18. -/
theorem noSuchNodeAnswered : Obligations.NoSuchNodeAnswered := by
  intro s i u
  refine ⟨exec_of_noNode, fun uid b hu => ?_⟩
  have hnone : s.participants[uid.toNat]? = none := List.getElem?_eq_none hu
  exact ⟨by simp only [exec, execBusWrite, hnone], by simp only [exec, execBusRead, hnone]⟩

/-! ### The commands on a node (R147 to R150, R152) -/

section AtNode

variable {s : State} {uid : BitVec 8} {n : Node} (hn : nodeAt s uid.toNat = some n)
include hn

theorem nodeCommand_of_nodeAt (f : Node → Node) :
    nodeCommand uid f s = .next (answerCode .ok (setNode s uid.toNat (f n))) := by
  simp only [nodeCommand, hn]

theorem execEnqueue_of_invalidId {data : List Byte} (h : frameNew n.id data = .invalidId) :
    execEnqueue uid data s = .next (answerCode .invalidId s) := by
  simp only [execEnqueue, hn, h]

theorem execEnqueue_of_payloadTooLarge {data : List Byte} (h : frameNew n.id data = .payloadTooLarge) :
    execEnqueue uid data s = .next (answerCode .payloadTooLarge s) := by
  simp only [execEnqueue, hn, h]

theorem execEnqueue_of_frame {data : List Byte} {f : Frame} (h : frameNew n.id data = .frame f) : execEnqueue uid data s =
    if queueFull s.cfg n then .refused .queueFull else .next (answerCode .ok (setNode s uid.toNat (pushBack f n))) := by
  simp only [execEnqueue, hn, h]

theorem execSeed_of_active (t r : Word) (hactive : s.active = true) :
    execSeed uid t r s = .next (answerCode .busAlreadyActive s) := by
  simp only [execSeed, hn, hactive, if_true]

theorem execSeed_of_inactive (t r : Word) (hactive : s.active = false) : execSeed uid t r s =
    if counterFits s.cfg t.toNat && counterFits s.cfg r.toNat then
      .next (answerCode .ok (commit uid.toNat (seedStep t.toNat r.toNat n) s))
    else .next (raiseFault .counterOverflow s) := by
  simp only [execSeed, hn, hactive, Bool.false_eq_true, if_false]

theorem execStatus_of_nodeAt : execStatus uid s = .next (answer (statusResult n) s) := by simp only [execStatus, hn]

end AtNode

/-- Settles O12. -/
theorem handlesStored : Obligations.HandlesStored := fun _ _ _ _ hn => ⟨nodeCommand_of_nodeAt hn _, nodeCommand_of_nodeAt hn _⟩

theorem queueFull_iff (cfg : Config.Params) (n : Node) :
    queueFull cfg n = true ↔ ∃ c, cfg.queueCap = some c ∧ c ≤ n.queue.length := by
  unfold queueFull
  cases cfg.queueCap <;> simp

/-- Settles O13: by what `Frame.new` makes of the node's identifier and the bytes, and then by the room in the queue. -/
theorem enqueueAppends : Obligations.EnqueueAppends := by
  intro s uid data n hn
  refine ⟨fun hid => execEnqueue_of_invalidId hn (frameNew_of_invalidId hid data),
    fun hid hlong => execEnqueue_of_payloadTooLarge hn ((frameNew_of_validId hid data).trans (dif_neg hlong.not_ge)),
    fun hshort hid hroom => ?_, fun c hcap hfull hid hshort => ?_⟩ <;>
    refine (execEnqueue_of_frame hn ((frameNew_of_validId hid data).trans (dif_pos hshort))).trans ?_
  · refine if_neg fun hfull => ?_
    obtain ⟨c, hcap, hle⟩ := (queueFull_iff _ _).1 hfull
    exact (hroom c hcap).not_ge hle
  · exact if_pos ((queueFull_iff _ _).2 ⟨c, hcap, hfull⟩)

/-- Settles O14: by whether the bus is active, and whether both values fit the counter width. -/
theorem seedSetsCounters : Obligations.SeedSetsCounters := by
  intro s uid t r n hn
  have hfits : (counterFits s.cfg t.toNat && counterFits s.cfg r.toNat) = true ↔
      ∀ w, s.cfg.cntW = some w → t.toNat < 2 ^ w ∧ r.toNat < 2 ^ w := by
    simp only [Bool.and_eq_true, counterFits_iff, forall_and]
  refine ⟨execSeed_of_active hn t r, fun hactive h => ?_, fun w hactive hw hover => ?_⟩ <;>
    refine (execSeed_of_inactive hn t r hactive).trans ?_
  · exact if_pos (hfits.2 h)
  · refine if_neg fun h => ?_
    obtain ⟨ht, hr⟩ := hfits.1 h w hw
    exact hover.elim ht.not_ge hr.not_ge

/-- Settles O16: word 0 is its fields, one after the other (R69). -/
theorem statusRecord : Obligations.StatusRecord := by
  intro s uid n hn
  refine ⟨(statusWords n).1, execStatus_of_nodeAt hn, ?_, ?_, ?_, ?_, ?_, ?_, ?_⟩ <;>
    simp (disch := decide) only [statusWords, BitVec.extractLsb'_append_eq_of_le, Nat.reduceSub,
      BitVec.extractLsb'_append_eq_right, BitVec.extractLsb'_eq_self]

/-! ### ACTIVATE (R107, R151) -/

/-- A participant after its turn at activation: a node is at its first bus call, a raw participant at its first entry. -/
def started : Participant → Participant
  | .node n => .node (idled n)
  | .raw r => .raw r

theorem startTurn_eq_started (p : Participant) (bus : Bit) : startTurn p bus = idleTurn (started p) bus := by
  cases p with
  | node n => simp only [startTurn, enterBusIdle_eq]; rfl
  | raw r => rfl

/-- Starting the participants gives nothing, and leaves the bus word. -/
theorem allTurns_startTurn (ps : List Participant) (bus : Bit) :
    allTurns startTurn ps bus = { parts := ps.map started, bus := bus, effects := [], fault := none } := by
  induction ps with
  | nil => rfl
  | cons p rest ih => simp only [allTurns, startTurn_eq_started, idleTurn, ih]; rfl

theorem applyRound_startTurn (s : State) : applyRound startTurn s = { s with participants := s.participants.map started } := by
  simp [applyRound, allTurns_startTurn, raiseAny, absorb]

/-- Settles O15: activation is the start of every participant. -/
theorem activateStarts : Obligations.ActivateStarts := by
  refine fun s => ⟨fun hactive => if_pos hactive, fun hactive => ?_⟩
  have hexec : exec .activate s = .next (applyRound startTurn { s with active := true }) := if_neg (by simp [hactive])
  rw [hexec, applyRound_startTurn]
  rfl

/-! ### What a host command can touch (R142, R143) -/

/-- A host command answers, attaches, or writes participants; the loop, the bus word and what waits to run it leaves. -/
theorem hostStep_leaves {i : Instr} {s t : State} (h : HostStep s i t) :
    t.busState = s.busState ∧ t.period = s.period ∧ t.phase = s.phase ∧ t.trace = s.trace ∧ t.host = s.host
      ∧ t.hostCode = s.hostCode ∧ t.placed = s.placed := by
  cases h with
  | started => rw [applyRound_startTurn]; simp
  | seeded => simp
  | answered | attached | behaves | calls | enqueued | tooWide | halts => exact ⟨rfl, rfl, rfl, rfl, rfl, rfl, rfl⟩

/-- What a host command makes of the participant at index `u`: a register of the node its uid names, or, while the bus is not active,
the start of every node. -/
inductive Touched (s : State) (u : Nat) : Instr → Participant → Participant → Prop
  | kept (i : Instr) (p : Participant) : Touched s u i p p
  | behaves (uid : BitVec 8) (h : BitVec 16) (n : Node) (handle : Option (BitVec 16)) (at_uid : uid.toNat = u) :
    Touched s u (.setBehavior uid h) (.node n) (.node { n with behavior := handle })
  | calls (uid : BitVec 8) (h : BitVec 16) (n : Node) (handle : Option (BitVec 16)) (at_uid : uid.toNat = u) :
    Touched s u (.setBusOffFunc uid h) (.node n) (.node { n with busOffFunc := handle })
  | enqueued (uid : BitVec 8) (data : List Byte) (n : Node) (f : Frame) (at_uid : uid.toNat = u) :
    Touched s u (.enqueue uid data) (.node n) (.node { n with queue := n.queue ++ [f] })
  | seeded (uid : BitVec 8) (v w : Word) (n : Node) (st : FcState) (tec recCtr : Nat) (still : s.active = false)
    (at_uid : uid.toNat = u) :
    Touched s u (.seed uid v w) (.node n) (.node { n with st := st, tec := tec, recCtr := recCtr })
  | started (n m : Node) (still : s.active = false) : Touched s u .activate (.node n) (.node m)

/-- A write of the registers of one node touches that participant only. -/
theorem Touched.of_set {s : State} {i : Instr} {u v : Nat} {n m : Node} {p : Participant} (hn : nodeAt s v = some n)
    (hp : s.participants[u]? = some p) (h : v = u → Touched s u i (.node n) (.node m)) :
    ∃ q, (s.participants.set v (.node m))[u]? = some q ∧ Touched s u i p q := by
  rw [nodeAt_eq_some] at hn
  by_cases hv : v = u
  · subst hv
    obtain rfl : .node n = p := Option.some.inj (hn.symm.trans hp)
    exact ⟨_, List.getElem?_set_self (List.getElem?_eq_some_iff.1 hp).1, h rfl⟩
  · exact ⟨p, (List.getElem?_set_ne hv).trans hp, .kept i p⟩

theorem hostStep_touches {i : Instr} {s t : State} (h : HostStep s i t) {u : Nat} {p : Participant}
    (hp : s.participants[u]? = some p) : ∃ q, t.participants[u]? = some q ∧ Touched s u i p q := by
  cases h with
  | answered | tooWide | halts => exact ⟨p, hp, .kept _ p⟩
  | attached _ _ still =>
    have hlt := (List.getElem?_eq_some_iff.1 hp).1
    exact ⟨p, (List.getElem?_append_left hlt).trans hp, .kept _ p⟩
  | started still =>
    refine ⟨started p, by rw [applyRound_startTurn]; simp [hp], ?_⟩
    cases p with
    | node n => exact .started n (idled n) still
    | raw r => exact .kept _ _
  | behaves uid h n hn => exact Touched.of_set hn hp (.behaves uid h n _)
  | calls uid h n hn => exact Touched.of_set hn hp (.calls uid h n _)
  | enqueued uid data f n hn => exact Touched.of_set hn hp (.enqueued uid data n f)
  | seeded uid v w n hn still =>
    rw [answerCode_participants, commit_participants]
    refine Touched.of_set hn hp fun hu => ?_
    rw [seedStep, updateState_eq]
    exact .seeded uid v w n _ _ _ still hu

/-- An answer that is the only new result is that result. -/
theorem answer_only_new {s t : State} {r q : Result} (hold : t.results = s.results)
    (h : (answer r t).results = s.results ++ [q]) : r = q := by
  rw [answer_results, hold] at h
  exact List.singleton_inj.1 (List.append_cancel_left h)

/-- A host command whose only new result is a failure has no other effect (R142). -/
theorem hostStep_failed {i : Instr} {s t : State} (h : HostStep s i t) {c : ResultCode}
    (hres : t.results = s.results ++ [.code c]) (hc : c ≠ .ok) : t = answerCode c s := by
  have hok : Result.code .ok ≠ .code c := fun h => hc (Result.code.inj h).symm
  cases h with
  | answered r => obtain rfl := answer_only_new rfl hres; rfl
  | attached => cases answer_only_new rfl hres
  | started | tooWide => simp at hres
  | behaves | calls | enqueued | halts => exact absurd (answer_only_new rfl hres) hok
  | seeded => exact absurd (answer_only_new (commit_results _ _ _) hres) hok

/-- Settles O19: each clause by what a host command does to the state, to a participant, and when it fails. -/
theorem hostCommandsConfined : Obligations.HostCommandsConfined := by
  refine ⟨fun c i => decode_isHostCommand, fun i s t hi h => ?_⟩
  have hstep := hostCommand_step hi h
  obtain ⟨hbus, hperiod, hphase, htrace, hhost, hcode, hplaced⟩ := hostStep_leaves hstep
  refine ⟨hbus, hperiod, hphase, htrace, hhost, hcode, hplaced, fun u r hp => ?_, fun u n hstill hp => ?_,
    fun c => hostStep_failed hstep⟩ <;>
    obtain ⟨q, hq, htouch⟩ := hostStep_touches hstep hp
  · cases htouch
    exact hq
  · cases htouch with
    | kept =>
      exact ⟨n.behavior, n.busOffFunc, [], n.st, n.tec, n.recCtr, by simpa using hq, .inl rfl, .inl rfl, .inl rfl,
        .inl ⟨rfl, rfl, rfl⟩⟩
    | behaves uid k _ handle hu =>
      exact ⟨handle, n.busOffFunc, [], n.st, n.tec, n.recCtr, by simpa using hq, .inr ⟨uid, k, rfl, hu⟩, .inl rfl, .inl rfl,
        .inl ⟨rfl, rfl, rfl⟩⟩
    | calls uid k _ handle hu =>
      exact ⟨n.behavior, handle, [], n.st, n.tec, n.recCtr, by simpa using hq, .inl rfl, .inr ⟨uid, k, rfl, hu⟩, .inl rfl,
        .inl ⟨rfl, rfl, rfl⟩⟩
    | enqueued uid data _ f hu =>
      exact ⟨n.behavior, n.busOffFunc, [f], n.st, n.tec, n.recCtr, hq, .inl rfl, .inl rfl, .inr ⟨uid, data, rfl, hu⟩,
        .inl ⟨rfl, rfl, rfl⟩⟩
    | seeded uid v w _ st tec recCtr still hu =>
      exact ⟨n.behavior, n.busOffFunc, [], st, tec, recCtr, by simpa using hq, .inl rfl, .inl rfl, .inl rfl,
        .inr ⟨still, uid, v, w, rfl, hu⟩⟩
    | started _ _ still =>
      obtain hactive | hother := hstill
      · cases still.symm.trans hactive
      · exact absurd rfl hother

end Sys2Proof.Machine
end

section
/-! Proofs of the family `60_exceptions.md`: a stopped block with a fault (R160), the loop with a fault set (R75; log 11), and the
packets that hold no command (log 8). -/

namespace Sys2Proof

/-! ### Packets that hold no command (log 8) -/

/-- The check of the fields that must be 0 passes when its opposite fails. -/
theorem mustBeZero_of_zero {zero nonzero : Bool} (h : nonzero = false) (hnot : nonzero = !zero) (d : Decoded) :
    mustBeZero zero d = d := by
  subst hnot
  simp only [Bool.not_eq_false'] at h
  rw [h]; rfl

theorem noWords_cons (w : Word) (rest : List Word) (i : Instr) : noWords (w :: rest) i = .rejected .wordCount := rfl

/-- Each command without operands counts its words once its header is valid. -/
theorem decodeHeader_of_surplusWord {h : Word} (hvalid : Machine.reservedHeader h = false)
    (hop : (headerOp h).toNat ∈ Machine.operandless) (w : Word) (rest : List Word) :
    decodeHeader h (w :: rest) = .rejected .wordCount := by
  simp only [Machine.operandless, List.mem_cons, List.not_mem_nil, or_false] at hop
  obtain hop | hop | hop | hop | hop | hop := hop
  all_goals
    simp only [Machine.reservedHeader, hop] at hvalid
    simp only [decodeHeader, hop, noWords_cons]
    exact mustBeZero_of_zero hvalid (by simp only [bne, Bool.not_and]) _

/-- Every identifier with a meaning is a row of the table (R70). -/
theorem decodeOpid_of_unknown {opid : Nat} (h : opid ∉ Machine.opids) (ops : List Word) :
    decodeOpid opid ops = .rejected .unknownOpid := by
  unfold decodeOpid
  split
  case h_35 => rfl
  all_goals exact absurd (by decide) h

/-- A word above 1 is the code of no bit (R65). -/
theorem wordAndBit_of_noBit {b : Word} (h : 2 ≤ b.toNat) (uid : Word) (k : Word → Bit → Instr) :
    wordAndBit [uid, b] k = .rejected .badOperand := by
  have hzero : b ≠ 0 := by bv_omega
  have hone : b ≠ 1 := by bv_omega
  simp only [wordAndBit, hzero, hone, if_false]

end Sys2Proof

namespace Sys2Proof.Machine

theorem runPacket_of_rejected {p : Packet} {e : DecodeError} (h : decode p = .rejected e) (s : State) :
    runPacket p s = rejectPacket e s := by
  simp only [runPacket, h]

/-! ### A fault (R160, R75) -/

theorem step_of_stuck {s : State} {r : FaultReason} (h : stuck? s = some r) : step s = .fault (.blockStuck r) := by
  simp only [step, h]

theorem stuck?_of_stopped {s : State} (h : s.phase = .stopped) : stuck? s = s.fault := by
  simp only [stuck?, h]

theorem running_of_fault {s : State} {r : FaultReason} (h : s.fault = some r) : running s = false := by
  simp [running, h]

theorem loopEnd_of_stops {s : State} (hactive : s.active = true) (h : running s = false) :
    loopEnd s = { nextPeriod s with phase := .stopped } := by
  simp [loopEnd, hactive, h]

/-- With a fault set an iteration of the loop is its end, which stops before the period (R160; log 11). -/
theorem busPeriod_of_fault {s : State} {r : FaultReason} (hfault : s.fault = some r) (hactive : s.active = true) :
    exec .busPeriod s = .next { nextPeriod s with phase := .stopped } := by
  rw [busPeriod_eq_loopEnd, loopEnd_of_stops hactive (running_of_fault hfault)]

/-- Settles O7: a fault by what the loop does with it, and each packet by what the decoder makes of it. -/
theorem stopsByName : Obligations.StopsByName := by
  intro s
  refine ⟨fun r hfault hphase => step_of_stuck ((stuck?_of_stopped hphase).trans hfault), fun r hfault hactive => ?_,
    runPacket_of_rejected (p := .command []) rfl s, runPacket_of_rejected (p := .operation []) rfl s,
    fun h w rest hvalid hop =>
      runPacket_of_rejected (p := .command (h :: w :: rest)) (decodeHeader_of_surplusWord hvalid hop w rest) s,
    fun w rest => runPacket_of_rejected (p := .operation (0x80 :: w :: rest)) (noWords_cons w rest .busPeriod) s,
    fun o ws ho => runPacket_of_rejected (p := .operation (o :: ws)) (decodeOpid_of_unknown ho ws) s, fun o uid b ho hb => ?_⟩
  · exact ⟨_, busPeriod_of_fault hfault hactive, rfl, (nextPeriod_fault s).trans hfault, nextPeriod_trace s⟩
  · obtain rfl | rfl := ho
    · exact runPacket_of_rejected (p := .operation [0x21, uid, b]) (wordAndBit_of_noBit hb uid .busWrite) s
    · exact runPacket_of_rejected (p := .operation [0x50, uid, b]) (wordAndBit_of_noBit hb uid .stuffWriteBit) s

end Sys2Proof.Machine
end

section
/-! Proofs of the family `70_reset_and_hazards.md`: the block right after its creation (R144, R171). -/

namespace Sys2Proof.Machine

/-- Settles O8: creation writes each of these registers, the bit rate as the model chose it (log 16). -/
theorem resetValues : Obligations.ResetValues := by
  unfold Obligations.ResetValues
  exact ⟨rfl, rfl, rfl, rfl, rfl, rfl, rfl, rfl, rfl⟩

/-! ### The invariants without participants -/

theorem partsInOrder_of_noParticipants {s : State} (h : s.participants = []) : PartsInOrder s := by
  simp [PartsInOrder, h]

theorem partsOk_of_noParticipants {s : State} (h : s.participants = []) : PartsOk s := by
  simp [PartsOk, h]

/-- A stopped loop that has run no period has no trace line to account for (R141, R156). -/
theorem inv_of_created {s : State} (hparts : s.participants = []) (hphase : s.phase = .stopped) (hperiod : s.period = 0)
    (htrace : s.trace = []) : Inv s = true := by
  refine (inv_iff s).2 ⟨partsInOrder_of_noParticipants hparts, ?_, ?_, ?_⟩
  · simp [phaseSettled, hphase]
  · simp [traceCounts, hphase, hperiod, htrace]
  · simp [noPeriodYet, hphase, hperiod]

/-- With nothing placed and no fault there is nothing a run of host commands could have broken (R143, R160). -/
theorem hostInv_of_created {s : State} (hparts : s.participants = []) (hplaced : s.placed = []) (hfault : s.fault = none) :
    HostInv s = true := by
  refine (hostInv_iff s).2 ⟨?_, partsOk_of_noParticipants hparts, .inl hfault⟩
  simp [hostDriven, hplaced]

/-- Settles O9: a created block has no participant, no period run, nothing placed and no fault. -/
theorem resetMeetsInvariants : Obligations.ResetMeetsInvariants := by
  unfold Obligations.ResetMeetsInvariants
  obtain ⟨-, -, -, hparts, hperiod, hphase, -, hfault, -⟩ := resetValues
  exact ⟨inv_of_created hparts hphase hperiod rfl, hostInv_of_created hparts rfl hfault⟩

end Sys2Proof.Machine
end
